-- ==== Sys2Proof/Word.lean ====
section
/-! DEFINITION. The words of the LCDC: bytes and the 21-bit host request word (30_encoding.md R111). -/

namespace Sys2Proof

/-- A byte: an operand, a command or data byte, the eight data lanes. -/
abbrev Byte := BitVec 8

/-- The host request word, 21 bits wide: op, a, b from the top (30_encoding.md R111). -/
abbrev Req := BitVec 21

end Sys2Proof
end

