-- ==== Sys2Proof/Syntax.lean ====
section
/-! DEFINITION. The requests of the opcode map (30_encoding.md R112), one constructor per row of spec/opcode_table.json,
and the source lines of the request assembly (30_encoding.md R126, R127). -/

namespace Sys2Proof

/-- A decoded request. Both operand bytes are kept even where the request ignores them (30_encoding.md R116), because
the request latch captures them (10_state.md R43). -/
inductive Instr where
  /-- 0x00 GET_STATUS: `a[1:0]` selects what is read (43_command_api.md R267). -/
  | getStatus (a b : Byte)
  /-- 0x01 INIT (42_controller_init.md R220). -/
  | init (a b : Byte)
  /-- 0x02 WRITE_CMD: `a` is the command byte (41_register_access.md R195). -/
  | writeCmd (a b : Byte)
  /-- 0x03 WRITE_DATA: `a` is the data byte (41_register_access.md R196). -/
  | writeData (a b : Byte)
  /-- 0x04 READ_DATA (41_register_access.md R197). -/
  | readData (a b : Byte)
  /-- 0x05 READ_AB (41_register_access.md R198). -/
  | readAb (a b : Byte)
  /-- 0x06 IS_BUSY (41_register_access.md R199). -/
  | isBusy (a b : Byte)
  /-- 0x07 CLEAR (43_command_api.md R252). -/
  | clear (a b : Byte)
  /-- 0x08 HOME (43_command_api.md R251). -/
  | home (a b : Byte)
  /-- 0x09 CURSOR_ON (43_command_api.md R253). -/
  | cursorOn (a b : Byte)
  /-- 0x0A CURSOR_OFF (43_command_api.md R254). -/
  | cursorOff (a b : Byte)
  /-- 0x0B BLINK_ON (43_command_api.md R255). -/
  | blinkOn (a b : Byte)
  /-- 0x0C BLINK_OFF (43_command_api.md R256). -/
  | blinkOff (a b : Byte)
  /-- 0x0D SCROLL_LEFT (43_command_api.md R257). -/
  | scrollLeft (a b : Byte)
  /-- 0x0E SCROLL_RIGHT (43_command_api.md R258). -/
  | scrollRight (a b : Byte)
  /-- 0x0F ENTRY_LTR (43_command_api.md R259). -/
  | entryLtr (a b : Byte)
  /-- 0x10 ENTRY_RTL (43_command_api.md R260). -/
  | entryRtl (a b : Byte)
  /-- 0x11 AUTOSCROLL_ON (43_command_api.md R261). -/
  | autoscrollOn (a b : Byte)
  /-- 0x12 AUTOSCROLL_OFF (43_command_api.md R262). -/
  | autoscrollOff (a b : Byte)
  /-- 0x13 SET_CURSOR: `a` is the column, `b` the row (43_command_api.md R263). -/
  | setCursor (a b : Byte)
  /-- 0x14 CGRAM_SLOT: `a[2:0]` is the slot (43_command_api.md R264). -/
  | cgramSlot (a b : Byte)
  /-- 0x15, reserved (30_encoding.md R115). -/
  | reserved15 (a b : Byte)
  /-- 0x16, reserved (30_encoding.md R115). -/
  | reserved16 (a b : Byte)
  /-- 0x17, reserved (30_encoding.md R115). -/
  | reserved17 (a b : Byte)
  /-- 0x18, reserved (30_encoding.md R115). -/
  | reserved18 (a b : Byte)
  /-- 0x19, reserved (30_encoding.md R115). -/
  | reserved19 (a b : Byte)
  /-- 0x1A, reserved (30_encoding.md R115). -/
  | reserved1A (a b : Byte)
  /-- 0x1B, reserved (30_encoding.md R115). -/
  | reserved1B (a b : Byte)
  /-- 0x1C, reserved (30_encoding.md R115). -/
  | reserved1C (a b : Byte)
  /-- 0x1D, reserved (30_encoding.md R115). -/
  | reserved1D (a b : Byte)
  /-- 0x1E, reserved (30_encoding.md R115). -/
  | reserved1E (a b : Byte)
  /-- 0x1F, reserved (30_encoding.md R115). -/
  | reserved1F (a b : Byte)
deriving DecidableEq, Repr

/-- One line of request assembly (30_encoding.md R126) or one pseudo-instruction (30_encoding.md R127). Operands are the
numbers as written; `SourceLine.WellFormed` says which of them can be assembled. -/
inductive SourceLine where
  /-- A request: its opcode in R112 and its written operands. -/
  | request (op : Nat) (operands : List Nat)
  /-- PRINT: the bytes of the text. -/
  | print (text : List Nat)
  /-- CREATE_CHAR: the slot and the bitmap rows. -/
  | createChar (slot : Nat) (rows : List Nat)
deriving DecidableEq, Repr

end Sys2Proof
end

