-- ==== Sys2Proof/Decode.lean ====
section
/-! DEFINITION. The decoder of request words, total and refusing by name, and the encoder, both from the field table of
30_encoding.md R111 and the opcode map of R112. -/

namespace Sys2Proof

/-- Why a number is no request. -/
inductive DecodeError where
  /-- The number does not fit in the 21 bits of a request word (30_encoding.md R111). -/
  | notARequestWord (n : Nat)
deriving DecidableEq, Repr

/-- `req_op` = bits 20:16 (30_encoding.md R111). -/
def Req.op (w : Req) : BitVec 5 := w.extractLsb' 16 5

/-- `req_a` = bits 15:8 (30_encoding.md R111). -/
def Req.a (w : Req) : Byte := w.extractLsb' 8 8

/-- `req_b` = bits 7:0 (30_encoding.md R111). -/
def Req.b (w : Req) : Byte := w.extractLsb' 0 8

/-- The opcode map (30_encoding.md R112). An opcode has five bits, so what is left after 0x1E is 0x1F. -/
def instrOfOp (op : BitVec 5) (a b : Byte) : Instr :=
  match op.toNat with
  | 0x00 => .getStatus a b
  | 0x01 => .init a b
  | 0x02 => .writeCmd a b
  | 0x03 => .writeData a b
  | 0x04 => .readData a b
  | 0x05 => .readAb a b
  | 0x06 => .isBusy a b
  | 0x07 => .clear a b
  | 0x08 => .home a b
  | 0x09 => .cursorOn a b
  | 0x0A => .cursorOff a b
  | 0x0B => .blinkOn a b
  | 0x0C => .blinkOff a b
  | 0x0D => .scrollLeft a b
  | 0x0E => .scrollRight a b
  | 0x0F => .entryLtr a b
  | 0x10 => .entryRtl a b
  | 0x11 => .autoscrollOn a b
  | 0x12 => .autoscrollOff a b
  | 0x13 => .setCursor a b
  | 0x14 => .cgramSlot a b
  | 0x15 => .reserved15 a b
  | 0x16 => .reserved16 a b
  | 0x17 => .reserved17 a b
  | 0x18 => .reserved18 a b
  | 0x19 => .reserved19 a b
  | 0x1A => .reserved1A a b
  | 0x1B => .reserved1B a b
  | 0x1C => .reserved1C a b
  | 0x1D => .reserved1D a b
  | 0x1E => .reserved1E a b
  | _ => .reserved1F a b

/-- The request a 21-bit word stands for: every word is one (30_encoding.md R112, R115). -/
def decodeReq (w : Req) : Instr := instrOfOp w.op w.a w.b

/-- The decoder on any number: a number that is no 21-bit word is refused by name. -/
def decode (n : Nat) : Except DecodeError Instr :=
  if n < 2 ^ 21 then .ok (decodeReq (BitVec.ofNat 21 n)) else .error (.notARequestWord n)

/-- The opcode of a request (30_encoding.md R112). -/
def Instr.opcode : Instr → BitVec 5
  | .getStatus _ _ => 0x00#5
  | .init _ _ => 0x01#5
  | .writeCmd _ _ => 0x02#5
  | .writeData _ _ => 0x03#5
  | .readData _ _ => 0x04#5
  | .readAb _ _ => 0x05#5
  | .isBusy _ _ => 0x06#5
  | .clear _ _ => 0x07#5
  | .home _ _ => 0x08#5
  | .cursorOn _ _ => 0x09#5
  | .cursorOff _ _ => 0x0A#5
  | .blinkOn _ _ => 0x0B#5
  | .blinkOff _ _ => 0x0C#5
  | .scrollLeft _ _ => 0x0D#5
  | .scrollRight _ _ => 0x0E#5
  | .entryLtr _ _ => 0x0F#5
  | .entryRtl _ _ => 0x10#5
  | .autoscrollOn _ _ => 0x11#5
  | .autoscrollOff _ _ => 0x12#5
  | .setCursor _ _ => 0x13#5
  | .cgramSlot _ _ => 0x14#5
  | .reserved15 _ _ => 0x15#5
  | .reserved16 _ _ => 0x16#5
  | .reserved17 _ _ => 0x17#5
  | .reserved18 _ _ => 0x18#5
  | .reserved19 _ _ => 0x19#5
  | .reserved1A _ _ => 0x1A#5
  | .reserved1B _ _ => 0x1B#5
  | .reserved1C _ _ => 0x1C#5
  | .reserved1D _ _ => 0x1D#5
  | .reserved1E _ _ => 0x1E#5
  | .reserved1F _ _ => 0x1F#5

/-- The first operand byte of a request. -/
def Instr.operandA : Instr → Byte
  | .getStatus a _ => a
  | .init a _ => a
  | .writeCmd a _ => a
  | .writeData a _ => a
  | .readData a _ => a
  | .readAb a _ => a
  | .isBusy a _ => a
  | .clear a _ => a
  | .home a _ => a
  | .cursorOn a _ => a
  | .cursorOff a _ => a
  | .blinkOn a _ => a
  | .blinkOff a _ => a
  | .scrollLeft a _ => a
  | .scrollRight a _ => a
  | .entryLtr a _ => a
  | .entryRtl a _ => a
  | .autoscrollOn a _ => a
  | .autoscrollOff a _ => a
  | .setCursor a _ => a
  | .cgramSlot a _ => a
  | .reserved15 a _ => a
  | .reserved16 a _ => a
  | .reserved17 a _ => a
  | .reserved18 a _ => a
  | .reserved19 a _ => a
  | .reserved1A a _ => a
  | .reserved1B a _ => a
  | .reserved1C a _ => a
  | .reserved1D a _ => a
  | .reserved1E a _ => a
  | .reserved1F a _ => a

/-- The second operand byte of a request. -/
def Instr.operandB : Instr → Byte
  | .getStatus _ b => b
  | .init _ b => b
  | .writeCmd _ b => b
  | .writeData _ b => b
  | .readData _ b => b
  | .readAb _ b => b
  | .isBusy _ b => b
  | .clear _ b => b
  | .home _ b => b
  | .cursorOn _ b => b
  | .cursorOff _ b => b
  | .blinkOn _ b => b
  | .blinkOff _ b => b
  | .scrollLeft _ b => b
  | .scrollRight _ b => b
  | .entryLtr _ b => b
  | .entryRtl _ b => b
  | .autoscrollOn _ b => b
  | .autoscrollOff _ b => b
  | .setCursor _ b => b
  | .cgramSlot _ b => b
  | .reserved15 _ b => b
  | .reserved16 _ b => b
  | .reserved17 _ b => b
  | .reserved18 _ b => b
  | .reserved19 _ b => b
  | .reserved1A _ b => b
  | .reserved1B _ b => b
  | .reserved1C _ b => b
  | .reserved1D _ b => b
  | .reserved1E _ b => b
  | .reserved1F _ b => b

/-- The request word of a request: opcode, first operand, second operand from the top (30_encoding.md R111). -/
def encode (i : Instr) : Req :=
  (i.opcode ++ i.operandA ++ i.operandB : BitVec (5 + 8 + 8))

/-- What the decoder reads from the low `nbits` bits of a number, numbered as spec/opcode_table.json numbers them. The
request word is one unit at the host port, so no byte order enters. -/
def decodeTableWord (nbits w : Nat) : Option Instr :=
  match decode (w % 2 ^ nbits) with
  | .ok i => some i
  | .error _ => none

end Sys2Proof
end

