-- ==== Sys2Proof/Config.lean ====
section
/-! DEFINITION. The configuration record of 00_scope.md R8 (fixed for the whole run), the board State.reset names,
and the free values of the device oracle. What is legal and what is derived from it stands in Machine/Parameters.lean. -/

namespace Sys2Proof

/-- `BUS_WIDTH`, the source's enum of two (00_scope.md R8). -/
inductive BusWidth where
  | four
  | eight
deriving DecidableEq, Repr

/-- The parameters of 00_scope.md R8 with R8's defaults. The five OPEN ones have none. -/
structure Config where
  busWidth : BusWidth
  rwWired : Bool
  lines : Nat
  cols : Nat
  tClkNs : Nat
  font5x10 : Bool := false
  tAsNs : Nat := 1000
  tPwNs : Nat := 1000
  tSettleNs : Nat := 37000
  tPowerOnNs : Nat := 50000000
  tNeg1Ns : Nat := 4100000
  tNeg2Ns : Nat := 100000
  tNeg3Ns : Nat := 100000
  tLongNs : Nat := 2000000
  tRdEhNs : Nat := 1000
  tRdRecNs : Nat := 1000
  pollMax : Nat := 20000
deriving DecidableEq, Repr

/-- The board of `State.reset`. DESIGN CHOICE (log 1): the spec leaves these five parameters OPEN; the board is the
example string `LCDC-B4-RW1-L2` of 00_scope.md R2 with 16 columns and the 1000 ns clock of the spec's examples.
Unsafe only for a claim about `State.reset` itself: every other claim is over every legal configuration. -/
def Config.board : Config where
  busWidth := .four
  rwWired := true
  lines := 2
  cols := 16
  tClkNs := 1000

/-- The device oracle's free draws (00_scope.md R7, D45, U7): what `lcd_d_i` carries at sample number `n` when no
scripted answer stands in State. It has no body, so nothing can be proved of its values. Safe (log 2). -/
opaque Config.deviceDraw : Nat → Byte

end Sys2Proof
end

