-- ==== Sys2Proof/Machine/Parameters.lean ====
section
/-! DEFINITION. What follows from the configuration alone: its legal values (00_scope.md R8, R9), the derived constants
(R10, 10_state.md R40), its identifying string (R2), durations in cycles (40_transport.md R150) and the lengths of
transfers and accesses (40_transport.md R152, R156, 70_reset_and_hazards.md R348). -/

namespace Sys2Proof

/-- The legal values of 00_scope.md R8. `BUS_WIDTH` is 4 or 8 and the two flags are booleans by their types. -/
def Config.legal (c : Config) : Bool :=
  decide (1 ≤ c.lines ∧ c.lines ≤ 4 ∧ 1 ≤ c.cols ∧ c.cols ≤ 255
    ∧ 1 ≤ c.tClkNs ∧ 1000 ≤ c.tAsNs ∧ 450 ≤ c.tPwNs ∧ 37000 ≤ c.tSettleNs
    ∧ 40000000 ≤ c.tPowerOnNs ∧ 4100000 ≤ c.tNeg1Ns ∧ 100000 ≤ c.tNeg2Ns ∧ 100000 ≤ c.tNeg3Ns
    ∧ 1 ≤ c.tLongNs ∧ 450 ≤ c.tRdEhNs ∧ 1000 ≤ c.tRdRecNs ∧ 1 ≤ c.pollMax)

/-- `W` (00_scope.md R10). -/
def Config.width (c : Config) : Nat :=
  match c.busWidth with
  | .four => 4
  | .eight => 8

/-- `ACTIVE = (1 << W) - 1`, the mask of the active lanes (00_scope.md R10). -/
def Config.active (c : Config) : Byte :=
  match c.busWidth with
  | .four => 0x0F#8
  | .eight => 0xFF#8

/-- `DL` (00_scope.md R10). -/
def Config.dl (c : Config) : Bool :=
  match c.busWidth with
  | .four => false
  | .eight => true

/-- `NL` (00_scope.md R10). -/
def Config.nl (c : Config) : Bool := decide (1 < c.lines)

/-- `FF` (00_scope.md R10). -/
def Config.ff (c : Config) : Bool := c.font5x10 && decide (c.lines = 1)

/-- `ROWOFF` (10_state.md R40): the DDRAM base address of a row. -/
def Config.rowOff (c : Config) (row : Nat) : Byte :=
  match row with
  | 0 => 0x00#8
  | 1 => 0x40#8
  | 2 => BitVec.ofNat 8 c.cols
  | _ => BitVec.ofNat 8 (0x40 + c.cols)

/-- The identifying string `LCDC-B<BUS_WIDTH>-RW<0|1>-L<LINES>` (00_scope.md R2). -/
def Config.ident (c : Config) : String :=
  "LCDC-B" ++ toString c.width ++ "-RW" ++ (if c.rwWired then "1" else "0") ++ "-L" ++ toString c.lines

/-- `N(t) = max(1, ceil(t / T_CLK_NS))`, the cycles of a duration (40_transport.md R150). -/
def Config.cycles (c : Config) (t : Nat) : Nat := max 1 ((t + c.tClkNs - 1) / c.tClkNs)

/-- `L_W`, the length of a write transfer (40_transport.md R152). -/
def Config.writeXferLen (c : Config) : Nat := c.cycles c.tAsNs + c.cycles c.tPwNs + c.cycles c.tSettleNs

/-- `L_R`, the length of a read transfer (40_transport.md R156). -/
def Config.readXferLen (c : Config) : Nat := c.cycles c.tAsNs + c.cycles c.tRdEhNs + c.cycles c.tRdRecNs

/-- `MW`, the length of a register write (41_register_access.md R180). -/
def Config.writeLen (c : Config) : Nat :=
  match c.busWidth with
  | .four => 2 * c.writeXferLen
  | .eight => c.writeXferLen

/-- `R`, the length of a register read (41_register_access.md R183). -/
def Config.readLen (c : Config) : Nat :=
  match c.busWidth with
  | .four => 2 * c.readXferLen
  | .eight => c.readXferLen

/-- Transfers per register access (40_transport.md R158). -/
def Config.pulses (c : Config) : Nat :=
  match c.busWidth with
  | .four => 2
  | .eight => 1

/-- The length of INIT up to its first register write: power-on wait and negotiation (42_controller_init.md R234). -/
def Config.negotiationLen (c : Config) : Nat :=
  c.cycles c.tPowerOnNs
    + (match c.busWidth with | .four => 4 | .eight => 3) * c.writeXferLen
    + c.cycles c.tNeg1Ns + c.cycles c.tNeg2Ns + c.cycles c.tNeg3Ns

/-- The longest a request can take: INIT with its longest waits and polls (42_controller_init.md R234,
70_reset_and_hazards.md R341). -/
def Config.longestRequest (c : Config) : Nat :=
  c.negotiationLen + 4 * c.writeLen + c.cycles c.tLongNs + 4 * (c.pollMax * c.readLen)

/-- The longest duration among the parameters, in cycles: what `cnt` must hold (10_state.md R44). -/
def Config.longestPhase (c : Config) : Nat :=
  [c.tAsNs, c.tPwNs, c.tSettleNs, c.tPowerOnNs, c.tNeg1Ns, c.tNeg2Ns, c.tNeg3Ns, c.tLongNs, c.tRdEhNs, c.tRdRecNs].foldr
    (fun t m => max (c.cycles t) m) 0

end Sys2Proof
end

