-- ==== Sys2Proof/Machine/Operands.lean ====
section
/-! DEFINITION. Operand decoding (30_encoding.md R124), the bit fields of a command byte (R120) and the command bytes the
requests send (R121). -/

namespace Sys2Proof

/-- `v[7:4]`, as the low nibble of a byte (20_memory.md R86). -/
def Byte.hi (v : Byte) : Byte := v >>> 4

/-- `v[3:0]` (20_memory.md R86). -/
def Byte.lo (v : Byte) : Byte := v &&& 0x0F#8

/-- One bit as a byte: `zext_8` (00_scope.md R11). -/
def Byte.ofBit (x : Bool) : Byte := (BitVec.ofBool x).setWidth 8

/-- The kinds of HD44780 command (30_encoding.md R120). -/
inductive CommandKind where
  | clearDisplay
  | returnHome
  | entryModeSet
  | displayControl
  | shift
  | functionSet
  | setCgramAddress
  | setDdramAddress
deriving DecidableEq, Repr

/-- A command byte's kind by its highest set bit (30_encoding.md R120); 0x00 is no command. -/
def CommandKind.ofByte (v : Byte) : Option CommandKind :=
  if v.getLsbD 7 then some .setDdramAddress
  else if v.getLsbD 6 then some .setCgramAddress
  else if v.getLsbD 5 then some .functionSet
  else if v.getLsbD 4 then some .shift
  else if v.getLsbD 3 then some .displayControl
  else if v.getLsbD 2 then some .entryModeSet
  else if v.getLsbD 1 then some .returnHome
  else if v.getLsbD 0 then some .clearDisplay
  else none

/-- `v[7:5] = 0b001` (41_register_access.md R195). -/
def Byte.isFunctionSet (v : Byte) : Bool := v.extractLsb' 5 3 == 0b001#3

/-- `v[7:3] = 0b00001` (41_register_access.md R195). -/
def Byte.isDisplayControl (v : Byte) : Bool := v.extractLsb' 3 5 == 0b00001#5

/-- `v[7:2] = 0b000001` (41_register_access.md R195). -/
def Byte.isEntryMode (v : Byte) : Bool := v.extractLsb' 2 6 == 0b000001#6

/-- The DL bit of a function-set byte, `v[4]` (30_encoding.md R120). -/
def Byte.dlBit (v : Byte) : Bool := v.getLsbD 4

/-- Clear or return home: the command bytes with the long wait (41_register_access.md R188, R190). -/
def Byte.isLong (v : Byte) : Bool := v == 0x01#8 || v == 0x02#8 || v == 0x03#8

/-- `sel = a[1:0]` of GET_STATUS (30_encoding.md R124). -/
def Byte.sel (a : Byte) : BitVec 2 := a.extractLsb' 0 2

/-- `slot = a[2:0]` of CGRAM_SLOT (30_encoding.md R124). -/
def Byte.slot (a : Byte) : Byte := a &&& 0x07#8

/-- The function-set byte `0x20 | DL<<4 | NL<<3 | FF<<2` (42_controller_init.md R227). -/
def Config.functionSetByte (c : Config) : Byte :=
  0x20#8 ||| (Byte.ofBit c.dl <<< 4) ||| (Byte.ofBit c.nl <<< 3) ||| (Byte.ofBit c.ff <<< 2)

/-- `0x08 | dctl` (30_encoding.md R121). -/
def displayControlByte (dctl : BitVec 3) : Byte := 0x08#8 ||| dctl.setWidth 8

/-- `0x04 | entry` (30_encoding.md R121). -/
def entryModeByte (entry : BitVec 2) : Byte := 0x04#8 ||| entry.setWidth 8

/-- The row SET_CURSOR uses: clamped to `[0, LINES - 1]` (43_command_api.md R263). -/
def Config.clampRow (c : Config) (row : Byte) : Nat :=
  if c.lines ≤ row.toNat then c.lines - 1 else row.toNat

/-- The byte SET_CURSOR sends: an 8-bit sum under an 8-bit OR (43_command_api.md R263). -/
def Config.setCursorByte (c : Config) (col row : Byte) : Byte :=
  0x80#8 ||| (col + c.rowOff (c.clampRow row))

/-- The byte CGRAM_SLOT sends (43_command_api.md R264). -/
def cgramSlotByte (a : Byte) : Byte := 0x40#8 ||| (a.slot <<< 3)

end Sys2Proof
end

