-- ==== Sys2Proof/Machine/State.lean ====
section
/-! DEFINITION. The state of the LCDC as plain data (10_state.md), the phases and actions a running request still has to
do, the two other agents' pins and answers, the state after reset (10_state.md R49), and the reasons a step can stop. -/

namespace Sys2Proof.Machine

/-- `ctl`, the Display Controller's state (10_state.md R33). -/
inductive Ctl where
  | uninit
  | powerOn
  | neg0
  | neg1
  | neg2
  | neg3
  | functionSet
  | displayOn
  | clearDisplay
  | entryModeSet
  | ready
deriving DecidableEq, Repr

/-- `dataDirection` (10_state.md R36): Write drives the active lanes, Read releases them. -/
inductive Dir where
  | write
  | read
deriving DecidableEq, Repr

/-- What a phase assigns at its start edge (40_transport.md R151). `rs` is present in the first transfer of a register
access (its setup assignments, 41_register_access.md R180, R183) and absent in its second nibble and in a lone
negotiation transfer. -/
inductive Drive where
  /-- R221: every control line low, the lanes driven with 0. -/
  | powerOn
  /-- Setup of a write transfer of `v` (R153, R180). -/
  | write (rs : Option Bool) (v : Byte)
  /-- Setup of a read transfer (R156, R183). -/
  | read (rs : Option Bool)
  /-- ENABLE high (R152, R156). -/
  | high
  /-- ENABLE low after the pulse (R152, R156). -/
  | low
  /-- A delay: no assignment (R155). -/
  | hold
deriving DecidableEq, Repr

/-- Which bits of the byte being read a sample gives (20_memory.md R85, R86). -/
inductive Part where
  | high
  | low
  | whole
deriving DecidableEq, Repr

/-- What takes no time, between two phases. -/
inductive Act where
  /-- `ctl <- c` (42_controller_init.md R220). -/
  | ctl (c : Ctl)
  /-- `fn <- v` (42_controller_init.md R226). -/
  | fn (v : BitVec 3)
  /-- `dctl <- v` (42_controller_init.md R228). -/
  | dctl (v : BitVec 3)
  /-- `entry <- v` (42_controller_init.md R230). -/
  | entry (v : BitVec 2)
  /-- `rd_keep <- rd_acc` (41_register_access.md R197). -/
  | keep
  /-- `poll_i <- 0` (41_register_access.md R189). -/
  | pollZero
deriving DecidableEq, Repr

/-- Where a response's data byte comes from (30_encoding.md R114). -/
inductive Answer where
  | const (v : Byte)
  | rdAcc
  | rdKeep
  /-- Bit 7 of the byte just read, zero-extended (41_register_access.md R199). -/
  | busyBit
deriving DecidableEq, Repr

/-- One item of a request's phase sequence (10_state.md R45). -/
inductive Item where
  /-- A phase of `n` cycles (40_transport.md R151). -/
  | phase (d : Drive) (n : Nat)
  /-- The sample at the end edge of the phase before (40_transport.md R151, R156). -/
  | sample (p : Part)
  | act (a : Act)
  /-- The exit test of a poll, at the edge that ends a busy/address read (41_register_access.md R189). -/
  | pollTest
  /-- The response (30_encoding.md R113). -/
  | respond (src : Answer)
deriving DecidableEq, Repr

/-- The input pins at the host port, as one edge samples them (10_state.md R30, R32). -/
structure HostPins where
  rst : Bool
  reqValid : Bool
  /-- `req_op`, `req_a`, `req_b` as one word (30_encoding.md R111). -/
  req : Req
deriving DecidableEq, Repr

/-- A host port with nothing on it. -/
def HostPins.quiet : HostPins := { rst := false, reqValid := false, req := 0 }

/-- The whole state. One state is the machine at the end of a clock cycle, with the input levels the next edge samples
(00_scope.md R12). -/
structure State where
  /-- The parameters of 00_scope.md R8, constant for the whole run. -/
  cfg : Config
  ctl : Ctl
  fault : Bool
  dir : Dir
  rs : Bool
  rw : Bool
  e : Bool
  /-- `d_o`, the register behind `lcd_d_o`. -/
  dO : Byte
  /-- `displayFunctionFlags`: bit 2 DL, bit 1 N, bit 0 F (10_state.md R38). -/
  fn : BitVec 3
  /-- `displayControlFlags`: bit 2 D, bit 1 C, bit 0 B (10_state.md R38). -/
  dctl : BitVec 3
  /-- `entryModeFlags`: bit 1 ID, bit 0 S (10_state.md R38). -/
  entry : BitVec 2
  busy : Bool
  op : BitVec 5
  a : Byte
  b : Byte
  cnt : Nat
  pos : List Item
  rdAcc : Byte
  rdKeep : Byte
  pollI : Nat
  tmo : Bool
  rspValid : Bool
  rspStatus : BitVec 3
  rspData : Byte
  /-- The host port's levels at the next edge (log 3). -/
  port : HostPins
  /-- The host port's levels in the cycles after that, one entry a cycle (log 3). -/
  host : List HostPins
  /-- The device's scripted answers, one a sample, the next one first (log 2). -/
  device : List Byte
  /-- How many samples were taken: the index of the next free draw (log 2). -/
  draws : Nat
deriving DecidableEq, Repr

/-- Why a step stops with a fault. -/
inductive Fault where
  /-- Raised by `step` when a request is running and nothing is left for it to do. The spec gives no such state and no
  state that satisfies the invariant is one (log 9). Safe: the model stops where no hardware of the spec can be. -/
  | sequencerLost
deriving DecidableEq, Repr

/-- Why a step is refused. -/
inductive Refusal where
  /-- Kept for `exec`'s arms: an instruction without a meaning. No arm raises it. Safe. -/
  | notModelled (mnemonic : String)
  /-- Raised by `step` alone: the configuration is outside R8's legal values, so it describes no LCDC and has no run
  (00_scope.md R9, U15). Safe. -/
  | illegalConfig
deriving DecidableEq, Repr

/-- The registers of the LCDC at the values of 10_state.md R49, on a board and with the other agents as given. -/
def State.atReset (cfg : Config) (port : HostPins) (host : List HostPins) (device : List Byte) (draws : Nat) : State where
  cfg := cfg
  ctl := .uninit
  fault := false
  dir := .read
  rs := false
  rw := false
  e := false
  dO := 0x00#8
  fn := 0b000#3
  dctl := 0b000#3
  entry := 0b00#2
  busy := false
  op := 0#5
  a := 0x00#8
  b := 0x00#8
  cnt := 0
  pos := []
  rdAcc := 0x00#8
  rdKeep := 0x00#8
  pollI := 0
  tmo := false
  rspValid := false
  rspStatus := 0#3
  rspData := 0x00#8
  port := port
  host := host
  device := device
  draws := draws

/-- Right after reset, on the board of `Config.board`, with a quiet host and an unscripted device (log 1, 2, 3). -/
def State.reset : State := State.atReset Config.board HostPins.quiet [] [] 0

end Sys2Proof.Machine
end

