-- ==== Sys2Proof/Machine/Flags.lean ====
section
/-! DEFINITION. The flags: signals derived from the registers (10_state.md R34, R36, R42), the status codes
(30_encoding.md R114), the mirror fields (10_state.md R38), and the byte GET_STATUS answers (43_command_api.md R267). -/

namespace Sys2Proof.Machine

/-- `initialized`, the derived bit `ctl = READY` (10_state.md R34). -/
def State.initialized (s : State) : Bool := decide (s.ctl = .ready)

/-- `lcd_d_oe` (10_state.md R36). -/
def State.dOe (s : State) : Byte :=
  match s.dir with
  | .write => s.cfg.active
  | .read => 0x00#8

/-- `req_ready`, combinational (10_state.md R42). -/
def State.reqReady (s : State) : Bool := !s.busy && !s.port.rst

/-- A request is in its phases: accepted and not yet answered (30_encoding.md R113). -/
def State.running (s : State) : Bool := s.busy && !s.rspValid

/-- The named response codes (30_encoding.md R114). Code 6 has no name. -/
inductive Status where
  | ok
  | errNotInit
  | errConfig
  | errFaulted
  | errIllegal
  | errReinit
  | okTimeout
deriving DecidableEq, Repr

/-- The three bits of `rsp_status` (30_encoding.md R114). -/
def Status.code : Status → BitVec 3
  | .ok => 0#3
  | .errNotInit => 1#3
  | .errConfig => 2#3
  | .errFaulted => 3#3
  | .errIllegal => 4#3
  | .errReinit => 5#3
  | .okTimeout => 7#3

/-- The status at a request's normal end: OK, or OK_TIMEOUT where a poll reached its ceiling (60_exceptions.md R307). -/
def State.endStatus (s : State) : Status := if s.tmo then .okTimeout else .ok

/-- C, `dctl[1]`, written (10_state.md R38). -/
def withCursor (dctl : BitVec 3) (on : Bool) : BitVec 3 := if on then dctl ||| 0b010#3 else dctl &&& 0b101#3

/-- B, `dctl[0]`, written (10_state.md R38). -/
def withBlink (dctl : BitVec 3) (on : Bool) : BitVec 3 := if on then dctl ||| 0b001#3 else dctl &&& 0b110#3

/-- ID, `entry[1]`, written (10_state.md R38). -/
def withIncrement (entry : BitVec 2) (on : Bool) : BitVec 2 := if on then entry ||| 0b10#2 else entry &&& 0b01#2

/-- S, `entry[0]`, written (10_state.md R38). -/
def withShift (entry : BitVec 2) (on : Bool) : BitVec 2 := if on then entry ||| 0b01#2 else entry &&& 0b10#2

/-- The fields of a function-set byte as the mirror holds them, `v[4:2]` (41_register_access.md R195). -/
def fnOfByte (v : Byte) : BitVec 3 := v.extractLsb' 2 3

/-- The fields of a display-control byte, `v[2:0]` (41_register_access.md R195). -/
def dctlOfByte (v : Byte) : BitVec 3 := v.extractLsb' 0 3

/-- The fields of an entry-mode byte, `v[1:0]` (41_register_access.md R195). -/
def entryOfByte (v : Byte) : BitVec 2 := v.extractLsb' 0 2

/-- The mirror a raw command byte sets, if any (41_register_access.md R195). -/
def State.mirrorCommand (s : State) (v : Byte) : State :=
  if v.isFunctionSet then { s with fn := fnOfByte v }
  else if v.isDisplayControl then { s with dctl := dctlOfByte v }
  else if v.isEntryMode then { s with entry := entryOfByte v }
  else s

/-- One bit in its place. -/
def bitAt (x : Bool) (n : Nat) : Byte := Byte.ofBit x <<< n

/-- The status byte of GET_STATUS 0: dir, RW_WIRED, DL, fault, initialized from bit 4 (43_command_api.md R267). -/
def State.statusByte (s : State) : Byte :=
  bitAt (decide (s.dir = .read)) 4 ||| bitAt s.cfg.rwWired 3 ||| bitAt s.cfg.dl 2 ||| bitAt s.fault 1
    ||| bitAt s.initialized 0

/-- What GET_STATUS answers for each `sel` (43_command_api.md R267). -/
def State.statusAnswer (s : State) (sel : BitVec 2) : Byte :=
  match sel.toNat with
  | 0 => s.statusByte
  | 1 => s.fn.setWidth 8
  | 2 => s.dctl.setWidth 8
  | _ => s.entry.setWidth 8

end Sys2Proof.Machine
end

