-- ==== Sys2Proof/Machine/Transport.lean ====
section
/-! DEFINITION. The phase sequences of the primitives: transfers (40_transport.md R152 to R156), register accesses and
the completion wait (41_register_access.md R180 to R190), as lists of items for `pos`. -/

namespace Sys2Proof.Machine

/-- `WriteXfer(v, w, S)`: the three phases of `pulseEnable` (40_transport.md R152, R153). -/
def writeXfer (c : Config) (rs : Option Bool) (v : Byte) : List Item :=
  [.phase (.write rs v) (c.cycles c.tAsNs), .phase .high (c.cycles c.tPwNs), .phase .low (c.cycles c.tSettleNs)]

/-- `ReadXfer(w, S)`, with the sample at the end edge of the ENABLE-high phase (40_transport.md R156). -/
def readXfer (c : Config) (rs : Option Bool) (p : Part) : List Item :=
  [.phase (.read rs) (c.cycles c.tAsNs), .phase .high (c.cycles c.tRdEhNs), .sample p,
    .phase .low (c.cycles c.tRdRecNs)]

/-- `Delay(t)` (40_transport.md R155). -/
def delay (c : Config) (t : Nat) : List Item := [.phase .hold (c.cycles t)]

/-- `MemWrite(rs, 1, v)` (41_register_access.md R180, 30_encoding.md R117). -/
def memWrite (c : Config) (rs : Bool) (v : Byte) : List Item :=
  match c.busWidth with
  | .four => writeXfer c (some rs) v.hi ++ writeXfer c none v.lo
  | .eight => writeXfer c (some rs) v

/-- `MemRead(rs, 1)` (41_register_access.md R183, 30_encoding.md R118). -/
def memRead (c : Config) (rs : Bool) : List Item :=
  match c.busWidth with
  | .four => readXfer c (some rs) .high ++ readXfer c none .low
  | .eight => readXfer c (some rs) .whole

/-- `Poll()` up to its first exit test (41_register_access.md R189); a failed test reads again (`State.advance`). -/
def poll (c : Config) : List Item := .act .pollZero :: (memRead c false ++ [.pollTest])

/-- `CompletionWait(kind, v)` (41_register_access.md R188); `long` says that `kind` is `cmd` and `v` is clear or home. -/
def completionWait (c : Config) (long : Bool) : List Item :=
  if c.rwWired then poll c
  else if long then delay c c.tLongNs
  else []

/-- A command write with its completion wait (43_command_api.md R250). -/
def commandItems (c : Config) (v : Byte) : List Item := memWrite c false v ++ completionWait c v.isLong

/-- A data write with its completion wait (41_register_access.md R196). -/
def dataItems (c : Config) (v : Byte) : List Item := memWrite c true v ++ completionWait c false

end Sys2Proof.Machine
end

