-- ==== Sys2Proof/Machine/Ops.lean ====
section
/-! DEFINITION. The shared operations on the state: what a phase assigns, samples, acts, the response and the rejection
of a request (the LCDC's only exception entry) with its return, the sequencer, and the edges of the clock. -/

namespace Sys2Proof.Machine

/-- `d_o[w-1:0] <- v[w-1:0]`; lanes outside `ACTIVE` are not written (40_transport.md R153). -/
def State.setLanes (s : State) (v : Byte) : State :=
  { s with dO := (s.dO &&& ~~~ s.cfg.active) ||| (v &&& s.cfg.active) }

/-- The setup assignments of a register write (41_register_access.md R180): RS, RW low where it is wired, lanes out. -/
def State.setupWrite (s : State) (rs : Bool) : State :=
  { s with rs := rs, rw := if s.cfg.rwWired then false else s.rw, dir := .write }

/-- The setup assignments of a register read (41_register_access.md R183): RW high, RS, lanes released. -/
def State.setupRead (s : State) (rs : Bool) : State :=
  { s with rw := true, rs := rs, dir := .read }

/-- What a phase assigns at its start edge. -/
def State.drive (s : State) : Drive → State
  | .powerOn => { s with rs := false, rw := false, e := false, dO := 0x00#8, dir := .write }
  | .write (some rs) v => { (s.setupWrite rs).setLanes v with e := false }
  | .write none v => { s.setLanes v with e := false }
  | .read (some rs) => { s.setupRead rs with e := false }
  | .read none => { s with e := false }
  | .high => { s with e := true }
  | .low => { s with e := false }
  | .hold => s

/-- The value on `lcd_d_i`: the device's next scripted answer, or a free draw of the oracle (00_scope.md R7). -/
def State.lcdDI (s : State) : Byte :=
  match s.device with
  | v :: _ => v
  | [] => Config.deviceDraw s.draws

/-- The bits a sample puts in `rd_acc`: the first nibble is bits 7..4, the second bits 3..0 (20_memory.md R86). Lanes
outside `ACTIVE` are never read (40_transport.md R156). That `rd_acc` takes each nibble at its sample edge: log 5. -/
def sampleInto (acc v : Byte) : Part → Byte
  | .high => (v.lo <<< 4) ||| acc.lo
  | .low => (acc &&& 0xF0#8) ||| v.lo
  | .whole => v

/-- A sample edge (40_transport.md R156). -/
def State.sample (s : State) (p : Part) : State :=
  { s with rdAcc := sampleInto s.rdAcc s.lcdDI p, device := s.device.tail, draws := s.draws + 1 }

/-- An action between phases. -/
def State.act (s : State) : Act → State
  | .ctl c => { s with ctl := c }
  | .fn v => { s with fn := v }
  | .dctl v => { s with dctl := v }
  | .entry v => { s with entry := v }
  | .keep => { s with rdKeep := s.rdAcc }
  | .pollZero => { s with pollI := 0 }

/-- The byte of a response. -/
def State.answerByte (s : State) : Answer → Byte
  | .const v => v
  | .rdAcc => s.rdAcc
  | .rdKeep => s.rdKeep
  | .busyBit => Byte.ofBit (s.rdAcc.getLsbD 7)

/-- `respond(status, data)`: the response is raised at this edge and the phase sequence is over (30_encoding.md R113). -/
def State.respond (s : State) (st : Status) (data : Byte) : State :=
  { s with rspValid := true, rspStatus := st.code, rspData := data, cnt := 0, pos := [] }

/-- `raise Error(code)`, the one way a request is rejected (60_exceptions.md R300, R310): the status, data 0x00, the
response at the accepting edge, and nothing else saved. -/
def State.raiseError (s : State) (st : Status) : State := s.respond st 0x00#8

/-- ERR_CONFIG (60_exceptions.md R303): the one error that leaves a mark, the sticky `fault`. -/
def State.raiseConfigError (s : State) : State := { s with fault := true }.raiseError .errConfig

/-- The edge after a response (30_encoding.md R113): the request ends. It is all there is of a return from an error
(60_exceptions.md R311). -/
def State.retire (s : State) : State := { s with rspValid := false, busy := false }

/-- The latch at the accepting edge (30_encoding.md R113, 10_state.md R43). A rejected request is latched too: log 6. -/
def State.latch (s : State) (op : BitVec 5) (a b : Byte) : State :=
  { s with busy := true, tmo := false, op := op, a := a, b := b }

/-- A phase begins: its assignments take effect and `cnt` holds its cycles (40_transport.md R151). -/
def State.startPhase (s : State) (d : Drive) (n : Nat) (rest : List Item) : State :=
  { s.drive d with cnt := n, pos := rest }

/-- `poll_i <- poll_i + 1`: one more busy/address read is done (41_register_access.md R189). -/
def State.countPoll (s : State) : State := { s with pollI := s.pollI + 1 }

/-- `tmo <- 1`: a poll reached its ceiling (41_register_access.md R189). -/
def State.timeOut (s : State) : State := { s with tmo := true }

/-- The next busy/address read of a poll starts at the edge where the last one ended (41_register_access.md R189). -/
def State.pollAgain (s : State) (rest : List Item) : State :=
  match memRead s.cfg false ++ .pollTest :: rest with
  | .phase d n :: r => s.startPhase d n r
  | r => { s with cnt := 0, pos := r }

/-- The sequencer at the end edge of a phase, or at the accepting edge: all that happens at this edge, up to the next
phase's start or the response. Phases follow each other with no gap (40_transport.md R151). -/
def State.advance : List Item → State → State
  | [], s => { s with cnt := 0, pos := [] }
  | .phase d n :: rest, s => s.startPhase d n rest
  | .sample p :: rest, s => State.advance rest (s.sample p)
  | .act a :: rest, s => State.advance rest (s.act a)
  | .pollTest :: rest, s =>
    if s.rdAcc.getLsbD 7 = false then State.advance rest s.countPoll
    else if s.countPoll.pollI = s.cfg.pollMax then State.advance rest s.countPoll.timeOut
    else s.countPoll.pollAgain rest
  | .respond src :: _, s => s.respond s.endStatus (s.answerByte src)

/-- A request that passed its checks runs: its first phase starts at the accepting edge (30_encoding.md R113). -/
def State.start (s : State) (items : List Item) : State := State.advance items s

/-- The checks every request but GET_STATUS, INIT and the reserved ones shares (60_exceptions.md R301). -/
def State.whenReady (s : State) (run : State → State) : State :=
  if s.fault then s.raiseError .errFaulted
  else if s.ctl ≠ .ready then s.raiseError .errNotInit
  else run s

/-- `CmdOp(mutation, v)` after its checks and its mutation (43_command_api.md R250). -/
def State.runCommand (s : State) (v : Byte) : State :=
  s.start (commandItems s.cfg v ++ [.respond (.const 0x00#8)])

/-- The host port's levels after this edge: the script's, or, where it is empty, `rst` low and a request held until it
is accepted (70_reset_and_hazards.md R346; log 3). -/
def State.nextPort (s : State) (accepted : Bool) : HostPins :=
  match s.host with
  | p :: _ => p
  | [] => { s.port with rst := false, reqValid := s.port.reqValid && !accepted }

/-- The host moves on by one cycle (log 3). -/
def State.hostMoves (s : State) (accepted : Bool) : State :=
  { s with port := s.nextPort accepted, host := s.host.tail }

/-- An edge where `rst` is sampled high (70_reset_and_hazards.md R330): every register takes its reset value, whatever
was running. The configuration and the device are not reset (R331). -/
def State.resetEdge (s : State) : State :=
  let h := s.hostMoves false
  State.atReset s.cfg h.port h.host s.device s.draws

/-- An edge inside a running request: the phase goes on, or it ends and the sequencer advances. -/
def State.runEdge (s : State) : State :=
  let h := s.hostMoves false
  if 1 < s.cnt then { h with cnt := s.cnt - 1 } else State.advance s.pos h

/-- An accepting edge, before the request's own effect: a standing response is retired (log 4). -/
def State.acceptEdge (s : State) : State := s.retire.hostMoves true

/-- An edge at which no request runs and none is presented. -/
def State.idleEdge (s : State) : State := s.retire.hostMoves false

end Sys2Proof.Machine
end

