-- ==== Sys2Proof/Machine/CommandRequests.lean ====
section
/-! DEFINITION. The command requests: a mirror mutation, one command write, its completion wait
(43_command_api.md R250 to R264). -/

namespace Sys2Proof.Machine

/-- CLEAR: no mirror changes (43_command_api.md R252). -/
def execClear (a b : Byte) (s : State) : Host.Outcome State Fault Refusal :=
  .next ((s.latch 0x07#5 a b).whenReady fun l => l.runCommand 0x01#8)

/-- HOME (43_command_api.md R251). -/
def execHome (a b : Byte) (s : State) : Host.Outcome State Fault Refusal :=
  .next ((s.latch 0x08#5 a b).whenReady fun l => l.runCommand 0x02#8)

/-- CURSOR_ON (43_command_api.md R253). -/
def execCursorOn (a b : Byte) (s : State) : Host.Outcome State Fault Refusal :=
  .next ((s.latch 0x09#5 a b).whenReady fun l =>
    { l with dctl := withCursor l.dctl true }.runCommand (displayControlByte (withCursor l.dctl true)))

/-- CURSOR_OFF (43_command_api.md R254). -/
def execCursorOff (a b : Byte) (s : State) : Host.Outcome State Fault Refusal :=
  .next ((s.latch 0x0A#5 a b).whenReady fun l =>
    { l with dctl := withCursor l.dctl false }.runCommand (displayControlByte (withCursor l.dctl false)))

/-- BLINK_ON (43_command_api.md R255). -/
def execBlinkOn (a b : Byte) (s : State) : Host.Outcome State Fault Refusal :=
  .next ((s.latch 0x0B#5 a b).whenReady fun l =>
    { l with dctl := withBlink l.dctl true }.runCommand (displayControlByte (withBlink l.dctl true)))

/-- BLINK_OFF (43_command_api.md R256). -/
def execBlinkOff (a b : Byte) (s : State) : Host.Outcome State Fault Refusal :=
  .next ((s.latch 0x0C#5 a b).whenReady fun l =>
    { l with dctl := withBlink l.dctl false }.runCommand (displayControlByte (withBlink l.dctl false)))

/-- SCROLL_LEFT: shift with SC = 1, RL = 0 (43_command_api.md R257). -/
def execScrollLeft (a b : Byte) (s : State) : Host.Outcome State Fault Refusal :=
  .next ((s.latch 0x0D#5 a b).whenReady fun l => l.runCommand 0x18#8)

/-- SCROLL_RIGHT: shift with SC = 1, RL = 1 (43_command_api.md R258). -/
def execScrollRight (a b : Byte) (s : State) : Host.Outcome State Fault Refusal :=
  .next ((s.latch 0x0E#5 a b).whenReady fun l => l.runCommand 0x1C#8)

/-- ENTRY_LTR (43_command_api.md R259). -/
def execEntryLtr (a b : Byte) (s : State) : Host.Outcome State Fault Refusal :=
  .next ((s.latch 0x0F#5 a b).whenReady fun l =>
    { l with entry := withIncrement l.entry true }.runCommand (entryModeByte (withIncrement l.entry true)))

/-- ENTRY_RTL (43_command_api.md R260). -/
def execEntryRtl (a b : Byte) (s : State) : Host.Outcome State Fault Refusal :=
  .next ((s.latch 0x10#5 a b).whenReady fun l =>
    { l with entry := withIncrement l.entry false }.runCommand (entryModeByte (withIncrement l.entry false)))

/-- AUTOSCROLL_ON (43_command_api.md R261). -/
def execAutoscrollOn (a b : Byte) (s : State) : Host.Outcome State Fault Refusal :=
  .next ((s.latch 0x11#5 a b).whenReady fun l =>
    { l with entry := withShift l.entry true }.runCommand (entryModeByte (withShift l.entry true)))

/-- AUTOSCROLL_OFF (43_command_api.md R262). -/
def execAutoscrollOff (a b : Byte) (s : State) : Host.Outcome State Fault Refusal :=
  .next ((s.latch 0x12#5 a b).whenReady fun l =>
    { l with entry := withShift l.entry false }.runCommand (entryModeByte (withShift l.entry false)))

/-- SET_CURSOR (43_command_api.md R263). -/
def execSetCursor (a b : Byte) (s : State) : Host.Outcome State Fault Refusal :=
  .next ((s.latch 0x13#5 a b).whenReady fun l => l.runCommand (l.cfg.setCursorByte a b))

/-- CGRAM_SLOT (43_command_api.md R264). -/
def execCgramSlot (a b : Byte) (s : State) : Host.Outcome State Fault Refusal :=
  .next ((s.latch 0x14#5 a b).whenReady fun l => l.runCommand (cgramSlotByte a))

end Sys2Proof.Machine
end

