-- ==== Sys2Proof/Machine/InitRequest.lean ====
section
/-! DEFINITION. INIT: the power-on sequence (42_controller_init.md R220 to R231). -/

namespace Sys2Proof.Machine

/-- POWER_ON (42_controller_init.md R221). -/
def powerOnStep (c : Config) : List Item := [.act (.ctl .powerOn), .phase .powerOn (c.cycles c.tPowerOnNs)]

/-- BusWidthNegotiation: R222 with a 4-bit bus, R223 with an 8-bit bus. Its transfers are no register accesses and take
no completion wait (42_controller_init.md R225). -/
def negotiate (c : Config) : List Item :=
  match c.busWidth with
  | .four =>
    .act (.ctl .neg0) :: (writeXfer c none 0x03#8 ++ delay c c.tNeg1Ns)
      ++ .act (.ctl .neg1) :: (writeXfer c none 0x03#8 ++ delay c c.tNeg2Ns)
      ++ .act (.ctl .neg2) :: (writeXfer c none 0x03#8 ++ delay c c.tNeg3Ns)
      ++ .act (.ctl .neg3) :: writeXfer c none 0x02#8
  | .eight =>
    .act (.ctl .neg0) :: (writeXfer c none c.functionSetByte ++ delay c c.tNeg1Ns)
      ++ .act (.ctl .neg1) :: (writeXfer c none c.functionSetByte ++ delay c c.tNeg2Ns)
      ++ .act (.ctl .neg2) :: (writeXfer c none c.functionSetByte ++ delay c c.tNeg3Ns)

/-- FUNCTION_SET (42_controller_init.md R226). -/
def functionSetStep (c : Config) : List Item :=
  .act (.ctl .functionSet) :: .act (.fn (fnOfByte c.functionSetByte)) :: commandItems c c.functionSetByte

/-- DISPLAY_ON (42_controller_init.md R228). -/
def displayOnStep (c : Config) : List Item :=
  .act (.ctl .displayOn) :: .act (.dctl 0b100#3) :: commandItems c (displayControlByte 0b100#3)

/-- CLEAR_DISPLAY (42_controller_init.md R229). -/
def clearStep (c : Config) : List Item := .act (.ctl .clearDisplay) :: commandItems c 0x01#8

/-- ENTRY_MODE_SET (42_controller_init.md R230). -/
def entryModeStep (c : Config) : List Item :=
  .act (.ctl .entryModeSet) :: .act (.entry 0b10#2) :: commandItems c (entryModeByte 0b10#2)

/-- The whole sequence; READY and the response come at one edge (42_controller_init.md R220, R231). -/
def initItems (c : Config) : List Item :=
  powerOnStep c ++ negotiate c ++ functionSetStep c ++ displayOnStep c ++ clearStep c ++ entryModeStep c
    ++ [.act (.ctl .ready), .respond (.const 0x00#8)]

/-- INIT, with its own checks in R301's order: the one request that runs before READY (60_exceptions.md R301). -/
def execInit (a b : Byte) (s : State) : Host.Outcome State Fault Refusal :=
  let l := s.latch 0x01#5 a b
  .next (if l.fault then l.raiseError .errFaulted
    else if l.ctl = .ready then l.raiseError .errReinit
    else l.start (initItems l.cfg))

end Sys2Proof.Machine
end

