-- ==== Sys2Proof/Machine/RegisterRequests.lean ====
section
/-! DEFINITION. The five requests that reach the device's registers directly (41_register_access.md R195 to R199). -/

namespace Sys2Proof.Machine

/-- WRITE_CMD (41_register_access.md R195): a function set that would change the bus width is refused before any phase;
else the byte's mirror is written at the accepting edge and the byte is sent. -/
def execWriteCmd (a b : Byte) (s : State) : Host.Outcome State Fault Refusal :=
  .next ((s.latch 0x02#5 a b).whenReady fun l =>
    if a.isFunctionSet && (a.dlBit != l.cfg.dl) then l.raiseError .errIllegal
    else (l.mirrorCommand a).runCommand a)

/-- WRITE_DATA (41_register_access.md R196). -/
def execWriteData (a b : Byte) (s : State) : Host.Outcome State Fault Refusal :=
  .next ((s.latch 0x03#5 a b).whenReady fun l =>
    l.start (dataItems l.cfg a ++ [.respond (.const 0x00#8)]))

/-- READ_DATA (41_register_access.md R197): fatal without RW; else the byte read is kept over the completion wait. -/
def execReadData (a b : Byte) (s : State) : Host.Outcome State Fault Refusal :=
  .next ((s.latch 0x04#5 a b).whenReady fun l =>
    if l.cfg.rwWired then
      l.start (memRead l.cfg true ++ .act .keep :: completionWait l.cfg false ++ [.respond .rdKeep])
    else l.raiseConfigError)

/-- READ_AB (41_register_access.md R198): no completion wait. -/
def execReadAb (a b : Byte) (s : State) : Host.Outcome State Fault Refusal :=
  .next ((s.latch 0x05#5 a b).whenReady fun l =>
    if l.cfg.rwWired then l.start (memRead l.cfg false ++ [.respond .rdAcc])
    else l.raiseConfigError)

/-- IS_BUSY (41_register_access.md R199): without RW it answers "still busy" and makes no bus access. -/
def execIsBusy (a b : Byte) (s : State) : Host.Outcome State Fault Refusal :=
  .next ((s.latch 0x06#5 a b).whenReady fun l =>
    if l.cfg.rwWired then l.start (memRead l.cfg false ++ [.respond .busyBit])
    else l.start [.respond (.const 0x01#8)])

end Sys2Proof.Machine
end

