-- ==== Sys2Proof/Machine/ReservedRequests.lean ====
section
/-! DEFINITION. The eleven reserved opcodes 0x15 to 0x1F: each is rejected with ERR_ILLEGAL at its accepting edge,
before every other check (30_encoding.md R115, 60_exceptions.md R301, R302). -/

namespace Sys2Proof.Machine

/-- RESERVED_15 (30_encoding.md R115). -/
def execReserved15 (a b : Byte) (s : State) : Host.Outcome State Fault Refusal :=
  .next ((s.latch 0x15#5 a b).raiseError .errIllegal)

/-- RESERVED_16 (30_encoding.md R115). -/
def execReserved16 (a b : Byte) (s : State) : Host.Outcome State Fault Refusal :=
  .next ((s.latch 0x16#5 a b).raiseError .errIllegal)

/-- RESERVED_17 (30_encoding.md R115). -/
def execReserved17 (a b : Byte) (s : State) : Host.Outcome State Fault Refusal :=
  .next ((s.latch 0x17#5 a b).raiseError .errIllegal)

/-- RESERVED_18 (30_encoding.md R115). -/
def execReserved18 (a b : Byte) (s : State) : Host.Outcome State Fault Refusal :=
  .next ((s.latch 0x18#5 a b).raiseError .errIllegal)

/-- RESERVED_19 (30_encoding.md R115). -/
def execReserved19 (a b : Byte) (s : State) : Host.Outcome State Fault Refusal :=
  .next ((s.latch 0x19#5 a b).raiseError .errIllegal)

/-- RESERVED_1A (30_encoding.md R115). -/
def execReserved1A (a b : Byte) (s : State) : Host.Outcome State Fault Refusal :=
  .next ((s.latch 0x1A#5 a b).raiseError .errIllegal)

/-- RESERVED_1B (30_encoding.md R115). -/
def execReserved1B (a b : Byte) (s : State) : Host.Outcome State Fault Refusal :=
  .next ((s.latch 0x1B#5 a b).raiseError .errIllegal)

/-- RESERVED_1C (30_encoding.md R115). -/
def execReserved1C (a b : Byte) (s : State) : Host.Outcome State Fault Refusal :=
  .next ((s.latch 0x1C#5 a b).raiseError .errIllegal)

/-- RESERVED_1D (30_encoding.md R115). -/
def execReserved1D (a b : Byte) (s : State) : Host.Outcome State Fault Refusal :=
  .next ((s.latch 0x1D#5 a b).raiseError .errIllegal)

/-- RESERVED_1E (30_encoding.md R115). -/
def execReserved1E (a b : Byte) (s : State) : Host.Outcome State Fault Refusal :=
  .next ((s.latch 0x1E#5 a b).raiseError .errIllegal)

/-- RESERVED_1F (30_encoding.md R115). -/
def execReserved1F (a b : Byte) (s : State) : Host.Outcome State Fault Refusal :=
  .next ((s.latch 0x1F#5 a b).raiseError .errIllegal)

end Sys2Proof.Machine
end

