-- ==== Sys2Proof/Machine/StatusRequest.lean ====
section
/-! DEFINITION. GET_STATUS (43_command_api.md R267). -/

namespace Sys2Proof.Machine

/-- GET_STATUS: no check but the opcode's, T = 0, no bus activity (43_command_api.md R267, 60_exceptions.md R301). -/
def execGetStatus (a b : Byte) (s : State) : Host.Outcome State Fault Refusal :=
  .next ((s.latch 0x00#5 a b).start [.respond (.const (s.statusAnswer a.sel))])

end Sys2Proof.Machine
end

