-- ==== Sys2Proof/Machine/Dispatch.lean ====
section
/-! DEFINITION. The dispatch of a decoded request to its meaning, one arm per row of the opcode table. -/

namespace Sys2Proof.Machine

def exec (i : Instr) (s : State) : Host.Outcome State Fault Refusal :=
  match i with
  | .getStatus a b => Sys2Proof.Machine.execGetStatus a b s
  | .init a b => Sys2Proof.Machine.execInit a b s
  | .writeCmd a b => Sys2Proof.Machine.execWriteCmd a b s
  | .writeData a b => Sys2Proof.Machine.execWriteData a b s
  | .readData a b => Sys2Proof.Machine.execReadData a b s
  | .readAb a b => Sys2Proof.Machine.execReadAb a b s
  | .isBusy a b => Sys2Proof.Machine.execIsBusy a b s
  | .clear a b => Sys2Proof.Machine.execClear a b s
  | .home a b => Sys2Proof.Machine.execHome a b s
  | .cursorOn a b => Sys2Proof.Machine.execCursorOn a b s
  | .cursorOff a b => Sys2Proof.Machine.execCursorOff a b s
  | .blinkOn a b => Sys2Proof.Machine.execBlinkOn a b s
  | .blinkOff a b => Sys2Proof.Machine.execBlinkOff a b s
  | .scrollLeft a b => Sys2Proof.Machine.execScrollLeft a b s
  | .scrollRight a b => Sys2Proof.Machine.execScrollRight a b s
  | .entryLtr a b => Sys2Proof.Machine.execEntryLtr a b s
  | .entryRtl a b => Sys2Proof.Machine.execEntryRtl a b s
  | .autoscrollOn a b => Sys2Proof.Machine.execAutoscrollOn a b s
  | .autoscrollOff a b => Sys2Proof.Machine.execAutoscrollOff a b s
  | .setCursor a b => Sys2Proof.Machine.execSetCursor a b s
  | .cgramSlot a b => Sys2Proof.Machine.execCgramSlot a b s
  | .reserved15 a b => Sys2Proof.Machine.execReserved15 a b s
  | .reserved16 a b => Sys2Proof.Machine.execReserved16 a b s
  | .reserved17 a b => Sys2Proof.Machine.execReserved17 a b s
  | .reserved18 a b => Sys2Proof.Machine.execReserved18 a b s
  | .reserved19 a b => Sys2Proof.Machine.execReserved19 a b s
  | .reserved1A a b => Sys2Proof.Machine.execReserved1A a b s
  | .reserved1B a b => Sys2Proof.Machine.execReserved1B a b s
  | .reserved1C a b => Sys2Proof.Machine.execReserved1C a b s
  | .reserved1D a b => Sys2Proof.Machine.execReserved1D a b s
  | .reserved1E a b => Sys2Proof.Machine.execReserved1E a b s
  | .reserved1F a b => Sys2Proof.Machine.execReserved1F a b s

end Sys2Proof.Machine
end

