-- ==== Sys2Proof/Machine/Step.lean ====
section
/-! DEFINITION. One step: one rising edge of the clock (00_scope.md R7, R12), and the placing of a request word where
the next step takes it. -/

namespace Sys2Proof.Machine

/-- One edge. `rst` wins over everything (60_exceptions.md R313); a running request goes on; else a presented request is
accepted and its meaning runs (30_encoding.md R113); else the LCDC holds (40_transport.md R157). A configuration outside
the legal values has no run (00_scope.md R9). -/
def step (s : State) : Host.Outcome State Fault Refusal :=
  if s.cfg.legal then
    if s.port.rst then .next s.resetEdge
    else if s.running then
      match s.pos with
      | [] => .fault .sequencerLost
      | _ :: _ => .next s.runEdge
    else if s.port.reqValid then exec (decodeReq s.port.req) s.acceptEdge
    else .next s.idleEdge
  else .refused .illegalConfig

/-- `s` with the low `nbits` bits of `w` presented as a request at the next edge, no reset and no other request in its
way (log 7). A number that is no 21-bit word presents nothing: there are no lines to put it on. -/
def State.withFetchWord (s : State) (nbits w : Nat) : State :=
  let n := w % 2 ^ nbits
  { s with
    busy := false
    rspValid := false
    cnt := 0
    pos := []
    port := { rst := false, reqValid := decide (n < 2 ^ 21), req := BitVec.ofNat 21 n } }

end Sys2Proof.Machine
end

