-- ==== Sys2Proof/WellFormed.lean ====
section
/-! DEFINITION. What is well formed. A decoded request always is: its operands are bytes by type and no operand value is
ever rejected (30_encoding.md R116). The checks are on what is written: a source line (30_encoding.md R126, R127) and a
configuration (00_scope.md R8, R9). -/

namespace Sys2Proof

/-- Each operand "must fit in 8 bits" (30_encoding.md R126). -/
abbrev FitsByte (n : Nat) : Prop := n < 2 ^ 8

/-- A source line that can be assembled: a request of R112 with at most two operands, each of 8 bits; a text of bytes; a
slot and exactly eight bitmap rows of 8 bits. -/
def SourceLine.wellFormed : SourceLine → Bool
  | .request op operands =>
    decide (op ≤ 0x14) && decide (operands.length ≤ 2) && operands.all fun n => decide (FitsByte n)
  | .print text => text.all fun n => decide (FitsByte n)
  | .createChar slot rows =>
    decide (FitsByte slot) && decide (rows.length = 8) && rows.all fun n => decide (FitsByte n)

/-- A configuration that describes an LCDC (00_scope.md R9). -/
abbrev Config.WellFormed (c : Config) : Prop := c.legal = true

end Sys2Proof
end

