-- ==== Sys2Proof/Machine/Assembler.lean ====
section
/-! DEFINITION. The request assembler (30_encoding.md R126) and the expansion of the pseudo-instructions (R127): from text
to source lines to request words. It is host-side: the LCDC sees only the words. -/

namespace Sys2Proof

/-- One request's word, `op<<16 | a<<8 | b` (30_encoding.md R126). -/
def requestWord (op a b : Nat) : Req := BitVec.ofNat 21 (op <<< 16 ||| a <<< 8 ||| b)

/-- WRITE_DATA of a byte, the step of both pseudo-instructions (30_encoding.md R127). -/
def writeDataWord (v : Nat) : Req := requestWord 0x03 v 0

/-- The request words of a well-formed source line, in order. Omitted operands are 0 (30_encoding.md R126); PRINT sends
its bytes first byte first and nothing for the empty text, CREATE_CHAR the slot and then its rows (R127). -/
def SourceLine.assemble (l : SourceLine) : Option (List Req) :=
  if l.wellFormed then
    match l with
    | .request op operands => some [requestWord op (operands.getD 0 0) (operands.getD 1 0)]
    | .print text => some (text.map writeDataWord)
    | .createChar slot rows => some (requestWord 0x14 slot 0 :: rows.map writeDataWord)
  else none

/-- The mnemonics of R112, in opcode order. -/
def mnemonics : List (List Char) :=
  ["GET_STATUS", "INIT", "WRITE_CMD", "WRITE_DATA", "READ_DATA", "READ_AB", "IS_BUSY", "CLEAR", "HOME", "CURSOR_ON",
    "CURSOR_OFF", "BLINK_ON", "BLINK_OFF", "SCROLL_LEFT", "SCROLL_RIGHT", "ENTRY_LTR", "ENTRY_RTL", "AUTOSCROLL_ON",
    "AUTOSCROLL_OFF", "SET_CURSOR", "CGRAM_SLOT"].map String.toList

/-- The pieces of a line of assembly text. -/
inductive Token where
  | word (cs : List Char)
  | number (n : Nat)
  | text (bytes : List Nat)
  | comma
deriving DecidableEq, Repr

/-- A digit of base 16, with its value. -/
def hexDigit (c : Char) : Option Nat :=
  if '0' ≤ c ∧ c ≤ '9' then some (c.toNat - '0'.toNat)
  else if 'a' ≤ c ∧ c ≤ 'f' then some (c.toNat - 'a'.toNat + 10)
  else if 'A' ≤ c ∧ c ≤ 'F' then some (c.toNat - 'A'.toNat + 10)
  else none

/-- The value of digits in a base, most significant first, added to what stands before them. -/
def digitsValue (base : Nat) : Nat → List Char → Option Nat
  | n, [] => some n
  | n, c :: cs =>
    match hexDigit c with
    | some d => if d < base then digitsValue base (n * base + d) cs else none
    | none => none

/-- A decimal number, or a hexadecimal one after `0x` (30_encoding.md R126); any other word is no number. -/
def wordToken (cs : List Char) : Token :=
  let value := match cs with
    | '0' :: 'x' :: d :: ds => digitsValue 16 0 (d :: ds)
    | c :: cs => digitsValue 10 0 (c :: cs)
    | [] => none
  match value with
  | some n => .number n
  | none => .word cs

/-- Where the reader of a line stands: between pieces, inside a word, inside a quoted text (both held back to front). -/
inductive ReadMode where
  | between
  | inWord (acc : List Char)
  | inText (acc : List Nat)
deriving DecidableEq, Repr

/-- The pieces that end where a word ends. -/
def ReadMode.flush : ReadMode → List Token
  | .inWord acc => [wordToken acc.reverse]
  | _ => []

/-- The pieces of a line: words apart by spaces and commas, `'c'` for a character's ASCII code, `"…"` for the bytes of a
text, and `;` for a comment to the end of the line (30_encoding.md R126, R127). What R126 leaves open: log 8. -/
def tokens : ReadMode → List Char → Option (List Token)
  | .inText _, [] => none
  | .inText acc, '"' :: cs => (tokens .between cs).map (.text acc.reverse :: ·)
  | .inText acc, c :: cs => if c.toNat < 256 then tokens (.inText (c.toNat :: acc)) cs else none
  | m, [] => some m.flush
  | m, ';' :: _ => some m.flush
  | m, ' ' :: cs => (tokens .between cs).map (m.flush ++ ·)
  | m, '\t' :: cs => (tokens .between cs).map (m.flush ++ ·)
  | m, ',' :: cs => (tokens .between cs).map (m.flush ++ .comma :: ·)
  | .between, '"' :: cs => tokens (.inText []) cs
  | .between, '\'' :: c :: '\'' :: cs =>
    if c.toNat < 128 then (tokens .between cs).map (.number c.toNat :: ·) else none
  | .between, c :: cs => tokens (.inWord [c]) cs
  | .inWord acc, c :: cs => tokens (.inWord (c :: acc)) cs

/-- Numbers apart by commas, at least one. -/
def numberList : List Token → Option (List Nat)
  | [.number n] => some [n]
  | .number n :: .comma :: rest => (numberList rest).map (n :: ·)
  | _ => none

/-- The source line of a line of text; a line of nothing but white space and a comment is none (30_encoding.md R126). -/
def parseTokens : List Token → Option (List SourceLine)
  | [] => some []
  | .word m :: rest =>
    if m = "PRINT".toList then
      match rest with
      | [.text t] => some [.print t]
      | _ => none
    else if m = "CREATE_CHAR".toList then
      match numberList rest with
      | some (slot :: rows) => some [.createChar slot rows]
      | _ => none
    else
      match mnemonics.findIdx? (· = m), rest with
      | some op, [] => some [.request op []]
      | some op, rest => (numberList rest).map fun ns => [.request op ns]
      | none, _ => none
  | _ => none

/-- A line of assembly text to its request words: none where the line is not in the language. -/
def assembleLine (cs : List Char) : Option (List Req) :=
  match (tokens .between cs).bind parseTokens with
  | some [] => some []
  | some (l :: _) => l.assemble
  | none => none

/-- A program: one line after another (30_encoding.md R126). -/
def assembleProgram : List (List Char) → Option (List Req)
  | [] => some []
  | l :: ls =>
    match assembleLine l, assembleProgram ls with
    | some ws, some rest => some (ws ++ rest)
    | _, _ => none

end Sys2Proof
end

