-- ==== Sys2Proof/Machine/Requests.lean ====
section
/-! DEFINITION. The machine over many edges: a run of steps, the transfers the device sees on the bus, the request as one
course from its accepting edge to its response (20_memory.md R91: to the host a request is atomic), and the host that
issues a list of requests, each after the previous response (30_encoding.md R127). -/

namespace Sys2Proof.Machine

/-- `n` edges, stopping at the first fault or refusal. -/
def run : Nat → State → Host.Outcome State Fault Refusal
  | 0, s => .next s
  | n + 1, s =>
    match step s with
    | .next t => run n t
    | .fault r => .fault r
    | .refused r => .refused r

/-- One transfer as the device sees it when ENABLE rises: RS, RW, the lanes that are driven and what is on them
(40_transport.md R158, 20_memory.md R81). -/
structure Transfer where
  rs : Bool
  rw : Bool
  oe : Byte
  lanes : Byte
deriving DecidableEq, Repr

/-- The pins as a transfer. A lane that is not driven shows 0 (U25: its register is not on the bus). -/
def State.transfer (s : State) : Transfer :=
  { rs := s.rs, rw := s.rw, oe := s.dOe, lanes := s.dO &&& s.dOe }

/-- The transfer that starts between two states one edge apart: at a rise of ENABLE (40_transport.md R158). -/
def pulseBetween (s t : State) : List Transfer := if !s.e && t.e then [t.transfer] else []

/-- The transfers of the next `n` edges, in order. -/
def transfers : Nat → State → List Transfer
  | 0, _ => []
  | n + 1, s =>
    match step s with
    | .next t => pulseBetween s t ++ transfers n t
    | _ => []

/-- A phase sequence as a whole: how many cycles it lasts, what it puts on the bus, and the registers it leaves. -/
structure Course where
  cycles : Nat
  bus : List Transfer
  last : State

/-- One course after another. -/
def Course.andThen (c : Course) (f : State → Course) : Course :=
  let d := f c.last
  { cycles := c.cycles + d.cycles, bus := c.bus ++ d.bus, last := d.last }

/-- The course of phases, samples and actions that hold no exit test and no response. -/
def straight : List Item → State → Course
  | [], s => { cycles := 0, bus := [], last := s }
  | .phase d n :: rest, s =>
    Course.andThen { cycles := n, bus := pulseBetween s (s.drive d), last := s.drive d } (straight rest)
  | .sample p :: rest, s => straight rest (s.sample p)
  | .act a :: rest, s => straight rest (s.act a)
  | .pollTest :: rest, s => straight rest s
  | .respond _ :: rest, s => straight rest s

/-- A poll from its first exit test on: at most `fuel` more tests (41_register_access.md R189). -/
def pollCourse : Nat → State → Course
  | 0, s => { cycles := 0, bus := [], last := s }
  | fuel + 1, s =>
    if s.rdAcc.getLsbD 7 = false then { cycles := 0, bus := [], last := s.countPoll }
    else if s.countPoll.pollI = s.cfg.pollMax then { cycles := 0, bus := [], last := s.countPoll.timeOut }
    else (straight (memRead s.cfg false) s.countPoll).andThen (pollCourse fuel)

/-- The whole course of a phase sequence, up to and with its response. -/
def course : List Item → State → Course
  | [], s => { cycles := 0, bus := [], last := { s with cnt := 0, pos := [] } }
  | .phase d n :: rest, s =>
    Course.andThen { cycles := n, bus := pulseBetween s (s.drive d), last := s.drive d } (course rest)
  | .sample p :: rest, s => course rest (s.sample p)
  | .act a :: rest, s => course rest (s.act a)
  | .pollTest :: rest, s => (pollCourse (s.cfg.pollMax - s.pollI) s).andThen (course rest)
  | .respond src :: _, s => { cycles := 0, bus := [], last := s.respond s.endStatus (s.answerByte src) }

/-- The host's pins after `n` edges at which nothing was accepted (log 3). -/
def State.waited : Nat → State → State
  | 0, s => s
  | n + 1, s => State.waited n (s.hostMoves false)

/-- The port with a request on it. -/
def State.present (s : State) (w : Req) : State := { s with port := { rst := false, reqValid := true, req := w } }

/-- A state whose response stands within `fuel` edges, the first such. -/
def State.untilResponse : Nat → State → Option State
  | 0, s => if s.rspValid then some s else none
  | fuel + 1, s =>
    if s.rspValid then some s
    else
      match step s with
      | .next t => State.untilResponse fuel t
      | _ => none

/-- The host issues one request and waits for its response, at most `fuel` edges. -/
def issue (fuel : Nat) (w : Req) (s : State) : Option State :=
  match step (s.present w) with
  | .next t => t.untilResponse fuel
  | _ => none

/-- A response that says its request was rejected: codes 1 to 5 (60_exceptions.md R309). -/
def isRejection (st : BitVec 3) : Bool := decide (1 ≤ st.toNat ∧ st.toNat ≤ 5)

/-- The host issues requests in order, each after the previous response, and stops after a rejection (30_encoding.md
R127): the responses it saw, and the last state. -/
def issueAll (fuel : Nat) : List Req → State → Option (List (BitVec 3 × Byte) × State)
  | [], s => some ([], s)
  | w :: ws, s =>
    match issue fuel w s with
    | none => none
    | some t =>
      if isRejection t.rspStatus then some ([(t.rspStatus, t.rspData)], t)
      else (issueAll fuel ws t).map fun r => ((t.rspStatus, t.rspData) :: r.1, r.2)

end Sys2Proof.Machine
end

