-- ==== Sys2Proof/Safety.lean ====
section
/-! DEFINITION. What counts as a safe state and a completed request, in the terms the claims use: the invariant, a host
that raises no reset, and the registers, the bus and the length a request leaves. -/

namespace Sys2Proof.Machine

/-- What the rest of a phase sequence is judged by: ENABLE, `ctl`, whether `fn` holds the configured DL, whether the poll
counter is below its ceiling, and whether the lanes' direction agrees with RW. -/
structure Look where
  e : Bool
  ctl : Ctl
  dl : Bool
  fresh : Bool
  agrees : Bool

/-- The DL field of `fn` is the configured one (41_register_access.md R195). -/
def dlMatches (c : Config) (fn : BitVec 3) : Bool := fn.getLsbD 2 == c.dl

/-- `dir` = Write exactly when RW is low: the LCDC drives the lanes in a write and only then. -/
def State.dirAgrees (s : State) : Bool := decide (s.dir = .write) == !s.rw

/-- The look of a state. -/
def State.look (s : State) : Look :=
  { e := s.e, ctl := s.ctl, dl := dlMatches s.cfg s.fn, fresh := decide (s.pollI < s.cfg.pollMax),
    agrees := s.dirAgrees }

/-- A phase may start here: no pin but `e` changes while `e` = 1 (70_reset_and_hazards.md R336), ENABLE rises only with
the lanes' direction right (R338), and no read is made where RW is not wired (41_register_access.md R183). -/
def driveOk (c : Config) (k : Look) : Drive → Bool
  | .powerOn => !k.e
  | .write _ _ => !k.e
  | .read _ => !k.e && c.rwWired
  | .high => !k.e && k.agrees
  | .low => true
  | .hold => !k.e

/-- The look after a phase's assignments. -/
def driveLook (k : Look) : Drive → Look
  | .powerOn => { k with e := false, agrees := true }
  | .write (some _) _ => { k with e := false, agrees := true }
  | .write none _ => { k with e := false }
  | .read (some _) => { k with e := false, agrees := true }
  | .read none => { k with e := false }
  | .high => { k with e := true }
  | .low => { k with e := false }
  | .hold => k

/-- A sample takes a nibble on a 4-bit bus and a byte on an 8-bit bus (30_encoding.md R118). -/
def partOk (c : Config) (p : Part) : Bool :=
  match c.busWidth with
  | .four => decide (p ≠ .whole)
  | .eight => decide (p = .whole)

/-- The response comes next, at the same edge. -/
def answersNow : List Item → Bool
  | .respond _ :: _ => true
  | _ => false

/-- The rest of a phase sequence is in order from here: every phase lasts at least one cycle and no longer than the
longest, ENABLE rises and falls once per transfer, samples stand in ENABLE-high phases, a poll's exit test comes with
its counter below the ceiling, in READY neither `ctl` nor a mirror changes, `ctl` becomes READY only with the
response and with the bus width unchanged, and the sequence ends with its response. -/
def posOk (c : Config) : Look → List Item → Bool
  | _, [] => false
  | k, .phase d n :: rest =>
    driveOk c k d && decide (1 ≤ n) && decide (n ≤ c.longestPhase) && posOk c (driveLook k d) rest
  | k, .sample p :: rest => k.e && c.rwWired && partOk c p && posOk c k rest
  | k, .pollTest :: rest => !k.e && c.rwWired && k.fresh && k.agrees && posOk c { k with fresh := false } rest
  | k, .act a :: rest =>
    !k.e && match a with
    | .ctl x =>
      decide (k.ctl ≠ .ready) && decide (x ≠ .uninit) && decide (x = .ready → answersNow rest = true)
        && posOk c { k with ctl := x } rest
    | .fn v => decide (k.ctl ≠ .ready) && posOk c { k with dl := dlMatches c v } rest
    | .pollZero => posOk c { k with fresh := decide (0 < c.pollMax) } rest
    | .dctl _ => decide (k.ctl ≠ .ready) && posOk c k rest
    | .entry _ => decide (k.ctl ≠ .ready) && posOk c k rest
    | .keep => posOk c k rest
  | k, .respond _ :: rest => !k.e && decide (k.ctl = .ready) && k.dl && rest.isEmpty

/-- The invariant of the LCDC. -/
structure Inv (s : State) : Prop where
  /-- The configuration is one the spec gives a run (00_scope.md R9). -/
  legal : s.cfg.legal = true
  /-- Without RW the RW pin is 0 at every cycle (10_state.md R37). -/
  rwUnwired : s.cfg.rwWired = false → s.rw = false
  /-- The LCDC never drives a lane while RW lets the device drive it (70_reset_and_hazards.md R338). -/
  noContention : s.dir = .write → s.rw = false
  /-- Lanes outside `ACTIVE` are 0 for ever (10_state.md R36). -/
  unusedLanes : s.dO &&& ~~~ s.cfg.active = 0x00#8
  /-- With no request, nothing is left to do and no response stands (10_state.md R42). -/
  idle : s.busy = false → s.pos = [] ∧ s.cnt = 0 ∧ s.rspValid = false
  /-- With the response, the request is over (20_memory.md R96). -/
  answered : s.rspValid = true → s.pos = [] ∧ s.cnt = 0
  /-- At every request boundary ENABLE is low (40_transport.md R157). -/
  restLow : s.running = false → s.e = false
  /-- At every request boundary `ctl` is UNINIT or READY (60_exceptions.md R301). -/
  restCtl : s.running = false → s.ctl = .uninit ∨ s.ctl = .ready
  /-- A running request is inside a phase and what is left of it is in order. -/
  inOrder : s.running = true → 1 ≤ s.cnt ∧ s.cnt ≤ s.cfg.longestPhase ∧ posOk s.cfg s.look s.pos = true
  /-- While a request runs, `ctl` is not UNINIT: INIT leaves it at its accepting edge (42_controller_init.md R220). -/
  started : s.running = true → s.ctl ≠ .uninit
  /-- While ENABLE is high the lanes are driven in a write and released in a read. -/
  pulse : s.e = true → s.dirAgrees = true
  /-- `fault` is set only in READY (42_controller_init.md R220). -/
  faultReady : s.fault = true → s.ctl = .ready
  /-- In READY the mirror's DL field is the configured bus width. -/
  framing : s.ctl = .ready → dlMatches s.cfg s.fn = true
  /-- A poll makes at most `POLL_MAX` reads (60_exceptions.md R317). -/
  pollBound : s.pollI ≤ s.cfg.pollMax
  /-- Only a poll times out, and only RW lets it poll (60_exceptions.md R307). -/
  tmoWired : s.tmo = true → s.cfg.rwWired = true
  /-- Code 6 is never produced (30_encoding.md R114). -/
  statusNamed : s.rspStatus ≠ 6#3

/-- The host raises no reset: not at the next edge and nowhere in its script. -/
def NoReset (s : State) : Prop := s.port.rst = false ∧ ∀ p ∈ s.host, p.rst = false

/-- A state at a request boundary, after the response before it has been retired: a request may be accepted. -/
structure AtRest (s : State) : Prop where
  inv : Inv s
  free : s.busy = false
  noReset : NoReset s

/-- At rest, initialized and not faulted: the state in which the checks let every defined request but INIT run
(60_exceptions.md R301). -/
structure AtRestReady (s : State) : Prop where
  rest : AtRest s
  ready : s.ctl = .ready
  notFaulted : s.fault = false

/-- `exec` accepts `i` in `s`, and `T` cycles later, and no earlier, the response stands in the state `t`; in between the
device sees the transfers `bus` and nothing else (30_encoding.md R113). -/
def Serves (i : Instr) (s : State) (T : Nat) (t : State) (bus : List Transfer) : Prop :=
  ∃ u, exec i s = .next u ∧ run T u = .next t ∧ t.rspValid = true
    ∧ (∀ m, m < T → ∃ v, run m u = .next v ∧ v.running = true) ∧ transfers T u = bus

/-- What the device sees of a register write: RW low, the active lanes driven, the high nibble first
(30_encoding.md R117). -/
def writeBus (c : Config) (rs : Bool) (v : Byte) : List Transfer :=
  match c.busWidth with
  | .four => [⟨rs, false, 0x0F#8, v.hi⟩, ⟨rs, false, 0x0F#8, v.lo⟩]
  | .eight => [⟨rs, false, 0xFF#8, v⟩]

/-- What the device sees of `n` register reads: RW high, no lane driven (30_encoding.md R118). -/
def readBus (c : Config) (rs : Bool) (n : Nat) : List Transfer :=
  List.replicate (Config.pulses c * n) ⟨rs, true, 0x00#8, 0x00#8⟩

/-- The device's answer at the sample number `k` from `s` on (00_scope.md R7). -/
def State.draw (s : State) (k : Nat) : Byte := s.device.getD k (Config.deviceDraw (s.draws + k))

/-- The byte of the register read number `m` from `s` on, assembled as 20_memory.md R86 says. -/
def State.byteRead (s : State) (m : Nat) : Byte :=
  match s.cfg.busWidth with
  | .four => ((s.draw (2 * m)).lo <<< 4) ||| (s.draw (2 * m + 1)).lo
  | .eight => s.draw m

/-- The registers after a register write (41_register_access.md R180). -/
def State.afterWrite (s : State) (rs : Bool) (v : Byte) : State :=
  { s with
    rs := rs
    rw := false
    dir := .write
    e := false
    dO := match s.cfg.busWidth with | .four => v.lo | .eight => v }

/-- The registers after `n + 1` register reads in a row (41_register_access.md R183). -/
def State.afterReads (s : State) (rs : Bool) (n : Nat) : State :=
  { s with
    rs := rs
    rw := true
    dir := .read
    e := false
    rdAcc := s.byteRead n
    device := s.device.drop (Config.pulses s.cfg * (n + 1))
    draws := s.draws + Config.pulses s.cfg * (n + 1) }

/-- From the read number `first` on, a poll makes `n + 1` reads: all before the last answer busy, and the last answers
ready or is the last the ceiling allows (41_register_access.md R189). -/
def PollEnds (s : State) (first n : Nat) : Prop :=
  n + 1 ≤ s.cfg.pollMax ∧ (∀ m, m < n → (s.byteRead (first + m)).getLsbD 7 = true)
    ∧ ((s.byteRead (first + n)).getLsbD 7 = false ∨ n + 1 = s.cfg.pollMax)

/-- Whether a poll that ends with the read number `k` ended by its ceiling (41_register_access.md R189). -/
def State.timedOut (s : State) (k : Nat) : Bool := (s.byteRead k).getLsbD 7

/-- The registers after a poll of `n + 1` reads (41_register_access.md R189). -/
def State.afterPoll (s : State) (n : Nat) : State :=
  { s.afterReads false n with pollI := n + 1, tmo := s.tmo || s.timedOut n }

/-- The response of a request that ran: OK or OK_TIMEOUT by `tmo` (60_exceptions.md R307), in the cycle `T`. -/
def State.finished (s : State) (data : Byte) (T : Nat) : State :=
  ({ s with
     rspValid := true
     rspStatus := if s.tmo then 7#3 else 0#3
     rspData := data
     cnt := 0
     pos := [] }).waited T

/-- A request rejected with a code at its accepting edge (60_exceptions.md R300): latched, answered, nothing else. -/
def State.rejected (s : State) (op : BitVec 5) (a b : Byte) (code : BitVec 3) : State :=
  { s with
    busy := true
    tmo := false
    op := op
    a := a
    b := b
    rspValid := true
    rspStatus := code
    rspData := 0x00#8
    cnt := 0
    pos := [] }

/-- A request accepted: latched, with the response registers as they were (30_encoding.md R113). -/
def State.accepted (s : State) (op : BitVec 5) (a b : Byte) : State :=
  { s with busy := true, tmo := false, op := op, a := a, b := b }

/-- `i`, accepted in `s` with the registers `u` after its accepting edge's own writes, makes one register write of `v` and
its completion wait and is answered: without RW after the write, plus the long delay where `long` says so; with RW after
a poll of `n + 1` reads (43_command_api.md R250, 41_register_access.md R188). -/
def WriteRuns (i : Instr) (s u : State) (rs : Bool) (v : Byte) (long : Bool) : Prop :=
  (s.cfg.rwWired = false →
    let T := s.cfg.writeLen + (if long then s.cfg.cycles s.cfg.tLongNs else 0)
    Serves i s T ((u.afterWrite rs v).finished 0x00#8 T) (writeBus s.cfg rs v))
  ∧ (s.cfg.rwWired = true →
    ∃ n, PollEnds s 0 n ∧
      let T := s.cfg.writeLen + (n + 1) * s.cfg.readLen
      Serves i s T (((u.afterWrite rs v).afterPoll n).finished 0x00#8 T)
        (writeBus s.cfg rs v ++ readBus s.cfg false (n + 1)))

/-- What the device sees of the bus-width negotiation: lone transfers with RS and RW low (42_controller_init.md R222,
R223). -/
def Config.negotiationBus (c : Config) : List Transfer :=
  match c.busWidth with
  | .four =>
    [⟨false, false, 0x0F#8, 0x03#8⟩, ⟨false, false, 0x0F#8, 0x03#8⟩, ⟨false, false, 0x0F#8, 0x03#8⟩,
      ⟨false, false, 0x0F#8, 0x02#8⟩]
  | .eight =>
    [⟨false, false, 0xFF#8, c.functionSetByte⟩, ⟨false, false, 0xFF#8, c.functionSetByte⟩,
      ⟨false, false, 0xFF#8, c.functionSetByte⟩]

/-- The registers INIT leaves but for its polls: READY, the mirrors, and the pins after its last write
(42_controller_init.md R231). -/
def State.afterInit (s : State) : State :=
  { s with
    ctl := .ready
    fn := fnOfByte s.cfg.functionSetByte
    dctl := 0b100#3
    entry := 0b10#2 }.afterWrite false 0x06#8

/-- INIT without RW is served in the fixed length of 42_controller_init.md R234, with the negotiation and the four command
bytes of R226 to R230 on the bus. -/
def InitRunsUnwired (i : Instr) (s u : State) : Prop :=
  let T := s.cfg.negotiationLen + 4 * s.cfg.writeLen + s.cfg.cycles s.cfg.tLongNs
  Serves i s T (u.afterInit.finished 0x00#8 T)
    (Config.negotiationBus s.cfg ++ writeBus s.cfg false s.cfg.functionSetByte ++ writeBus s.cfg false 0x0C#8
      ++ writeBus s.cfg false 0x01#8 ++ writeBus s.cfg false 0x06#8)

/-- INIT's four polls make `n₁ + 1` to `n₄ + 1` reads, one poll after another (42_controller_init.md R226 to R230). -/
def InitPolls (s : State) (n₁ n₂ n₃ n₄ : Nat) : Prop :=
  PollEnds s 0 n₁ ∧ PollEnds s (n₁ + 1) n₂ ∧ PollEnds s (n₁ + 1 + n₂ + 1) n₃
    ∧ PollEnds s (n₁ + 1 + n₂ + 1 + n₃ + 1) n₄

/-- INIT with RW is served with a poll after each of the four command bytes (42_controller_init.md R234): their numbers
of reads add up, and a poll that times out sets `tmo` for the rest. -/
def InitRunsWired (i : Instr) (s u : State) : Prop :=
  ∃ n₁ n₂ n₃ n₄,
    let f₂ := n₁ + 1
    let f₃ := f₂ + n₂ + 1
    let f₄ := f₃ + n₃ + 1
    let n := f₄ + n₄ + 1
    InitPolls s n₁ n₂ n₃ n₄ ∧
    let T := s.cfg.negotiationLen + 4 * s.cfg.writeLen + n * s.cfg.readLen
    let t := { u.afterInit.afterReads false (f₄ + n₄) with
      pollI := n₄ + 1
      tmo := u.tmo || s.timedOut n₁ || s.timedOut (f₂ + n₂) || s.timedOut (f₃ + n₃) || s.timedOut (f₄ + n₄) }
    Serves i s T (t.finished 0x00#8 T)
      (Config.negotiationBus s.cfg
        ++ (writeBus s.cfg false s.cfg.functionSetByte ++ readBus s.cfg false (n₁ + 1))
        ++ (writeBus s.cfg false 0x0C#8 ++ readBus s.cfg false (n₂ + 1))
        ++ (writeBus s.cfg false 0x01#8 ++ readBus s.cfg false (n₃ + 1))
        ++ (writeBus s.cfg false 0x06#8 ++ readBus s.cfg false (n₄ + 1)))

/-- The checks of 60_exceptions.md R301, by opcode number and in its order: the status code of a request that is
rejected, none where it runs. -/
def State.verdict (s : State) (i : Instr) : Option (BitVec 3) :=
  let op := i.opcode.toNat
  let a := i.operandA
  if 0x15 ≤ op then some 4#3
  else if op = 0x00 then none
  else if s.fault = true then some 3#3
  else if op = 0x01 ∧ s.ctl = .ready then some 5#3
  else if op = 0x01 then none
  else if s.ctl ≠ .ready then some 1#3
  else if (op = 0x04 ∨ op = 0x05) ∧ s.cfg.rwWired = false then some 2#3
  else if op = 0x02 ∧ a.extractLsb' 5 3 = 0b001#3 ∧ a.getLsbD 4 ≠ s.cfg.dl then some 4#3
  else none

/-- One full byte moved to or from a device register (00_scope.md R14, register access). -/
inductive Access where
  | write (rs : Bool) (v : Byte)
  | read (rs : Bool)
deriving DecidableEq, Repr

/-- The transfers of an access (30_encoding.md R117, R118). -/
def Access.bus (c : Config) : Access → List Transfer
  | .write rs v => writeBus c rs v
  | .read rs => readBus c rs 1

/-- The three mirror registers (10_state.md R38). -/
structure Mirrors where
  fn : BitVec 3
  dctl : BitVec 3
  entry : BitVec 2
deriving DecidableEq, Repr

/-- The mirrors of a state. -/
def State.mirrors (s : State) : Mirrors := { fn := s.fn, dctl := s.dctl, entry := s.entry }

/-- What the mirrors must be after an access, by the command byte it carries (10_state.md R39, 30_encoding.md R120). -/
def Mirrors.after (m : Mirrors) : Access → Mirrors
  | .write false v =>
    match CommandKind.ofByte v with
    | some .functionSet => { m with fn := v.extractLsb' 2 3 }
    | some .displayControl => { m with dctl := v.extractLsb' 0 3 }
    | some .entryModeSet => { m with entry := v.extractLsb' 0 2 }
    | _ => m
  | .write true _ => m
  | .read _ => m

/-- `ROWOFF`, entry by entry as 10_state.md R40 writes it. -/
def rowBase (c : Config) (row : Nat) : Nat :=
  match row with
  | 0 => 0x00
  | 1 => 0x40
  | 2 => c.cols % 256
  | _ => (0x40 + c.cols) % 256

/-- POWER_ON and the bus-width negotiation, with RW and without (70_reset_and_hazards.md R340): each negotiation state
stands for its transfer and its own delay (42_controller_init.md R221 to R223, R237). -/
def Config.negotiationStates (c : Config) : List (Ctl × Nat) :=
  [(.powerOn, c.cycles c.tPowerOnNs), (.neg0, c.writeXferLen + c.cycles c.tNeg1Ns),
    (.neg1, c.writeXferLen + c.cycles c.tNeg2Ns), (.neg2, c.writeXferLen + c.cycles c.tNeg3Ns)]
    ++ (match c.busWidth with | .four => [(.neg3, c.writeXferLen)] | .eight => [])

/-- The states of INIT and how long each stands (42_controller_init.md R220 to R230): after the negotiation each for its
register write and its completion wait, of `w₁` to `w₄` cycles. -/
def Config.initStates (c : Config) (w₁ w₂ w₃ w₄ : Nat) : List (Ctl × Nat) :=
  Config.negotiationStates c
    ++ [(.functionSet, c.writeLen + w₁), (.displayOn, c.writeLen + w₂), (.clearDisplay, c.writeLen + w₃),
      (.entryModeSet, c.writeLen + w₄)]

/-- The state in cycle `m` of a schedule, if it lasts that long. -/
def ctlAt : List (Ctl × Nat) → Nat → Option Ctl
  | [], _ => none
  | (x, n) :: rest, m => if m < n then some x else ctlAt rest (m - n)

end Sys2Proof.Machine
end

