-- ==== Sys2Proof/Certificates/Slice0/Obligations.lean ====
section
/-! DEFINITION. The statements for the provers, one numbered rule or a group of rules each. Conventions: a state is "at
rest" (`AtRest`) at a request boundary of a run without reset; `Serves i s T t bus` says that `exec` accepts `i` in `s`, that
its response stands `T` cycles later in `t`, and that `bus` is all the device sees meanwhile. `State.rejected` is a request
turned away and latched all the same, as log 6 has it. No statement rests on a value of the device oracle, and none but the
second clause of `ResetIsInvariant` on a field of `State.reset` that the model chose. -/

open Sys2Proof Sys2Proof.Machine

/-! ## Encoding -/

/-- 30_encoding.md R111, R112: no bit of a request is lost. -/
def Obligations.DecodeOfEncode : Prop :=
  ∀ i : Instr, decode (encode i).toNat = .ok i

/-- 30_encoding.md R111, R112: every 21-bit word is a request, and it is the word of that request alone. -/
def Obligations.EncodeOfDecode : Prop :=
  ∀ n : Nat, n < 2 ^ 21 → ∃ i, decode n = .ok i ∧ (encode i).toNat = n

/-- The request word is 21 bits (30_encoding.md R111). That a number of more bits is refused by name, and not cut to its low
21 bits, is the model's choice (log 7, DESIGN CHOICE): the rule gives the width alone. -/
def Obligations.NoWordNoRequest : Prop :=
  ∀ n : Nat, 2 ^ 21 ≤ n → decode n = .error (.notARequestWord n)

/-- 30_encoding.md R111, R112: words written out bit by bit, opcode, first operand, second operand. -/
def Obligations.WrittenWordsDecode : Prop :=
  decode 0b00000_00000011_01010101 = .ok (.getStatus 0x03#8 0x55#8)
  ∧ decode 0b00001_00000000_00000000 = .ok (.init 0x00#8 0x00#8)
  ∧ decode 0b00010_00001110_00000000 = .ok (.writeCmd 0x0E#8 0x00#8)
  ∧ decode 0b00011_01001000_00000000 = .ok (.writeData 0x48#8 0x00#8)
  ∧ decode 0b00110_00000000_00000000 = .ok (.isBusy 0x00#8 0x00#8)
  ∧ decode 0b01001_00000000_00000000 = .ok (.cursorOn 0x00#8 0x00#8)
  ∧ decode 0b10010_00000000_00000000 = .ok (.autoscrollOff 0x00#8 0x00#8)
  ∧ decode 0b10011_11001000_00000001 = .ok (.setCursor 0xC8#8 0x01#8)
  ∧ decode 0b10100_00001001_00000000 = .ok (.cgramSlot 0x09#8 0x00#8)
  ∧ decode 0b10101_00000000_00000000 = .ok (.reserved15 0x00#8 0x00#8)
  ∧ decode 0b11111_11111111_00000001 = .ok (.reserved1F 0xFF#8 0x01#8)

/-- 30_encoding.md R126: the word of a line is `op<<16 | a<<8 | b`, omitted operands are 0, and the decoder reads back the
opcode and the operands the line wrote. -/
def Obligations.AssembledLineDecodes : Prop :=
  ∀ op : Nat, op ≤ 0x14 → ∀ operands : List Nat, operands.length ≤ 2 → (∀ n ∈ operands, n < 256) →
    ∃ w i, (SourceLine.request op operands).assemble = some [w]
      ∧ w.toNat = op * 65536 + operands.getD 0 0 * 256 + operands.getD 1 0
      ∧ decode w.toNat = .ok i ∧ i.opcode.toNat = op
      ∧ i.operandA.toNat = operands.getD 0 0 ∧ i.operandB.toNat = operands.getD 1 0

/-- 30_encoding.md R127: PRINT is one WRITE_DATA a byte, first byte first; CREATE_CHAR is CGRAM_SLOT and then the eight
WRITE_DATA of its rows. -/
def Obligations.PseudoInstructionsExpand : Prop :=
  (∀ text : List Nat, (∀ n ∈ text, n < 256) →
    (SourceLine.print text).assemble = some (text.map fun n => encode (.writeData (BitVec.ofNat 8 n) 0x00#8)))
  ∧ ∀ (slot : Nat) (rows : List Nat), slot < 256 → rows.length = 8 → (∀ n ∈ rows, n < 256) →
    (SourceLine.createChar slot rows).assemble
      = some (encode (.cgramSlot (BitVec.ofNat 8 slot) 0x00#8)
          :: rows.map fun n => encode (.writeData (BitVec.ofNat 8 n) 0x00#8))

/-! ## The configuration and reset -/

/-- 00_scope.md R9: a configuration outside the legal values of R8 has no run. -/
def Obligations.IllegalConfigurationIsRefused : Prop :=
  ∀ s : State,
    ¬ (1 ≤ s.cfg.lines ∧ s.cfg.lines ≤ 4 ∧ 1 ≤ s.cfg.cols ∧ s.cfg.cols ≤ 255 ∧ 1 ≤ s.cfg.tClkNs
        ∧ 1000 ≤ s.cfg.tAsNs ∧ 450 ≤ s.cfg.tPwNs ∧ 37000 ≤ s.cfg.tSettleNs ∧ 40000000 ≤ s.cfg.tPowerOnNs
        ∧ 4100000 ≤ s.cfg.tNeg1Ns ∧ 100000 ≤ s.cfg.tNeg2Ns ∧ 100000 ≤ s.cfg.tNeg3Ns ∧ 1 ≤ s.cfg.tLongNs
        ∧ 450 ≤ s.cfg.tRdEhNs ∧ 1000 ≤ s.cfg.tRdRecNs ∧ 1 ≤ s.cfg.pollMax) →
      step s = .refused .illegalConfig

/-- 10_state.md R49: the registers after reset. -/
def Obligations.ResetRegisters : Prop :=
  let r := State.reset
  r.ctl = .uninit ∧ r.fault = false ∧ r.dir = .read ∧ r.dOe = 0x00#8 ∧ r.rs = false ∧ r.rw = false ∧ r.e = false
    ∧ r.dO = 0x00#8 ∧ r.fn = 0b000#3 ∧ r.dctl = 0b000#3 ∧ r.entry = 0b00#2 ∧ r.busy = false ∧ r.op = 0#5 ∧ r.a = 0x00#8
    ∧ r.b = 0x00#8 ∧ r.cnt = 0 ∧ r.pos = [] ∧ r.rdAcc = 0x00#8 ∧ r.rdKeep = 0x00#8 ∧ r.pollI = 0 ∧ r.tmo = false
    ∧ r.rspValid = false ∧ r.rspStatus = 0#3 ∧ r.rspData = 0x00#8

/-- 70_reset_and_hazards.md R330, R331 and 60_exceptions.md R313: at an edge with `rst` high every register takes R49's
value, whatever was running and whatever was presented; the configuration and the device are not reset. -/
def Obligations.ResetEdgeLoadsReset : Prop :=
  ∀ s : State, s.cfg.legal = true → s.port.rst = true →
    step s = .next
      { cfg := s.cfg, ctl := .uninit, fault := false, dir := .read, rs := false, rw := false, e := false, dO := 0x00#8,
        fn := 0b000#3, dctl := 0b000#3, entry := 0b00#2, busy := false, op := 0#5, a := 0x00#8, b := 0x00#8, cnt := 0,
        pos := [], rdAcc := 0x00#8, rdKeep := 0x00#8, pollI := 0, tmo := false, rspValid := false, rspStatus := 0#3,
        rspData := 0x00#8, port := s.nextPort false, host := s.host.tail, device := s.device, draws := s.draws }

/-! ## The step and its invariant -/

/-- 30_encoding.md R113: an edge that is free accepts the presented request, and the step is `exec` of the decoded word, on
the state whose standing response has been retired (log 4: the edge that retires may accept). -/
def Obligations.StepRunsTheDecodedRequest : Prop :=
  ∀ (s : State) (i : Instr), s.cfg.legal = true → s.port.rst = false → s.running = false → s.port.reqValid = true →
    decode s.port.req.toNat = .ok i →
      step s = exec i s.acceptEdge
      ∧ s.acceptEdge
          = { s with rspValid := false, busy := false, port := s.nextPort true, host := s.host.tail }

/-- What `exec` is given at an accepting edge is at rest, so the statements about `exec` at rest say what a run does. -/
def Obligations.AcceptingEdgeIsAtRest : Prop :=
  ∀ s : State, Inv s → NoReset s → s.running = false → AtRest s.acceptEdge

/-- 40_transport.md R157, 30_encoding.md R113: with no request running and none presented, the pins and every other
register hold, and a standing response ends. -/
def Obligations.IdleEdgeHolds : Prop :=
  ∀ s : State, s.cfg.legal = true → s.port.rst = false → s.running = false → s.port.reqValid = false →
    step s = .next { s with rspValid := false, busy := false, port := s.nextPort false, host := s.host.tail }

/-- 40_transport.md R151: inside a phase only `cnt` counts; no pin and no other register changes until it ends. -/
def Obligations.PhaseHoldsItsPins : Prop :=
  ∀ (s : State) (m : Nat), Inv s → NoReset s → s.running = true → m < s.cnt →
    ∃ port host, run m s = .next { s with cnt := s.cnt - m, port := port, host := host }

/-- 40_transport.md R152, R153, R159: a write transfer, from its start edge: ENABLE low for the setup time, high for the pulse,
low for the settle time, every other pin held, and then what follows it. -/
def Obligations.WriteTransferShape : Prop :=
  ∀ (s : State) (rs : Option Bool) (v : Byte) (rest : List Item), s.cfg.legal = true → NoReset s → s.running = true →
    rest ≠ [] →
      let u := State.advance (writeXfer s.cfg rs v ++ rest) s
      let setup := s.cfg.cycles s.cfg.tAsNs
      let pulse := s.cfg.cycles s.cfg.tPwNs
      let settle := s.cfg.cycles s.cfg.tSettleNs
      (∀ m, m < setup + pulse + settle →
        ∃ w, run m u = .next w ∧ w.e = decide (setup ≤ m ∧ m < setup + pulse)
          ∧ w.rs = u.rs ∧ w.rw = u.rw ∧ w.dO = u.dO ∧ w.dir = u.dir)
      ∧ run (setup + pulse + settle) u
          = .next (State.advance rest ((s.drive (.write rs v)).waited (setup + pulse + settle)))

/-- 40_transport.md R151, R156: a read transfer, from its start edge: ENABLE low for the setup time, high while the device
drives, low for the recovery time, no other pin changing, and `rd_acc` takes the sample at the edge that ends the
ENABLE-high phase and at no other (log 5). -/
def Obligations.ReadTransferShape : Prop :=
  ∀ (s : State) (rs : Option Bool) (p : Part) (rest : List Item), s.cfg.legal = true → NoReset s → s.running = true →
    rest ≠ [] →
      let u := State.advance (readXfer s.cfg rs p ++ rest) s
      let setup := s.cfg.cycles s.cfg.tAsNs
      let pulse := s.cfg.cycles s.cfg.tRdEhNs
      let recovery := s.cfg.cycles s.cfg.tRdRecNs
      (∀ m, m < setup + pulse + recovery →
        ∃ w, run m u = .next w ∧ w.e = decide (setup ≤ m ∧ m < setup + pulse)
          ∧ w.rs = u.rs ∧ w.rw = u.rw ∧ w.dO = u.dO ∧ w.dir = u.dir
          ∧ w.rdAcc = (if m < setup + pulse then s.rdAcc else sampleInto s.rdAcc s.lcdDI p))
      ∧ run (setup + pulse + recovery) u
          = .next (State.advance rest (((s.drive (.read rs)).sample p).waited (setup + pulse + recovery)))

/-- The invariant holds with the registers at the reset values of 10_state.md R49, on every legal board and whatever the
host and the device are. The second clause is the instance `State.reset`, on the board of log 1 (DESIGN CHOICE) with the
quiet host and the unscripted device of logs 2 and 3: those are the model's choices, not R49's. -/
def Obligations.ResetIsInvariant : Prop :=
  (∀ (cfg : Config) (port : HostPins) (host : List HostPins) (device : List Byte) (draws : Nat), cfg.legal = true →
    Inv (State.atReset cfg port host device draws))
  ∧ Inv State.reset

/-- Every step keeps the invariant: legal configuration, RW low where it is not wired, no lane driven against the device,
unused lanes 0, ENABLE low and `ctl` UNINIT or READY at request boundaries, what is left of a request in order, the
mirror's DL the configured one, the poll counter within its ceiling. -/
def Obligations.StepKeepsInvariant : Prop :=
  ∀ s t : State, Inv s → step s = .next t → Inv t

/-- 60_exceptions.md R300 ("never reaches a stuck state"): from the invariant every step answers a next state. -/
def Obligations.StepNeverStops : Prop :=
  ∀ s : State, Inv s → ∃ t, step s = .next t

/-- 70_reset_and_hazards.md R336: no pin but `e` changes while `e` is 1, nor at the edge where it rises. -/
def Obligations.PinsHeldInAPulse : Prop :=
  ∀ s t : State, Inv s → s.port.rst = false → step s = .next t → (s.e = true ∨ t.e = true) →
    t.rs = s.rs ∧ t.rw = s.rw ∧ t.dO = s.dO ∧ t.dir = s.dir

/-- 10_state.md R36, R37 and 70_reset_and_hazards.md R338, at every cycle: which lanes are driven, the lanes that never
are, RW where it is not wired, and no lane driven while RW is high. -/
def Obligations.PinsAlwaysLegal : Prop :=
  ∀ s t : State, Inv s → step s = .next t →
    (t.dir = .write → t.dOe = (if t.cfg.busWidth = .eight then 0xFF#8 else 0x0F#8)) ∧ (t.dir = .read → t.dOe = 0x00#8)
      ∧ (t.cfg.busWidth = .four → t.dO &&& 0xF0#8 = 0x00#8)
      ∧ (t.cfg.rwWired = false → t.rw = false) ∧ (t.dOe ≠ 0x00#8 → t.rw = false)

/-- 42_controller_init.md R231, R232: `ctl` leaves UNINIT only through INIT, reaches READY only together with the response, and
never leaves READY but by `rst`. -/
def Obligations.ControllerPath : Prop :=
  (∀ s t : State, Inv s → s.port.rst = false → step s = .next t →
    (s.ctl = .ready → t.ctl = .ready) ∧ (s.ctl ≠ .ready → t.ctl = .ready → t.rspValid = true)
    ∧ (s.ctl = .uninit → t.ctl ≠ .uninit →
        s.running = false ∧ s.port.reqValid = true ∧ ∃ a b, decodeReq s.port.req = .init a b))
  ∧ (∀ s t : State, s.port.rst = true → step s = .next t → t.ctl = .uninit)

/-- 10_state.md R35: `fault` is set when a request raises ERR_CONFIG and is cleared only by `rst`; its reset value is 0. -/
def Obligations.FaultIsSticky : Prop :=
  (∀ (i : Instr) (s t : State), s.rspValid = false → exec i s = .next t →
    (t.fault = true ↔ s.fault = true ∨ (t.rspValid = true ∧ t.rspStatus = 2#3)))
  ∧ (∀ s t : State, s.port.rst = false → (s.running = true ∨ s.port.reqValid = false) → step s = .next t →
    t.fault = s.fault)
  ∧ (∀ s t : State, s.port.rst = true → step s = .next t → t.fault = false)

/-- 10_state.md R43: the latch is captured at the accepting edge and constant until the response; its reset value is 0. That a
rejected request is captured too is the model's reading of 30_encoding.md R113 and 60_exceptions.md R301 (log 6, DEDUCED). -/
def Obligations.RequestLatch : Prop :=
  (∀ (i : Instr) (s t : State), exec i s = .next t →
    t.op = i.opcode ∧ t.a = i.operandA ∧ t.b = i.operandB ∧ t.busy = true)
  ∧ (∀ s t : State, s.running = true → s.port.rst = false → step s = .next t →
    t.op = s.op ∧ t.a = s.a ∧ t.b = s.b ∧ t.busy = true)
  ∧ State.reset.op = 0#5 ∧ State.reset.a = 0x00#8 ∧ State.reset.b = 0x00#8

/-- 30_encoding.md R113: `rsp_status` and `rsp_data` hold their values until the next response. -/
def Obligations.ResponseHeld : Prop :=
  ∀ s t : State, s.port.rst = false → step s = .next t → t.rspValid = false →
    t.rspStatus = s.rspStatus ∧ t.rspData = s.rspData

/-- 10_state.md R38 (the mirrors change by the rules of their requests alone): in READY a running request changes no mirror
after its accepting edge, and no step changes the configuration (00_scope.md R8). -/
def Obligations.MirrorsAndConfigurationHeld : Prop :=
  (∀ s t : State, step s = .next t → t.cfg = s.cfg)
  ∧ (∀ s t : State, Inv s → s.port.rst = false → s.ctl = .ready → s.running = true → step s = .next t →
    t.mirrors = s.mirrors)

/-- 42_controller_init.md R236, 70_reset_and_hazards.md R346: while a request runs, nothing the host presents but `rst`
changes anything in the LCDC. -/
def Obligations.HostCannotDisturb : Prop :=
  ∀ (s t : State) (port : HostPins) (host : List HostPins), s.running = true → s.port.rst = false → port.rst = false →
    step s = .next t →
      ∃ port' host', step { s with port := port, host := host } = .next { t with port := port', host := host' }

/-- 42_controller_init.md R233, 60_exceptions.md R303: with RW not wired the device cannot reach the LCDC: whatever it drives, every
step is the same. -/
def Obligations.DeviceCannotReachWithoutRW : Prop :=
  ∀ (s t : State) (device : List Byte) (draws : Nat), Inv s → s.cfg.rwWired = false → step s = .next t →
    step { s with device := device, draws := draws } = .next { t with device := device, draws := draws }

/-- 40_transport.md R156: bits of `lcd_d_i` outside `ACTIVE` are never read: two answers that agree on the active lanes
give the same step. -/
def Obligations.InactiveLanesNeverRead : Prop :=
  ∀ (s t : State) (v w : Byte) (rest : List Byte), Inv s → s.device = v :: rest →
    v &&& s.cfg.active = w &&& s.cfg.active → step s = .next t →
      step { s with device := w :: rest }
        = .next { t with device := if t.draws = s.draws then w :: rest else t.device }

/-! ## Acceptance and errors -/

/-- 60_exceptions.md R301, R300: the first check that applies decides the response, at the accepting edge, with data 0x00 and
nothing else changed but `fault` for ERR_CONFIG; a request that passes them all runs. That the latch takes a rejected request
is log 6 (DEDUCED), not R300's list. -/
def Obligations.ChecksInOrder : Prop :=
  ∀ (i : Instr) (s : State),
    (∀ code, s.verdict i = some code →
      exec i s = .next (({ s with fault := s.fault || decide (code = 2#3) } : State).rejected i.opcode i.operandA
        i.operandB code))
    ∧ (s.verdict i = none → s.rspValid = false →
        ∃ t, exec i s = .next t ∧ t.fault = s.fault
          ∧ (t.running = true ∨ (t.rspValid = true ∧ t.rspStatus = 0#3)))

/-- 30_encoding.md R115, 60_exceptions.md R302: a reserved opcode is answered with ERR_ILLEGAL in every state. That it is
latched is log 6 (DEDUCED). -/
def Obligations.ReservedAreIllegal : Prop :=
  ∀ (a b : Byte) (s : State),
    exec (.reserved15 a b) s = .next (s.rejected 0x15#5 a b 4#3)
    ∧ exec (.reserved16 a b) s = .next (s.rejected 0x16#5 a b 4#3)
    ∧ exec (.reserved17 a b) s = .next (s.rejected 0x17#5 a b 4#3)
    ∧ exec (.reserved18 a b) s = .next (s.rejected 0x18#5 a b 4#3)
    ∧ exec (.reserved19 a b) s = .next (s.rejected 0x19#5 a b 4#3)
    ∧ exec (.reserved1A a b) s = .next (s.rejected 0x1A#5 a b 4#3)
    ∧ exec (.reserved1B a b) s = .next (s.rejected 0x1B#5 a b 4#3)
    ∧ exec (.reserved1C a b) s = .next (s.rejected 0x1C#5 a b 4#3)
    ∧ exec (.reserved1D a b) s = .next (s.rejected 0x1D#5 a b 4#3)
    ∧ exec (.reserved1E a b) s = .next (s.rejected 0x1E#5 a b 4#3)
    ∧ exec (.reserved1F a b) s = .next (s.rejected 0x1F#5 a b 4#3)

/-- 30_encoding.md R116: an ignored operand, or an ignored bit of one, changes nothing but the latch that holds it. That the
latch holds it where the request is rejected is log 6 (DEDUCED). -/
def Obligations.IgnoredOperands : Prop :=
  (∀ f ∈ [Instr.init, Instr.readData, Instr.readAb, Instr.isBusy, Instr.clear, Instr.home, Instr.cursorOn,
      Instr.cursorOff, Instr.blinkOn, Instr.blinkOff, Instr.scrollLeft, Instr.scrollRight, Instr.entryLtr,
      Instr.entryRtl, Instr.autoscrollOn, Instr.autoscrollOff, Instr.reserved15, Instr.reserved16, Instr.reserved17,
      Instr.reserved18, Instr.reserved19, Instr.reserved1A, Instr.reserved1B, Instr.reserved1C, Instr.reserved1D,
      Instr.reserved1E, Instr.reserved1F],
    ∀ (a b a' b' : Byte) (s t : State), exec (f a b) s = .next t → exec (f a' b') s = .next { t with a := a', b := b' })
  ∧ (∀ f ∈ [Instr.writeCmd, Instr.writeData],
    ∀ (a b b' : Byte) (s t : State), exec (f a b) s = .next t → exec (f a b') s = .next { t with b := b' })
  ∧ (∀ (a b a' b' : Byte) (s t : State), a.extractLsb' 0 2 = a'.extractLsb' 0 2 →
    exec (.getStatus a b) s = .next t → exec (.getStatus a' b') s = .next { t with a := a', b := b' })
  ∧ (∀ (a b a' b' : Byte) (s t : State), a.extractLsb' 0 3 = a'.extractLsb' 0 3 →
    exec (.cgramSlot a b) s = .next t → exec (.cgramSlot a' b') s = .next { t with a := a', b := b' })

/-! ## Requests -/

/-- 43_command_api.md R267: GET_STATUS answers OK in every state, at its accepting edge, and changes nothing else. -/
def Obligations.GetStatusAnswers : Prop :=
  ∀ (a b : Byte) (s : State),
    let sel := a.extractLsb' 0 2
    let d : Byte :=
      if sel = 0#2 then
        0b000#3 ++ BitVec.ofBool (decide (s.dir = .read)) ++ BitVec.ofBool s.cfg.rwWired
          ++ BitVec.ofBool (decide (s.cfg.busWidth = .eight)) ++ BitVec.ofBool s.fault
          ++ BitVec.ofBool (decide (s.ctl = .ready))
      else if sel = 1#2 then 0b00000#5 ++ s.fn
      else if sel = 2#2 then 0b00000#5 ++ s.dctl
      else 0b000000#6 ++ s.entry
    exec (.getStatus a b) s = .next { s.accepted 0x00#5 a b with
      rspValid := true, rspStatus := 0#3, rspData := d, cnt := 0, pos := [] }

/-- 42_controller_init.md R220 to R230, R233, R234: INIT without RW, its length, its transfers and what it leaves. -/
def Obligations.InitWithoutRW : Prop :=
  ∀ (a b : Byte) (s : State), AtRest s → s.ctl = .uninit → s.cfg.rwWired = false →
    InitRunsUnwired (.init a b) s (s.accepted 0x01#5 a b)

/-- 42_controller_init.md R220 to R230, R234: INIT with RW, a poll after each of its four command bytes. -/
def Obligations.InitWithRW : Prop :=
  ∀ (a b : Byte) (s : State), AtRest s → s.ctl = .uninit → s.cfg.rwWired = true →
    InitRunsWired (.init a b) s (s.accepted 0x01#5 a b)

/-- 42_controller_init.md R220 to R223, R225, R226, R228 to R230, R237 and 70_reset_and_hazards.md R340: INIT goes through its
states in order, with RW and without. Each negotiation state stands for its transfer and its own delay, RW or not; each
later state for its register write and its completion wait, which is nothing or CLEAR's long delay without RW and its
poll's `n + 1` reads with RW. -/
def Obligations.InitStatesInOrder : Prop :=
  ∀ (a b : Byte) (s : State), AtRest s → s.ctl = .uninit →
    ∃ u, exec (.init a b) s = .next u
      ∧ (s.cfg.rwWired = false →
          let long := s.cfg.cycles s.cfg.tLongNs
          ∀ m, m < s.cfg.negotiationLen + 4 * s.cfg.writeLen + long →
            ∃ v, run m u = .next v ∧ ctlAt (Config.initStates s.cfg 0 0 long 0) m = some v.ctl)
      ∧ (s.cfg.rwWired = true →
          ∃ n₁ n₂ n₃ n₄, InitPolls s n₁ n₂ n₃ n₄ ∧
            let reads (n : Nat) := (n + 1) * s.cfg.readLen
            ∀ m, m < s.cfg.negotiationLen + 4 * s.cfg.writeLen + (reads n₁ + reads n₂ + reads n₃ + reads n₄) →
              ∃ v, run m u = .next v
                ∧ ctlAt (Config.initStates s.cfg (reads n₁) (reads n₂) (reads n₃) (reads n₄)) m = some v.ctl)

/-- 42_controller_init.md R231: READY comes with INIT's response and not before, and what the registers are then. -/
def Obligations.InitLeavesReady : Prop :=
  ∀ (a b : Byte) (s : State), AtRest s → s.ctl = .uninit →
    ∃ T t bus, Serves (.init a b) s T t bus ∧ t.ctl = .ready ∧ t.initialized = true
      ∧ t.fn = BitVec.ofBool (decide (s.cfg.busWidth = .eight)) ++ BitVec.ofBool (decide (1 < s.cfg.lines))
          ++ BitVec.ofBool (s.cfg.font5x10 && decide (s.cfg.lines = 1))
      ∧ t.dctl = 0b100#3 ∧ t.entry = 0b10#2 ∧ t.dir = (if s.cfg.rwWired then .read else .write) ∧ t.e = false
      ∧ t.rs = false ∧ (∀ m u v, m < T → exec (.init a b) s = .next u → run m u = .next v → v.ctl ≠ .ready)

/-- 42_controller_init.md R227: the function-set byte of every configuration. -/
def Obligations.FunctionSetByteTable : Prop :=
  ∀ c : Config, c.legal = true →
    (c.busWidth = .four → c.lines = 1 → c.font5x10 = false → c.functionSetByte = 0x20#8)
    ∧ (c.busWidth = .four → c.lines = 1 → c.font5x10 = true → c.functionSetByte = 0x24#8)
    ∧ (c.busWidth = .four → c.lines ≠ 1 → c.functionSetByte = 0x28#8)
    ∧ (c.busWidth = .eight → c.lines = 1 → c.font5x10 = false → c.functionSetByte = 0x30#8)
    ∧ (c.busWidth = .eight → c.lines = 1 → c.font5x10 = true → c.functionSetByte = 0x34#8)
    ∧ (c.busWidth = .eight → c.lines ≠ 1 → c.functionSetByte = 0x38#8)

/-- 43_command_api.md R253 to R256: each sets or clears its one bit of `dctl` at the accepting edge and sends
`0x08 | dctl'`. -/
def Obligations.CursorAndBlink : Prop :=
  ∀ (a b : Byte) (s : State), AtRestReady s →
    let D := BitVec.ofBool (s.dctl.getLsbD 2)
    let C := BitVec.ofBool (s.dctl.getLsbD 1)
    let B := BitVec.ofBool (s.dctl.getLsbD 0)
    let runs (i : Instr) (op : BitVec 5) (dctl' : BitVec 3) : Prop :=
      WriteRuns i s { s.accepted op a b with dctl := dctl' } false (0b00001#5 ++ dctl') false
    runs (.cursorOn a b) 0x09#5 (D ++ 1#1 ++ B) ∧ runs (.cursorOff a b) 0x0A#5 (D ++ 0#1 ++ B)
      ∧ runs (.blinkOn a b) 0x0B#5 (D ++ C ++ 1#1) ∧ runs (.blinkOff a b) 0x0C#5 (D ++ C ++ 0#1)

/-- 43_command_api.md R259 to R262: each sets or clears its one bit of `entry` at the accepting edge and sends
`0x04 | entry'`. -/
def Obligations.EntryAndAutoscroll : Prop :=
  ∀ (a b : Byte) (s : State), AtRestReady s →
    let ID := BitVec.ofBool (s.entry.getLsbD 1)
    let S := BitVec.ofBool (s.entry.getLsbD 0)
    let runs (i : Instr) (op : BitVec 5) (entry' : BitVec 2) : Prop :=
      WriteRuns i s { s.accepted op a b with entry := entry' } false (0b000001#6 ++ entry') false
    runs (.entryLtr a b) 0x0F#5 (1#1 ++ S) ∧ runs (.entryRtl a b) 0x10#5 (0#1 ++ S)
      ∧ runs (.autoscrollOn a b) 0x11#5 (ID ++ 1#1) ∧ runs (.autoscrollOff a b) 0x12#5 (ID ++ 0#1)

/-- 43_command_api.md R251, R252: HOME sends 0x02 and CLEAR 0x01, with the long delay where RW is not wired, and no mirror
changes. -/
def Obligations.HomeAndClear : Prop :=
  ∀ (a b : Byte) (s : State), AtRestReady s →
    WriteRuns (.home a b) s (s.accepted 0x08#5 a b) false 0x02#8 true
    ∧ WriteRuns (.clear a b) s (s.accepted 0x07#5 a b) false 0x01#8 true

/-- 43_command_api.md R257, R258: the two scrolls send 0x18 and 0x1C, and no mirror changes. -/
def Obligations.Scrolls : Prop :=
  ∀ (a b : Byte) (s : State), AtRestReady s →
    WriteRuns (.scrollLeft a b) s (s.accepted 0x0D#5 a b) false 0x18#8 false
    ∧ WriteRuns (.scrollRight a b) s (s.accepted 0x0E#5 a b) false 0x1C#8 false

/-- 43_command_api.md R263, 10_state.md R40: the row is clamped to LINES - 1, the column is not, and the address sent is
`(col + ROWOFF[row]) mod 256`, under the command bit. -/
def Obligations.SetCursorSends : Prop :=
  ∀ (a b : Byte) (s : State), AtRestReady s →
    let row := if s.cfg.lines ≤ b.toNat then s.cfg.lines - 1 else b.toNat
    WriteRuns (.setCursor a b) s (s.accepted 0x13#5 a b) false
      (BitVec.ofNat 8 (128 + (a.toNat + rowBase s.cfg row) % 256 % 128)) false

/-- 43_command_api.md R264: CGRAM_SLOT sends `0x40 | (slot mod 8) << 3`. -/
def Obligations.CgramSlotSends : Prop :=
  ∀ (a b : Byte) (s : State), AtRestReady s →
    WriteRuns (.cgramSlot a b) s (s.accepted 0x14#5 a b) false (BitVec.ofNat 8 (64 + a.toNat % 8 * 8)) false

/-- 41_register_access.md R196: WRITE_DATA sends its byte unchanged with RS high; no mirror changes and no long delay. -/
def Obligations.WriteDataSends : Prop :=
  ∀ (a b : Byte) (s : State), AtRestReady s →
    WriteRuns (.writeData a b) s (s.accepted 0x03#5 a b) true a false

/-- 41_register_access.md R195: WRITE_CMD keeps the mirror its byte sets, sends the byte, and refuses the function set that
would change the bus width. That the refused request is latched is log 6 (DEDUCED). -/
def Obligations.WriteCmdSends : Prop :=
  ∀ (a b : Byte) (s : State), AtRestReady s →
    let refused : Bool := decide (a.extractLsb' 5 3 = 0b001#3 ∧ a.getLsbD 4 ≠ decide (s.cfg.busWidth = .eight))
    (refused = true → exec (.writeCmd a b) s = .next (s.rejected 0x02#5 a b 4#3))
    ∧ (refused = false →
        WriteRuns (.writeCmd a b) s
          { s.accepted 0x02#5 a b with
            fn := if a.extractLsb' 5 3 = 0b001#3 then a.extractLsb' 2 3 else s.fn
            dctl := if a.extractLsb' 3 5 = 0b00001#5 then a.extractLsb' 0 3 else s.dctl
            entry := if a.extractLsb' 2 6 = 0b000001#6 then a.extractLsb' 0 2 else s.entry }
          false a (decide (a = 0x01#8 ∨ a = 0x02#8 ∨ a = 0x03#8)))

/-- 41_register_access.md R197, 60_exceptions.md R303: READ_DATA reads the data register and then polls, and answers the byte
of its first read; without RW it raises ERR_CONFIG and sets `fault` (that it is latched then is log 6, DEDUCED). -/
def Obligations.ReadDataAnswers : Prop :=
  ∀ (a b : Byte) (s : State), AtRestReady s →
    (s.cfg.rwWired = true →
      ∃ n, PollEnds s 1 n ∧
        let T := s.cfg.readLen + (n + 1) * s.cfg.readLen
        let u := (s.accepted 0x04#5 a b).afterReads true 0
        Serves (.readData a b) s T (({ u with rdKeep := s.byteRead 0 }.afterPoll n).finished (s.byteRead 0) T)
          (readBus s.cfg true 1 ++ readBus s.cfg false (n + 1)))
    ∧ (s.cfg.rwWired = false →
      exec (.readData a b) s = .next ({ s with fault := true }.rejected 0x04#5 a b 2#3))

/-- 41_register_access.md R198, 60_exceptions.md R303: READ_AB answers the busy/address byte unchanged, with no completion
wait; without RW it raises ERR_CONFIG and sets `fault` (that it is latched then is log 6, DEDUCED). -/
def Obligations.ReadAbAnswers : Prop :=
  ∀ (a b : Byte) (s : State), AtRestReady s →
    (s.cfg.rwWired = true →
      Serves (.readAb a b) s s.cfg.readLen
        (((s.accepted 0x05#5 a b).afterReads false 0).finished (s.byteRead 0) s.cfg.readLen) (readBus s.cfg false 1))
    ∧ (s.cfg.rwWired = false →
      exec (.readAb a b) s = .next ({ s with fault := true }.rejected 0x05#5 a b 2#3))

/-- 41_register_access.md R199: IS_BUSY answers bit 7 of one busy/address read, and without RW "still busy" at once with no
bus access. -/
def Obligations.IsBusyAnswers : Prop :=
  ∀ (a b : Byte) (s : State), AtRestReady s →
    (s.cfg.rwWired = true →
      Serves (.isBusy a b) s s.cfg.readLen
        (((s.accepted 0x06#5 a b).afterReads false 0).finished
          (0b0000000#7 ++ BitVec.ofBool ((s.byteRead 0).getLsbD 7)) s.cfg.readLen) (readBus s.cfg false 1))
    ∧ (s.cfg.rwWired = false →
      Serves (.isBusy a b) s 0 ((s.accepted 0x06#5 a b).finished 0x01#8 0) [])

/-! ## Every request -/

/-- 60_exceptions.md R300, R307, R309 and 70_reset_and_hazards.md R341: every request is answered, at once with its code and
no transfer where a check rejects it, else within the longest wait with OK, or with OK_TIMEOUT where RW is wired. -/
def Obligations.EveryRequestIsAnswered : Prop :=
  ∀ (i : Instr) (s : State), AtRest s →
    ∃ T t bus, Serves i s T t bus ∧ T ≤ s.cfg.longestRequest ∧ Inv t
      ∧ (∀ code, s.verdict i = some code → T = 0 ∧ bus = [] ∧ t.rspStatus = code ∧ t.rspData = 0x00#8)
      ∧ (s.verdict i = none → t.rspStatus = 0#3 ∨ (t.rspStatus = 7#3 ∧ s.cfg.rwWired = true))

/-- 10_state.md R39, 70_reset_and_hazards.md R337: what a request puts on the bus is whole register accesses (after INIT's
negotiation), and at its response the mirrors hold the fields of the last command byte of their kind among them. -/
def Obligations.MirrorsFollowTheBus : Prop :=
  ∀ (i : Instr) (s : State), AtRest s →
    ∃ (T : Nat) (t : State) (bus : List Transfer) (accesses : List Access), Serves i s T t bus
      ∧ bus = (if s.ctl = .uninit ∧ i.opcode = 0x01#5 then Config.negotiationBus s.cfg else [])
          ++ accesses.flatMap (Access.bus s.cfg)
      ∧ t.mirrors = accesses.foldl Mirrors.after s.mirrors

/-- 10_state.md R32, R42, 70_reset_and_hazards.md R330, R346: `req_ready` is 1 exactly where no request runs, no response
stands and `rst` is low. So it is 1 at rest, 0 from the accepting edge up to and with the cycle of the response, 1 again in
the next cycle unless the edge between them accepts a request (log 4), and after an edge with `rst` high it is 1 once `rst`
is low. -/
def Obligations.RequestReady : Prop :=
  (∀ s : State, Inv s → (s.reqReady = true ↔ s.running = false ∧ s.rspValid = false ∧ s.port.rst = false))
  ∧ (∀ (i : Instr) (s u : State) (T : Nat) (t : State) (bus : List Transfer), AtRest s → exec i s = .next u →
      Serves i s T t bus →
        s.reqReady = true ∧ (∀ m, m ≤ T → ∃ v, run m u = .next v ∧ v.reqReady = false)
        ∧ (t.port.reqValid = false → ∃ w, step t = .next w ∧ w.reqReady = true))
  ∧ (∀ s : State, s.port.rst = true → s.reqReady = false)
  ∧ (∀ s t : State, s.port.rst = true → step s = .next t → t.reqReady = !t.port.rst)

/-! ## Time -/

/-- 40_transport.md R150: `N(t)` is at least 1 and the least number of cycles that is not shorter than `t`; so a duration is
rounded up by less than a clock period, an exact multiple of the period is exact, and a shorter one is one cycle. -/
def Obligations.DurationsRoundUp : Prop :=
  ∀ (c : Config) (t : Nat), 1 ≤ c.tClkNs →
    1 ≤ c.cycles t ∧ t ≤ c.cycles t * c.tClkNs ∧ (∀ n, 1 ≤ n → t ≤ n * c.tClkNs → c.cycles t ≤ n)
      ∧ (1 ≤ t → c.cycles t * c.tClkNs < t + c.tClkNs)
      ∧ (∀ k, 1 ≤ k → t = k * c.tClkNs → c.cycles t = k) ∧ (t < c.tClkNs → c.cycles t = 1)

/-- 40_transport.md R159, 70_reset_and_hazards.md R335: the electrical minima, in nanoseconds, of every legal
configuration. -/
def Obligations.ElectricalMargins : Prop :=
  ∀ c : Config, c.legal = true →
    450 ≤ c.cycles c.tPwNs * c.tClkNs ∧ 450 ≤ c.cycles c.tRdEhNs * c.tClkNs ∧ 1000 ≤ c.cycles c.tAsNs * c.tClkNs
      ∧ 37000 ≤ c.cycles c.tSettleNs * c.tClkNs ∧ 40000000 ≤ c.cycles c.tPowerOnNs * c.tClkNs
      ∧ 4100000 ≤ c.cycles c.tNeg1Ns * c.tClkNs ∧ 100000 ≤ c.cycles c.tNeg2Ns * c.tClkNs
      ∧ 100000 ≤ c.cycles c.tNeg3Ns * c.tClkNs

/-- 70_reset_and_hazards.md R348, 42_controller_init.md R234: the lengths at 1 MHz with the default timing, for both bus
widths. -/
def Obligations.LengthsAtOneMegahertz : Prop :=
  let four : Config := { busWidth := .four, rwWired := false, lines := 2, cols := 16, tClkNs := 1000 }
  let eight : Config := { four with busWidth := .eight }
  four.writeXferLen = 39 ∧ four.readXferLen = 3 ∧ four.writeLen = 78 ∧ eight.writeLen = 39 ∧ four.readLen = 6
    ∧ eight.readLen = 3 ∧ four.writeLen + four.cycles four.tLongNs = 2078
    ∧ eight.writeLen + eight.cycles eight.tLongNs = 2039
    ∧ four.negotiationLen + 4 * four.writeLen + four.cycles four.tLongNs = 56768
    ∧ eight.negotiationLen + 4 * eight.writeLen + eight.cycles eight.tLongNs = 56573
end

