-- ==== Sys2Proof/Laws/State.lean ====
section
/-! SUPPORT. What each shared update of the state leaves in each field: one lemma per field per update, true by rfl, so
that no later proof unfolds a record update. -/

namespace Sys2Proof.Machine

variable (s : State)

/-! `latch`: the request latch (30_encoding.md R113). -/

@[simp] theorem State.latch_cfg (op : BitVec 5) (a b : Byte) : (s.latch op a b).cfg = s.cfg := rfl
@[simp] theorem State.latch_ctl (op : BitVec 5) (a b : Byte) : (s.latch op a b).ctl = s.ctl := rfl
@[simp] theorem State.latch_fault (op : BitVec 5) (a b : Byte) : (s.latch op a b).fault = s.fault := rfl
@[simp] theorem State.latch_dir (op : BitVec 5) (a b : Byte) : (s.latch op a b).dir = s.dir := rfl
@[simp] theorem State.latch_rs (op : BitVec 5) (a b : Byte) : (s.latch op a b).rs = s.rs := rfl
@[simp] theorem State.latch_rw (op : BitVec 5) (a b : Byte) : (s.latch op a b).rw = s.rw := rfl
@[simp] theorem State.latch_e (op : BitVec 5) (a b : Byte) : (s.latch op a b).e = s.e := rfl
@[simp] theorem State.latch_dO (op : BitVec 5) (a b : Byte) : (s.latch op a b).dO = s.dO := rfl
@[simp] theorem State.latch_fn (op : BitVec 5) (a b : Byte) : (s.latch op a b).fn = s.fn := rfl
@[simp] theorem State.latch_dctl (op : BitVec 5) (a b : Byte) : (s.latch op a b).dctl = s.dctl := rfl
@[simp] theorem State.latch_entry (op : BitVec 5) (a b : Byte) : (s.latch op a b).entry = s.entry := rfl
@[simp] theorem State.latch_busy (op : BitVec 5) (a b : Byte) : (s.latch op a b).busy = true := rfl
@[simp] theorem State.latch_op (op : BitVec 5) (a b : Byte) : (s.latch op a b).op = op := rfl
@[simp] theorem State.latch_a (op : BitVec 5) (a b : Byte) : (s.latch op a b).a = a := rfl
@[simp] theorem State.latch_b (op : BitVec 5) (a b : Byte) : (s.latch op a b).b = b := rfl
@[simp] theorem State.latch_cnt (op : BitVec 5) (a b : Byte) : (s.latch op a b).cnt = s.cnt := rfl
@[simp] theorem State.latch_pos (op : BitVec 5) (a b : Byte) : (s.latch op a b).pos = s.pos := rfl
@[simp] theorem State.latch_rdAcc (op : BitVec 5) (a b : Byte) : (s.latch op a b).rdAcc = s.rdAcc := rfl
@[simp] theorem State.latch_rdKeep (op : BitVec 5) (a b : Byte) : (s.latch op a b).rdKeep = s.rdKeep := rfl
@[simp] theorem State.latch_pollI (op : BitVec 5) (a b : Byte) : (s.latch op a b).pollI = s.pollI := rfl
@[simp] theorem State.latch_tmo (op : BitVec 5) (a b : Byte) : (s.latch op a b).tmo = false := rfl
@[simp] theorem State.latch_rspValid (op : BitVec 5) (a b : Byte) : (s.latch op a b).rspValid = s.rspValid := rfl
@[simp] theorem State.latch_rspStatus (op : BitVec 5) (a b : Byte) : (s.latch op a b).rspStatus = s.rspStatus := rfl
@[simp] theorem State.latch_rspData (op : BitVec 5) (a b : Byte) : (s.latch op a b).rspData = s.rspData := rfl
@[simp] theorem State.latch_port (op : BitVec 5) (a b : Byte) : (s.latch op a b).port = s.port := rfl
@[simp] theorem State.latch_host (op : BitVec 5) (a b : Byte) : (s.latch op a b).host = s.host := rfl
@[simp] theorem State.latch_device (op : BitVec 5) (a b : Byte) : (s.latch op a b).device = s.device := rfl
@[simp] theorem State.latch_draws (op : BitVec 5) (a b : Byte) : (s.latch op a b).draws = s.draws := rfl

/-! `retire`: the edge after a response (30_encoding.md R113). -/

@[simp] theorem State.retire_cfg : s.retire.cfg = s.cfg := rfl
@[simp] theorem State.retire_ctl : s.retire.ctl = s.ctl := rfl
@[simp] theorem State.retire_fault : s.retire.fault = s.fault := rfl
@[simp] theorem State.retire_dir : s.retire.dir = s.dir := rfl
@[simp] theorem State.retire_rs : s.retire.rs = s.rs := rfl
@[simp] theorem State.retire_rw : s.retire.rw = s.rw := rfl
@[simp] theorem State.retire_e : s.retire.e = s.e := rfl
@[simp] theorem State.retire_dO : s.retire.dO = s.dO := rfl
@[simp] theorem State.retire_fn : s.retire.fn = s.fn := rfl
@[simp] theorem State.retire_dctl : s.retire.dctl = s.dctl := rfl
@[simp] theorem State.retire_entry : s.retire.entry = s.entry := rfl
@[simp] theorem State.retire_busy : s.retire.busy = false := rfl
@[simp] theorem State.retire_op : s.retire.op = s.op := rfl
@[simp] theorem State.retire_a : s.retire.a = s.a := rfl
@[simp] theorem State.retire_b : s.retire.b = s.b := rfl
@[simp] theorem State.retire_cnt : s.retire.cnt = s.cnt := rfl
@[simp] theorem State.retire_pos : s.retire.pos = s.pos := rfl
@[simp] theorem State.retire_rdAcc : s.retire.rdAcc = s.rdAcc := rfl
@[simp] theorem State.retire_rdKeep : s.retire.rdKeep = s.rdKeep := rfl
@[simp] theorem State.retire_pollI : s.retire.pollI = s.pollI := rfl
@[simp] theorem State.retire_tmo : s.retire.tmo = s.tmo := rfl
@[simp] theorem State.retire_rspValid : s.retire.rspValid = false := rfl
@[simp] theorem State.retire_rspStatus : s.retire.rspStatus = s.rspStatus := rfl
@[simp] theorem State.retire_rspData : s.retire.rspData = s.rspData := rfl
@[simp] theorem State.retire_port : s.retire.port = s.port := rfl
@[simp] theorem State.retire_host : s.retire.host = s.host := rfl
@[simp] theorem State.retire_device : s.retire.device = s.device := rfl
@[simp] theorem State.retire_draws : s.retire.draws = s.draws := rfl

/-! `respond`: the response (30_encoding.md R113). -/

@[simp] theorem State.respond_cfg (st : Status) (v : Byte) : (s.respond st v).cfg = s.cfg := rfl
@[simp] theorem State.respond_ctl (st : Status) (v : Byte) : (s.respond st v).ctl = s.ctl := rfl
@[simp] theorem State.respond_fault (st : Status) (v : Byte) : (s.respond st v).fault = s.fault := rfl
@[simp] theorem State.respond_dir (st : Status) (v : Byte) : (s.respond st v).dir = s.dir := rfl
@[simp] theorem State.respond_rs (st : Status) (v : Byte) : (s.respond st v).rs = s.rs := rfl
@[simp] theorem State.respond_rw (st : Status) (v : Byte) : (s.respond st v).rw = s.rw := rfl
@[simp] theorem State.respond_e (st : Status) (v : Byte) : (s.respond st v).e = s.e := rfl
@[simp] theorem State.respond_dO (st : Status) (v : Byte) : (s.respond st v).dO = s.dO := rfl
@[simp] theorem State.respond_fn (st : Status) (v : Byte) : (s.respond st v).fn = s.fn := rfl
@[simp] theorem State.respond_dctl (st : Status) (v : Byte) : (s.respond st v).dctl = s.dctl := rfl
@[simp] theorem State.respond_entry (st : Status) (v : Byte) : (s.respond st v).entry = s.entry := rfl
@[simp] theorem State.respond_busy (st : Status) (v : Byte) : (s.respond st v).busy = s.busy := rfl
@[simp] theorem State.respond_op (st : Status) (v : Byte) : (s.respond st v).op = s.op := rfl
@[simp] theorem State.respond_a (st : Status) (v : Byte) : (s.respond st v).a = s.a := rfl
@[simp] theorem State.respond_b (st : Status) (v : Byte) : (s.respond st v).b = s.b := rfl
@[simp] theorem State.respond_cnt (st : Status) (v : Byte) : (s.respond st v).cnt = 0 := rfl
@[simp] theorem State.respond_pos (st : Status) (v : Byte) : (s.respond st v).pos = [] := rfl
@[simp] theorem State.respond_rdAcc (st : Status) (v : Byte) : (s.respond st v).rdAcc = s.rdAcc := rfl
@[simp] theorem State.respond_rdKeep (st : Status) (v : Byte) : (s.respond st v).rdKeep = s.rdKeep := rfl
@[simp] theorem State.respond_pollI (st : Status) (v : Byte) : (s.respond st v).pollI = s.pollI := rfl
@[simp] theorem State.respond_tmo (st : Status) (v : Byte) : (s.respond st v).tmo = s.tmo := rfl
@[simp] theorem State.respond_rspValid (st : Status) (v : Byte) : (s.respond st v).rspValid = true := rfl
@[simp] theorem State.respond_rspStatus (st : Status) (v : Byte) : (s.respond st v).rspStatus = st.code := rfl
@[simp] theorem State.respond_rspData (st : Status) (v : Byte) : (s.respond st v).rspData = v := rfl
@[simp] theorem State.respond_port (st : Status) (v : Byte) : (s.respond st v).port = s.port := rfl
@[simp] theorem State.respond_host (st : Status) (v : Byte) : (s.respond st v).host = s.host := rfl
@[simp] theorem State.respond_device (st : Status) (v : Byte) : (s.respond st v).device = s.device := rfl
@[simp] theorem State.respond_draws (st : Status) (v : Byte) : (s.respond st v).draws = s.draws := rfl

/-! `raiseError`: a rejection (60_exceptions.md R300). -/

@[simp] theorem State.raiseError_cfg (st : Status) : (s.raiseError st).cfg = s.cfg := rfl
@[simp] theorem State.raiseError_ctl (st : Status) : (s.raiseError st).ctl = s.ctl := rfl
@[simp] theorem State.raiseError_fault (st : Status) : (s.raiseError st).fault = s.fault := rfl
@[simp] theorem State.raiseError_dir (st : Status) : (s.raiseError st).dir = s.dir := rfl
@[simp] theorem State.raiseError_rs (st : Status) : (s.raiseError st).rs = s.rs := rfl
@[simp] theorem State.raiseError_rw (st : Status) : (s.raiseError st).rw = s.rw := rfl
@[simp] theorem State.raiseError_e (st : Status) : (s.raiseError st).e = s.e := rfl
@[simp] theorem State.raiseError_dO (st : Status) : (s.raiseError st).dO = s.dO := rfl
@[simp] theorem State.raiseError_fn (st : Status) : (s.raiseError st).fn = s.fn := rfl
@[simp] theorem State.raiseError_dctl (st : Status) : (s.raiseError st).dctl = s.dctl := rfl
@[simp] theorem State.raiseError_entry (st : Status) : (s.raiseError st).entry = s.entry := rfl
@[simp] theorem State.raiseError_busy (st : Status) : (s.raiseError st).busy = s.busy := rfl
@[simp] theorem State.raiseError_op (st : Status) : (s.raiseError st).op = s.op := rfl
@[simp] theorem State.raiseError_a (st : Status) : (s.raiseError st).a = s.a := rfl
@[simp] theorem State.raiseError_b (st : Status) : (s.raiseError st).b = s.b := rfl
@[simp] theorem State.raiseError_cnt (st : Status) : (s.raiseError st).cnt = 0 := rfl
@[simp] theorem State.raiseError_pos (st : Status) : (s.raiseError st).pos = [] := rfl
@[simp] theorem State.raiseError_rdAcc (st : Status) : (s.raiseError st).rdAcc = s.rdAcc := rfl
@[simp] theorem State.raiseError_rdKeep (st : Status) : (s.raiseError st).rdKeep = s.rdKeep := rfl
@[simp] theorem State.raiseError_pollI (st : Status) : (s.raiseError st).pollI = s.pollI := rfl
@[simp] theorem State.raiseError_tmo (st : Status) : (s.raiseError st).tmo = s.tmo := rfl
@[simp] theorem State.raiseError_rspValid (st : Status) : (s.raiseError st).rspValid = true := rfl
@[simp] theorem State.raiseError_rspStatus (st : Status) : (s.raiseError st).rspStatus = st.code := rfl
@[simp] theorem State.raiseError_rspData (st : Status) : (s.raiseError st).rspData = 0x00#8 := rfl
@[simp] theorem State.raiseError_port (st : Status) : (s.raiseError st).port = s.port := rfl
@[simp] theorem State.raiseError_host (st : Status) : (s.raiseError st).host = s.host := rfl
@[simp] theorem State.raiseError_device (st : Status) : (s.raiseError st).device = s.device := rfl
@[simp] theorem State.raiseError_draws (st : Status) : (s.raiseError st).draws = s.draws := rfl

/-! `setLanes`: the data of a write transfer (40_transport.md R153). -/

@[simp] theorem State.setLanes_cfg (v : Byte) : (s.setLanes v).cfg = s.cfg := rfl
@[simp] theorem State.setLanes_ctl (v : Byte) : (s.setLanes v).ctl = s.ctl := rfl
@[simp] theorem State.setLanes_fault (v : Byte) : (s.setLanes v).fault = s.fault := rfl
@[simp] theorem State.setLanes_dir (v : Byte) : (s.setLanes v).dir = s.dir := rfl
@[simp] theorem State.setLanes_rs (v : Byte) : (s.setLanes v).rs = s.rs := rfl
@[simp] theorem State.setLanes_rw (v : Byte) : (s.setLanes v).rw = s.rw := rfl
@[simp] theorem State.setLanes_e (v : Byte) : (s.setLanes v).e = s.e := rfl
@[simp] theorem State.setLanes_dO (v : Byte) : (s.setLanes v).dO = (s.dO &&& ~~~ s.cfg.active) ||| (v &&& s.cfg.active) := rfl
@[simp] theorem State.setLanes_fn (v : Byte) : (s.setLanes v).fn = s.fn := rfl
@[simp] theorem State.setLanes_dctl (v : Byte) : (s.setLanes v).dctl = s.dctl := rfl
@[simp] theorem State.setLanes_entry (v : Byte) : (s.setLanes v).entry = s.entry := rfl
@[simp] theorem State.setLanes_busy (v : Byte) : (s.setLanes v).busy = s.busy := rfl
@[simp] theorem State.setLanes_op (v : Byte) : (s.setLanes v).op = s.op := rfl
@[simp] theorem State.setLanes_a (v : Byte) : (s.setLanes v).a = s.a := rfl
@[simp] theorem State.setLanes_b (v : Byte) : (s.setLanes v).b = s.b := rfl
@[simp] theorem State.setLanes_cnt (v : Byte) : (s.setLanes v).cnt = s.cnt := rfl
@[simp] theorem State.setLanes_pos (v : Byte) : (s.setLanes v).pos = s.pos := rfl
@[simp] theorem State.setLanes_rdAcc (v : Byte) : (s.setLanes v).rdAcc = s.rdAcc := rfl
@[simp] theorem State.setLanes_rdKeep (v : Byte) : (s.setLanes v).rdKeep = s.rdKeep := rfl
@[simp] theorem State.setLanes_pollI (v : Byte) : (s.setLanes v).pollI = s.pollI := rfl
@[simp] theorem State.setLanes_tmo (v : Byte) : (s.setLanes v).tmo = s.tmo := rfl
@[simp] theorem State.setLanes_rspValid (v : Byte) : (s.setLanes v).rspValid = s.rspValid := rfl
@[simp] theorem State.setLanes_rspStatus (v : Byte) : (s.setLanes v).rspStatus = s.rspStatus := rfl
@[simp] theorem State.setLanes_rspData (v : Byte) : (s.setLanes v).rspData = s.rspData := rfl
@[simp] theorem State.setLanes_port (v : Byte) : (s.setLanes v).port = s.port := rfl
@[simp] theorem State.setLanes_host (v : Byte) : (s.setLanes v).host = s.host := rfl
@[simp] theorem State.setLanes_device (v : Byte) : (s.setLanes v).device = s.device := rfl
@[simp] theorem State.setLanes_draws (v : Byte) : (s.setLanes v).draws = s.draws := rfl

/-! `setupWrite`: the setup of a register write (41_register_access.md R180). -/

@[simp] theorem State.setupWrite_cfg (r : Bool) : (s.setupWrite r).cfg = s.cfg := rfl
@[simp] theorem State.setupWrite_ctl (r : Bool) : (s.setupWrite r).ctl = s.ctl := rfl
@[simp] theorem State.setupWrite_fault (r : Bool) : (s.setupWrite r).fault = s.fault := rfl
@[simp] theorem State.setupWrite_dir (r : Bool) : (s.setupWrite r).dir = .write := rfl
@[simp] theorem State.setupWrite_rs (r : Bool) : (s.setupWrite r).rs = r := rfl
@[simp] theorem State.setupWrite_rw (r : Bool) : (s.setupWrite r).rw = if s.cfg.rwWired then false else s.rw := rfl
@[simp] theorem State.setupWrite_e (r : Bool) : (s.setupWrite r).e = s.e := rfl
@[simp] theorem State.setupWrite_dO (r : Bool) : (s.setupWrite r).dO = s.dO := rfl
@[simp] theorem State.setupWrite_fn (r : Bool) : (s.setupWrite r).fn = s.fn := rfl
@[simp] theorem State.setupWrite_dctl (r : Bool) : (s.setupWrite r).dctl = s.dctl := rfl
@[simp] theorem State.setupWrite_entry (r : Bool) : (s.setupWrite r).entry = s.entry := rfl
@[simp] theorem State.setupWrite_busy (r : Bool) : (s.setupWrite r).busy = s.busy := rfl
@[simp] theorem State.setupWrite_op (r : Bool) : (s.setupWrite r).op = s.op := rfl
@[simp] theorem State.setupWrite_a (r : Bool) : (s.setupWrite r).a = s.a := rfl
@[simp] theorem State.setupWrite_b (r : Bool) : (s.setupWrite r).b = s.b := rfl
@[simp] theorem State.setupWrite_cnt (r : Bool) : (s.setupWrite r).cnt = s.cnt := rfl
@[simp] theorem State.setupWrite_pos (r : Bool) : (s.setupWrite r).pos = s.pos := rfl
@[simp] theorem State.setupWrite_rdAcc (r : Bool) : (s.setupWrite r).rdAcc = s.rdAcc := rfl
@[simp] theorem State.setupWrite_rdKeep (r : Bool) : (s.setupWrite r).rdKeep = s.rdKeep := rfl
@[simp] theorem State.setupWrite_pollI (r : Bool) : (s.setupWrite r).pollI = s.pollI := rfl
@[simp] theorem State.setupWrite_tmo (r : Bool) : (s.setupWrite r).tmo = s.tmo := rfl
@[simp] theorem State.setupWrite_rspValid (r : Bool) : (s.setupWrite r).rspValid = s.rspValid := rfl
@[simp] theorem State.setupWrite_rspStatus (r : Bool) : (s.setupWrite r).rspStatus = s.rspStatus := rfl
@[simp] theorem State.setupWrite_rspData (r : Bool) : (s.setupWrite r).rspData = s.rspData := rfl
@[simp] theorem State.setupWrite_port (r : Bool) : (s.setupWrite r).port = s.port := rfl
@[simp] theorem State.setupWrite_host (r : Bool) : (s.setupWrite r).host = s.host := rfl
@[simp] theorem State.setupWrite_device (r : Bool) : (s.setupWrite r).device = s.device := rfl
@[simp] theorem State.setupWrite_draws (r : Bool) : (s.setupWrite r).draws = s.draws := rfl

/-! `setupRead`: the setup of a register read (41_register_access.md R183). -/

@[simp] theorem State.setupRead_cfg (r : Bool) : (s.setupRead r).cfg = s.cfg := rfl
@[simp] theorem State.setupRead_ctl (r : Bool) : (s.setupRead r).ctl = s.ctl := rfl
@[simp] theorem State.setupRead_fault (r : Bool) : (s.setupRead r).fault = s.fault := rfl
@[simp] theorem State.setupRead_dir (r : Bool) : (s.setupRead r).dir = .read := rfl
@[simp] theorem State.setupRead_rs (r : Bool) : (s.setupRead r).rs = r := rfl
@[simp] theorem State.setupRead_rw (r : Bool) : (s.setupRead r).rw = true := rfl
@[simp] theorem State.setupRead_e (r : Bool) : (s.setupRead r).e = s.e := rfl
@[simp] theorem State.setupRead_dO (r : Bool) : (s.setupRead r).dO = s.dO := rfl
@[simp] theorem State.setupRead_fn (r : Bool) : (s.setupRead r).fn = s.fn := rfl
@[simp] theorem State.setupRead_dctl (r : Bool) : (s.setupRead r).dctl = s.dctl := rfl
@[simp] theorem State.setupRead_entry (r : Bool) : (s.setupRead r).entry = s.entry := rfl
@[simp] theorem State.setupRead_busy (r : Bool) : (s.setupRead r).busy = s.busy := rfl
@[simp] theorem State.setupRead_op (r : Bool) : (s.setupRead r).op = s.op := rfl
@[simp] theorem State.setupRead_a (r : Bool) : (s.setupRead r).a = s.a := rfl
@[simp] theorem State.setupRead_b (r : Bool) : (s.setupRead r).b = s.b := rfl
@[simp] theorem State.setupRead_cnt (r : Bool) : (s.setupRead r).cnt = s.cnt := rfl
@[simp] theorem State.setupRead_pos (r : Bool) : (s.setupRead r).pos = s.pos := rfl
@[simp] theorem State.setupRead_rdAcc (r : Bool) : (s.setupRead r).rdAcc = s.rdAcc := rfl
@[simp] theorem State.setupRead_rdKeep (r : Bool) : (s.setupRead r).rdKeep = s.rdKeep := rfl
@[simp] theorem State.setupRead_pollI (r : Bool) : (s.setupRead r).pollI = s.pollI := rfl
@[simp] theorem State.setupRead_tmo (r : Bool) : (s.setupRead r).tmo = s.tmo := rfl
@[simp] theorem State.setupRead_rspValid (r : Bool) : (s.setupRead r).rspValid = s.rspValid := rfl
@[simp] theorem State.setupRead_rspStatus (r : Bool) : (s.setupRead r).rspStatus = s.rspStatus := rfl
@[simp] theorem State.setupRead_rspData (r : Bool) : (s.setupRead r).rspData = s.rspData := rfl
@[simp] theorem State.setupRead_port (r : Bool) : (s.setupRead r).port = s.port := rfl
@[simp] theorem State.setupRead_host (r : Bool) : (s.setupRead r).host = s.host := rfl
@[simp] theorem State.setupRead_device (r : Bool) : (s.setupRead r).device = s.device := rfl
@[simp] theorem State.setupRead_draws (r : Bool) : (s.setupRead r).draws = s.draws := rfl

/-! `sample`: a sample edge (40_transport.md R156). -/

@[simp] theorem State.sample_cfg (p : Part) : (s.sample p).cfg = s.cfg := rfl
@[simp] theorem State.sample_ctl (p : Part) : (s.sample p).ctl = s.ctl := rfl
@[simp] theorem State.sample_fault (p : Part) : (s.sample p).fault = s.fault := rfl
@[simp] theorem State.sample_dir (p : Part) : (s.sample p).dir = s.dir := rfl
@[simp] theorem State.sample_rs (p : Part) : (s.sample p).rs = s.rs := rfl
@[simp] theorem State.sample_rw (p : Part) : (s.sample p).rw = s.rw := rfl
@[simp] theorem State.sample_e (p : Part) : (s.sample p).e = s.e := rfl
@[simp] theorem State.sample_dO (p : Part) : (s.sample p).dO = s.dO := rfl
@[simp] theorem State.sample_fn (p : Part) : (s.sample p).fn = s.fn := rfl
@[simp] theorem State.sample_dctl (p : Part) : (s.sample p).dctl = s.dctl := rfl
@[simp] theorem State.sample_entry (p : Part) : (s.sample p).entry = s.entry := rfl
@[simp] theorem State.sample_busy (p : Part) : (s.sample p).busy = s.busy := rfl
@[simp] theorem State.sample_op (p : Part) : (s.sample p).op = s.op := rfl
@[simp] theorem State.sample_a (p : Part) : (s.sample p).a = s.a := rfl
@[simp] theorem State.sample_b (p : Part) : (s.sample p).b = s.b := rfl
@[simp] theorem State.sample_cnt (p : Part) : (s.sample p).cnt = s.cnt := rfl
@[simp] theorem State.sample_pos (p : Part) : (s.sample p).pos = s.pos := rfl
@[simp] theorem State.sample_rdAcc (p : Part) : (s.sample p).rdAcc = sampleInto s.rdAcc s.lcdDI p := rfl
@[simp] theorem State.sample_rdKeep (p : Part) : (s.sample p).rdKeep = s.rdKeep := rfl
@[simp] theorem State.sample_pollI (p : Part) : (s.sample p).pollI = s.pollI := rfl
@[simp] theorem State.sample_tmo (p : Part) : (s.sample p).tmo = s.tmo := rfl
@[simp] theorem State.sample_rspValid (p : Part) : (s.sample p).rspValid = s.rspValid := rfl
@[simp] theorem State.sample_rspStatus (p : Part) : (s.sample p).rspStatus = s.rspStatus := rfl
@[simp] theorem State.sample_rspData (p : Part) : (s.sample p).rspData = s.rspData := rfl
@[simp] theorem State.sample_port (p : Part) : (s.sample p).port = s.port := rfl
@[simp] theorem State.sample_host (p : Part) : (s.sample p).host = s.host := rfl
@[simp] theorem State.sample_device (p : Part) : (s.sample p).device = s.device.tail := rfl
@[simp] theorem State.sample_draws (p : Part) : (s.sample p).draws = s.draws + 1 := rfl

/-! `hostMoves`: the host's next cycle (log 3). -/

@[simp] theorem State.hostMoves_cfg (ok : Bool) : (s.hostMoves ok).cfg = s.cfg := rfl
@[simp] theorem State.hostMoves_ctl (ok : Bool) : (s.hostMoves ok).ctl = s.ctl := rfl
@[simp] theorem State.hostMoves_fault (ok : Bool) : (s.hostMoves ok).fault = s.fault := rfl
@[simp] theorem State.hostMoves_dir (ok : Bool) : (s.hostMoves ok).dir = s.dir := rfl
@[simp] theorem State.hostMoves_rs (ok : Bool) : (s.hostMoves ok).rs = s.rs := rfl
@[simp] theorem State.hostMoves_rw (ok : Bool) : (s.hostMoves ok).rw = s.rw := rfl
@[simp] theorem State.hostMoves_e (ok : Bool) : (s.hostMoves ok).e = s.e := rfl
@[simp] theorem State.hostMoves_dO (ok : Bool) : (s.hostMoves ok).dO = s.dO := rfl
@[simp] theorem State.hostMoves_fn (ok : Bool) : (s.hostMoves ok).fn = s.fn := rfl
@[simp] theorem State.hostMoves_dctl (ok : Bool) : (s.hostMoves ok).dctl = s.dctl := rfl
@[simp] theorem State.hostMoves_entry (ok : Bool) : (s.hostMoves ok).entry = s.entry := rfl
@[simp] theorem State.hostMoves_busy (ok : Bool) : (s.hostMoves ok).busy = s.busy := rfl
@[simp] theorem State.hostMoves_op (ok : Bool) : (s.hostMoves ok).op = s.op := rfl
@[simp] theorem State.hostMoves_a (ok : Bool) : (s.hostMoves ok).a = s.a := rfl
@[simp] theorem State.hostMoves_b (ok : Bool) : (s.hostMoves ok).b = s.b := rfl
@[simp] theorem State.hostMoves_cnt (ok : Bool) : (s.hostMoves ok).cnt = s.cnt := rfl
@[simp] theorem State.hostMoves_pos (ok : Bool) : (s.hostMoves ok).pos = s.pos := rfl
@[simp] theorem State.hostMoves_rdAcc (ok : Bool) : (s.hostMoves ok).rdAcc = s.rdAcc := rfl
@[simp] theorem State.hostMoves_rdKeep (ok : Bool) : (s.hostMoves ok).rdKeep = s.rdKeep := rfl
@[simp] theorem State.hostMoves_pollI (ok : Bool) : (s.hostMoves ok).pollI = s.pollI := rfl
@[simp] theorem State.hostMoves_tmo (ok : Bool) : (s.hostMoves ok).tmo = s.tmo := rfl
@[simp] theorem State.hostMoves_rspValid (ok : Bool) : (s.hostMoves ok).rspValid = s.rspValid := rfl
@[simp] theorem State.hostMoves_rspStatus (ok : Bool) : (s.hostMoves ok).rspStatus = s.rspStatus := rfl
@[simp] theorem State.hostMoves_rspData (ok : Bool) : (s.hostMoves ok).rspData = s.rspData := rfl
@[simp] theorem State.hostMoves_port (ok : Bool) : (s.hostMoves ok).port = s.nextPort ok := rfl
@[simp] theorem State.hostMoves_host (ok : Bool) : (s.hostMoves ok).host = s.host.tail := rfl
@[simp] theorem State.hostMoves_device (ok : Bool) : (s.hostMoves ok).device = s.device := rfl
@[simp] theorem State.hostMoves_draws (ok : Bool) : (s.hostMoves ok).draws = s.draws := rfl

/-! Signals and phases. -/

@[simp] theorem State.retire_running : s.retire.running = false := rfl
@[simp] theorem State.hostMoves_running (ok : Bool) : (s.hostMoves ok).running = s.running := rfl

/-! `countPoll` and `timeOut`: a poll's exit test (41_register_access.md R189). -/

@[simp] theorem State.countPoll_cfg : s.countPoll.cfg = s.cfg := rfl
@[simp] theorem State.countPoll_ctl : s.countPoll.ctl = s.ctl := rfl
@[simp] theorem State.countPoll_fault : s.countPoll.fault = s.fault := rfl
@[simp] theorem State.countPoll_dir : s.countPoll.dir = s.dir := rfl
@[simp] theorem State.countPoll_rs : s.countPoll.rs = s.rs := rfl
@[simp] theorem State.countPoll_rw : s.countPoll.rw = s.rw := rfl
@[simp] theorem State.countPoll_e : s.countPoll.e = s.e := rfl
@[simp] theorem State.countPoll_dO : s.countPoll.dO = s.dO := rfl
@[simp] theorem State.countPoll_fn : s.countPoll.fn = s.fn := rfl
@[simp] theorem State.countPoll_dctl : s.countPoll.dctl = s.dctl := rfl
@[simp] theorem State.countPoll_entry : s.countPoll.entry = s.entry := rfl
@[simp] theorem State.countPoll_busy : s.countPoll.busy = s.busy := rfl
@[simp] theorem State.countPoll_op : s.countPoll.op = s.op := rfl
@[simp] theorem State.countPoll_a : s.countPoll.a = s.a := rfl
@[simp] theorem State.countPoll_b : s.countPoll.b = s.b := rfl
@[simp] theorem State.countPoll_cnt : s.countPoll.cnt = s.cnt := rfl
@[simp] theorem State.countPoll_pos : s.countPoll.pos = s.pos := rfl
@[simp] theorem State.countPoll_rdAcc : s.countPoll.rdAcc = s.rdAcc := rfl
@[simp] theorem State.countPoll_rdKeep : s.countPoll.rdKeep = s.rdKeep := rfl
@[simp] theorem State.countPoll_pollI : s.countPoll.pollI = s.pollI + 1 := rfl
@[simp] theorem State.countPoll_tmo : s.countPoll.tmo = s.tmo := rfl
@[simp] theorem State.countPoll_rspValid : s.countPoll.rspValid = s.rspValid := rfl
@[simp] theorem State.countPoll_rspStatus : s.countPoll.rspStatus = s.rspStatus := rfl
@[simp] theorem State.countPoll_rspData : s.countPoll.rspData = s.rspData := rfl
@[simp] theorem State.countPoll_port : s.countPoll.port = s.port := rfl
@[simp] theorem State.countPoll_host : s.countPoll.host = s.host := rfl
@[simp] theorem State.countPoll_device : s.countPoll.device = s.device := rfl
@[simp] theorem State.countPoll_draws : s.countPoll.draws = s.draws := rfl
@[simp] theorem State.timeOut_cfg : s.timeOut.cfg = s.cfg := rfl
@[simp] theorem State.timeOut_ctl : s.timeOut.ctl = s.ctl := rfl
@[simp] theorem State.timeOut_fault : s.timeOut.fault = s.fault := rfl
@[simp] theorem State.timeOut_dir : s.timeOut.dir = s.dir := rfl
@[simp] theorem State.timeOut_rs : s.timeOut.rs = s.rs := rfl
@[simp] theorem State.timeOut_rw : s.timeOut.rw = s.rw := rfl
@[simp] theorem State.timeOut_e : s.timeOut.e = s.e := rfl
@[simp] theorem State.timeOut_dO : s.timeOut.dO = s.dO := rfl
@[simp] theorem State.timeOut_fn : s.timeOut.fn = s.fn := rfl
@[simp] theorem State.timeOut_dctl : s.timeOut.dctl = s.dctl := rfl
@[simp] theorem State.timeOut_entry : s.timeOut.entry = s.entry := rfl
@[simp] theorem State.timeOut_busy : s.timeOut.busy = s.busy := rfl
@[simp] theorem State.timeOut_op : s.timeOut.op = s.op := rfl
@[simp] theorem State.timeOut_a : s.timeOut.a = s.a := rfl
@[simp] theorem State.timeOut_b : s.timeOut.b = s.b := rfl
@[simp] theorem State.timeOut_cnt : s.timeOut.cnt = s.cnt := rfl
@[simp] theorem State.timeOut_pos : s.timeOut.pos = s.pos := rfl
@[simp] theorem State.timeOut_rdAcc : s.timeOut.rdAcc = s.rdAcc := rfl
@[simp] theorem State.timeOut_rdKeep : s.timeOut.rdKeep = s.rdKeep := rfl
@[simp] theorem State.timeOut_pollI : s.timeOut.pollI = s.pollI := rfl
@[simp] theorem State.timeOut_tmo : s.timeOut.tmo = true := rfl
@[simp] theorem State.timeOut_rspValid : s.timeOut.rspValid = s.rspValid := rfl
@[simp] theorem State.timeOut_rspStatus : s.timeOut.rspStatus = s.rspStatus := rfl
@[simp] theorem State.timeOut_rspData : s.timeOut.rspData = s.rspData := rfl
@[simp] theorem State.timeOut_port : s.timeOut.port = s.port := rfl
@[simp] theorem State.timeOut_host : s.timeOut.host = s.host := rfl
@[simp] theorem State.timeOut_device : s.timeOut.device = s.device := rfl
@[simp] theorem State.timeOut_draws : s.timeOut.draws = s.draws := rfl

/-! `drive`: a phase's assignments touch the pins and `dir` alone (40_transport.md R151). -/

@[simp] theorem State.drive_cfg (d : Drive) : (s.drive d).cfg = s.cfg := by rcases d with _ | ⟨_ | _, _⟩ | ⟨_ | _⟩ | _ | _ | _ <;> rfl
@[simp] theorem State.drive_ctl (d : Drive) : (s.drive d).ctl = s.ctl := by rcases d with _ | ⟨_ | _, _⟩ | ⟨_ | _⟩ | _ | _ | _ <;> rfl
@[simp] theorem State.drive_fault (d : Drive) : (s.drive d).fault = s.fault := by rcases d with _ | ⟨_ | _, _⟩ | ⟨_ | _⟩ | _ | _ | _ <;> rfl
@[simp] theorem State.drive_fn (d : Drive) : (s.drive d).fn = s.fn := by rcases d with _ | ⟨_ | _, _⟩ | ⟨_ | _⟩ | _ | _ | _ <;> rfl
@[simp] theorem State.drive_dctl (d : Drive) : (s.drive d).dctl = s.dctl := by rcases d with _ | ⟨_ | _, _⟩ | ⟨_ | _⟩ | _ | _ | _ <;> rfl
@[simp] theorem State.drive_entry (d : Drive) : (s.drive d).entry = s.entry := by rcases d with _ | ⟨_ | _, _⟩ | ⟨_ | _⟩ | _ | _ | _ <;> rfl
@[simp] theorem State.drive_busy (d : Drive) : (s.drive d).busy = s.busy := by rcases d with _ | ⟨_ | _, _⟩ | ⟨_ | _⟩ | _ | _ | _ <;> rfl
@[simp] theorem State.drive_op (d : Drive) : (s.drive d).op = s.op := by rcases d with _ | ⟨_ | _, _⟩ | ⟨_ | _⟩ | _ | _ | _ <;> rfl
@[simp] theorem State.drive_a (d : Drive) : (s.drive d).a = s.a := by rcases d with _ | ⟨_ | _, _⟩ | ⟨_ | _⟩ | _ | _ | _ <;> rfl
@[simp] theorem State.drive_b (d : Drive) : (s.drive d).b = s.b := by rcases d with _ | ⟨_ | _, _⟩ | ⟨_ | _⟩ | _ | _ | _ <;> rfl
@[simp] theorem State.drive_cnt (d : Drive) : (s.drive d).cnt = s.cnt := by rcases d with _ | ⟨_ | _, _⟩ | ⟨_ | _⟩ | _ | _ | _ <;> rfl
@[simp] theorem State.drive_pos (d : Drive) : (s.drive d).pos = s.pos := by rcases d with _ | ⟨_ | _, _⟩ | ⟨_ | _⟩ | _ | _ | _ <;> rfl
@[simp] theorem State.drive_rdAcc (d : Drive) : (s.drive d).rdAcc = s.rdAcc := by rcases d with _ | ⟨_ | _, _⟩ | ⟨_ | _⟩ | _ | _ | _ <;> rfl
@[simp] theorem State.drive_rdKeep (d : Drive) : (s.drive d).rdKeep = s.rdKeep := by rcases d with _ | ⟨_ | _, _⟩ | ⟨_ | _⟩ | _ | _ | _ <;> rfl
@[simp] theorem State.drive_pollI (d : Drive) : (s.drive d).pollI = s.pollI := by rcases d with _ | ⟨_ | _, _⟩ | ⟨_ | _⟩ | _ | _ | _ <;> rfl
@[simp] theorem State.drive_tmo (d : Drive) : (s.drive d).tmo = s.tmo := by rcases d with _ | ⟨_ | _, _⟩ | ⟨_ | _⟩ | _ | _ | _ <;> rfl
@[simp] theorem State.drive_rspValid (d : Drive) : (s.drive d).rspValid = s.rspValid := by rcases d with _ | ⟨_ | _, _⟩ | ⟨_ | _⟩ | _ | _ | _ <;> rfl
@[simp] theorem State.drive_rspStatus (d : Drive) : (s.drive d).rspStatus = s.rspStatus := by rcases d with _ | ⟨_ | _, _⟩ | ⟨_ | _⟩ | _ | _ | _ <;> rfl
@[simp] theorem State.drive_rspData (d : Drive) : (s.drive d).rspData = s.rspData := by rcases d with _ | ⟨_ | _, _⟩ | ⟨_ | _⟩ | _ | _ | _ <;> rfl
@[simp] theorem State.drive_port (d : Drive) : (s.drive d).port = s.port := by rcases d with _ | ⟨_ | _, _⟩ | ⟨_ | _⟩ | _ | _ | _ <;> rfl
@[simp] theorem State.drive_host (d : Drive) : (s.drive d).host = s.host := by rcases d with _ | ⟨_ | _, _⟩ | ⟨_ | _⟩ | _ | _ | _ <;> rfl
@[simp] theorem State.drive_device (d : Drive) : (s.drive d).device = s.device := by rcases d with _ | ⟨_ | _, _⟩ | ⟨_ | _⟩ | _ | _ | _ <;> rfl
@[simp] theorem State.drive_draws (d : Drive) : (s.drive d).draws = s.draws := by rcases d with _ | ⟨_ | _, _⟩ | ⟨_ | _⟩ | _ | _ | _ <;> rfl

/-! `act`: an action touches `ctl`, a mirror, `rd_keep` or `poll_i` alone. -/

@[simp] theorem State.act_cfg (x : Act) : (s.act x).cfg = s.cfg := by cases x <;> rfl
@[simp] theorem State.act_fault (x : Act) : (s.act x).fault = s.fault := by cases x <;> rfl
@[simp] theorem State.act_dir (x : Act) : (s.act x).dir = s.dir := by cases x <;> rfl
@[simp] theorem State.act_rs (x : Act) : (s.act x).rs = s.rs := by cases x <;> rfl
@[simp] theorem State.act_rw (x : Act) : (s.act x).rw = s.rw := by cases x <;> rfl
@[simp] theorem State.act_e (x : Act) : (s.act x).e = s.e := by cases x <;> rfl
@[simp] theorem State.act_dO (x : Act) : (s.act x).dO = s.dO := by cases x <;> rfl
@[simp] theorem State.act_busy (x : Act) : (s.act x).busy = s.busy := by cases x <;> rfl
@[simp] theorem State.act_op (x : Act) : (s.act x).op = s.op := by cases x <;> rfl
@[simp] theorem State.act_a (x : Act) : (s.act x).a = s.a := by cases x <;> rfl
@[simp] theorem State.act_b (x : Act) : (s.act x).b = s.b := by cases x <;> rfl
@[simp] theorem State.act_cnt (x : Act) : (s.act x).cnt = s.cnt := by cases x <;> rfl
@[simp] theorem State.act_pos (x : Act) : (s.act x).pos = s.pos := by cases x <;> rfl
@[simp] theorem State.act_rdAcc (x : Act) : (s.act x).rdAcc = s.rdAcc := by cases x <;> rfl
@[simp] theorem State.act_tmo (x : Act) : (s.act x).tmo = s.tmo := by cases x <;> rfl
@[simp] theorem State.act_rspValid (x : Act) : (s.act x).rspValid = s.rspValid := by cases x <;> rfl
@[simp] theorem State.act_rspStatus (x : Act) : (s.act x).rspStatus = s.rspStatus := by cases x <;> rfl
@[simp] theorem State.act_rspData (x : Act) : (s.act x).rspData = s.rspData := by cases x <;> rfl
@[simp] theorem State.act_port (x : Act) : (s.act x).port = s.port := by cases x <;> rfl
@[simp] theorem State.act_host (x : Act) : (s.act x).host = s.host := by cases x <;> rfl
@[simp] theorem State.act_device (x : Act) : (s.act x).device = s.device := by cases x <;> rfl
@[simp] theorem State.act_draws (x : Act) : (s.act x).draws = s.draws := by cases x <;> rfl

/-! `startPhase`: the assignments, the cycles and what is left. -/

@[simp] theorem State.startPhase_cnt (d : Drive) (n : Nat) (r : List Item) : (s.startPhase d n r).cnt = n := rfl
@[simp] theorem State.startPhase_pos (d : Drive) (n : Nat) (r : List Item) : (s.startPhase d n r).pos = r := rfl
@[simp] theorem State.startPhase_cfg (d : Drive) (n : Nat) (r : List Item) : (s.startPhase d n r).cfg = (s.drive d).cfg := rfl
@[simp] theorem State.startPhase_ctl (d : Drive) (n : Nat) (r : List Item) : (s.startPhase d n r).ctl = (s.drive d).ctl := rfl
@[simp] theorem State.startPhase_fault (d : Drive) (n : Nat) (r : List Item) : (s.startPhase d n r).fault = (s.drive d).fault := rfl
@[simp] theorem State.startPhase_dir (d : Drive) (n : Nat) (r : List Item) : (s.startPhase d n r).dir = (s.drive d).dir := rfl
@[simp] theorem State.startPhase_rs (d : Drive) (n : Nat) (r : List Item) : (s.startPhase d n r).rs = (s.drive d).rs := rfl
@[simp] theorem State.startPhase_rw (d : Drive) (n : Nat) (r : List Item) : (s.startPhase d n r).rw = (s.drive d).rw := rfl
@[simp] theorem State.startPhase_e (d : Drive) (n : Nat) (r : List Item) : (s.startPhase d n r).e = (s.drive d).e := rfl
@[simp] theorem State.startPhase_dO (d : Drive) (n : Nat) (r : List Item) : (s.startPhase d n r).dO = (s.drive d).dO := rfl
@[simp] theorem State.startPhase_fn (d : Drive) (n : Nat) (r : List Item) : (s.startPhase d n r).fn = (s.drive d).fn := rfl
@[simp] theorem State.startPhase_dctl (d : Drive) (n : Nat) (r : List Item) : (s.startPhase d n r).dctl = (s.drive d).dctl := rfl
@[simp] theorem State.startPhase_entry (d : Drive) (n : Nat) (r : List Item) : (s.startPhase d n r).entry = (s.drive d).entry := rfl
@[simp] theorem State.startPhase_busy (d : Drive) (n : Nat) (r : List Item) : (s.startPhase d n r).busy = (s.drive d).busy := rfl
@[simp] theorem State.startPhase_op (d : Drive) (n : Nat) (r : List Item) : (s.startPhase d n r).op = (s.drive d).op := rfl
@[simp] theorem State.startPhase_a (d : Drive) (n : Nat) (r : List Item) : (s.startPhase d n r).a = (s.drive d).a := rfl
@[simp] theorem State.startPhase_b (d : Drive) (n : Nat) (r : List Item) : (s.startPhase d n r).b = (s.drive d).b := rfl
@[simp] theorem State.startPhase_rdAcc (d : Drive) (n : Nat) (r : List Item) : (s.startPhase d n r).rdAcc = (s.drive d).rdAcc := rfl
@[simp] theorem State.startPhase_rdKeep (d : Drive) (n : Nat) (r : List Item) : (s.startPhase d n r).rdKeep = (s.drive d).rdKeep := rfl
@[simp] theorem State.startPhase_pollI (d : Drive) (n : Nat) (r : List Item) : (s.startPhase d n r).pollI = (s.drive d).pollI := rfl
@[simp] theorem State.startPhase_tmo (d : Drive) (n : Nat) (r : List Item) : (s.startPhase d n r).tmo = (s.drive d).tmo := rfl
@[simp] theorem State.startPhase_rspValid (d : Drive) (n : Nat) (r : List Item) : (s.startPhase d n r).rspValid = (s.drive d).rspValid := rfl
@[simp] theorem State.startPhase_rspStatus (d : Drive) (n : Nat) (r : List Item) : (s.startPhase d n r).rspStatus = (s.drive d).rspStatus := rfl
@[simp] theorem State.startPhase_rspData (d : Drive) (n : Nat) (r : List Item) : (s.startPhase d n r).rspData = (s.drive d).rspData := rfl
@[simp] theorem State.startPhase_port (d : Drive) (n : Nat) (r : List Item) : (s.startPhase d n r).port = (s.drive d).port := rfl
@[simp] theorem State.startPhase_host (d : Drive) (n : Nat) (r : List Item) : (s.startPhase d n r).host = (s.drive d).host := rfl
@[simp] theorem State.startPhase_device (d : Drive) (n : Nat) (r : List Item) : (s.startPhase d n r).device = (s.drive d).device := rfl
@[simp] theorem State.startPhase_draws (d : Drive) (n : Nat) (r : List Item) : (s.startPhase d n r).draws = (s.drive d).draws := rfl

end Sys2Proof.Machine
end

