-- ==== Sys2Proof/Laws/Run.lean ====
section
/-! SUPPORT. The sequencer in one statement: edge by edge the machine follows the course of its phase sequence
(`advance_follows_course`), with what the sequencer keeps and how the host moves on beside it. -/

namespace Sys2Proof.Machine

/-! ## The sequencer -/

theorem pollAgain_eq (s : State) (rest : List Item) :
    s.pollAgain rest = State.advance (memRead s.cfg false ++ .pollTest :: rest) s := by
  unfold State.pollAgain memRead readXfer
  cases s.cfg.busWidth <;> rfl

theorem pollAgain_forgets (s : State) (rest : List Item) (n : Nat) (p : List Item) :
    State.pollAgain { s with cnt := n, pos := p } rest = s.pollAgain rest := by
  unfold State.pollAgain memRead readXfer
  cases s.cfg.busWidth <;> rfl

/-- What the sequencer does next does not depend on what it did last: `cnt` and `pos` are written anew. -/
theorem advance_forgets (items : List Item) (s : State) (n : Nat) (p : List Item) :
    State.advance items { s with cnt := n, pos := p } = State.advance items s := by
  induction items generalizing s with
  | nil => rfl
  | cons i rest ih =>
    cases i with
    | phase d k => rcases d with _ | ⟨_ | _, _⟩ | ⟨_ | _⟩ | _ | _ | _ <;> rfl
    | sample q => exact ih (s.sample q)
    | act x => have h := ih (s.act x); cases x <;> exact h
    | pollTest =>
      have h := congr (congrArg (ite (s.rdAcc.getLsbD 7 = false)) (ih s.countPoll))
        (congr (congrArg (ite (s.countPoll.pollI = s.cfg.pollMax)) (ih s.countPoll.timeOut))
          (pollAgain_forgets s.countPoll rest n p))
      exact h
    | respond src => cases src <;> rfl

/-- What the sequencer keeps, whatever it does: the configuration, the request latch, `fault` and the host's pins. -/
structure SameRequest (s t : State) : Prop where
  cfg : t.cfg = s.cfg
  fault : t.fault = s.fault
  busy : t.busy = s.busy
  op : t.op = s.op
  a : t.a = s.a
  b : t.b = s.b
  port : t.port = s.port
  host : t.host = s.host

theorem SameRequest.trans {s t u : State} (h : SameRequest s t) (k : SameRequest t u) : SameRequest s u :=
  ⟨k.cfg.trans h.cfg, k.fault.trans h.fault, k.busy.trans h.busy, k.op.trans h.op, k.a.trans h.a, k.b.trans h.b,
    k.port.trans h.port, k.host.trans h.host⟩

theorem drive_same (s : State) (d : Drive) : SameRequest s (s.drive d) := by constructor <;> simp
theorem act_same (s : State) (x : Act) : SameRequest s (s.act x) := by constructor <;> simp
theorem sample_same (s : State) (p : Part) : SameRequest s (s.sample p) := by constructor <;> rfl

theorem startPhase_same (s : State) (d : Drive) (n : Nat) (r : List Item) : SameRequest s (s.startPhase d n r) := by
  constructor <;> simp

theorem pollAgain_same (s : State) (rest : List Item) : SameRequest s (s.pollAgain rest) := by
  unfold State.pollAgain memRead readXfer
  cases s.cfg.busWidth <;> exact startPhase_same ..

theorem advance_same (items : List Item) (s : State) : SameRequest s (State.advance items s) := by
  induction items generalizing s with
  | nil => constructor <;> rfl
  | cons i rest ih =>
    cases i with
    | phase d k => exact startPhase_same s d k rest
    | sample q => exact (sample_same s q).trans (ih _)
    | act x => exact (act_same s x).trans (ih _)
    | pollTest =>
      have hs : SameRequest s s.countPoll := by constructor <;> rfl
      have ht : SameRequest s s.countPoll.timeOut := by constructor <;> rfl
      simp only [State.advance]
      split
      · exact hs.trans (ih _)
      · split
        · exact ht.trans (ih _)
        · exact hs.trans (pollAgain_same _ rest)
    | respond src => constructor <;> rfl

@[simp] theorem advance_cfg (items : List Item) (s : State) : (State.advance items s).cfg = s.cfg :=
  (advance_same items s).cfg

@[simp] theorem advance_busy (items : List Item) (s : State) : (State.advance items s).busy = s.busy :=
  (advance_same items s).busy

/-! ## The host's pins move on beside the request -/

theorem waited_succ (n : Nat) (s : State) : s.waited (n + 1) = (s.hostMoves false).waited n := rfl

theorem waited_add (m n : Nat) (s : State) : s.waited (m + n) = (s.waited m).waited n := by
  induction m generalizing s with
  | zero => simp [State.waited]
  | succ m ih => rw [Nat.succ_add, waited_succ, waited_succ, ih]

theorem drive_hostMoves (s : State) (d : Drive) (ok : Bool) :
    (s.drive d).hostMoves ok = (s.hostMoves ok).drive d := by
  rcases d with _ | ⟨_ | _, _⟩ | ⟨_ | _⟩ | _ | _ | _ <;> rfl

theorem act_hostMoves (s : State) (x : Act) (ok : Bool) : (s.act x).hostMoves ok = (s.hostMoves ok).act x := by
  cases x <;> rfl

theorem drive_waited (s : State) (d : Drive) (n : Nat) : (s.drive d).waited n = (s.waited n).drive d := by
  induction n generalizing s with
  | zero => rfl
  | succ n ih => rw [waited_succ, waited_succ, drive_hostMoves, ih]

theorem act_waited (s : State) (x : Act) (n : Nat) : (s.act x).waited n = (s.waited n).act x := by
  induction n generalizing s with
  | zero => rfl
  | succ n ih => rw [waited_succ, waited_succ, act_hostMoves, ih]

theorem sample_waited (s : State) (p : Part) (n : Nat) : (s.sample p).waited n = (s.waited n).sample p := by
  induction n generalizing s with
  | zero => rfl
  | succ n ih =>
    rw [waited_succ, waited_succ, ← ih]
    rfl

/-- Waiting changes the host's pins and nothing else. -/
theorem waited_eq (n : Nat) (s : State) : s.waited n = { s with port := (s.waited n).port, host := (s.waited n).host } := by
  induction n generalizing s with
  | zero => rfl
  | succ n ih =>
    rw [waited_succ]
    exact ih (s.hostMoves false)

/-! ## A run of edges -/

theorem run_add (m n : Nat) (s t : State) (h : run m s = .next t) : run (m + n) s = run n t := by
  induction m generalizing s with
  | zero =>
    simp only [run, Host.Outcome.next.injEq] at h
    subst h
    simp
  | succ m ih =>
    rw [Nat.succ_add]
    simp only [run] at h ⊢
    cases hs : step s with
    | next u => rw [hs] at h; exact ih u h
    | fault r => rw [hs] at h; cases h
    | refused r => rw [hs] at h; cases h

theorem transfers_add (m n : Nat) (s t : State) (h : run m s = .next t) :
    transfers (m + n) s = transfers m s ++ transfers n t := by
  induction m generalizing s with
  | zero =>
    simp only [run, Host.Outcome.next.injEq] at h
    subst h
    simp [transfers]
  | succ m ih =>
    rw [Nat.succ_add]
    simp only [run] at h
    cases hs : step s with
    | next u =>
      rw [hs] at h
      simp only [transfers, hs, ih u h, List.append_assoc]
    | fault r => rw [hs] at h; cases h
    | refused r => rw [hs] at h; cases h

theorem NoReset.moves {s : State} (h : NoReset s) (ok : Bool) : NoReset (s.hostMoves ok) := by
  obtain ⟨h1, h2⟩ := h
  constructor
  · simp only [State.hostMoves_port, State.nextPort]
    cases hh : s.host with
    | nil => rfl
    | cons p ps => exact h2 p (by simp [hh])
  · intro p hp
    exact h2 p (List.mem_of_mem_tail hp)

theorem NoReset.waited {s : State} (h : NoReset s) (n : Nat) : NoReset (s.waited n) := by
  induction n generalizing s with
  | zero => exact h
  | succ n ih => exact ih (h.moves false)

/-- A running request under a host that raises no reset, in a state of a legal configuration. -/
structure Going (s : State) : Prop where
  legal : s.cfg.legal = true
  noReset : NoReset s
  running : s.running = true

theorem Going.moves {s : State} (h : Going s) : Going (s.hostMoves false) :=
  ⟨h.legal, h.noReset.moves false, h.running⟩

theorem Going.step_eq {s : State} (h : Going s) (hp : s.pos ≠ []) : step s = .next s.runEdge := by
  unfold step
  rw [if_pos h.legal, h.noReset.1, h.running]
  cases hs : s.pos with
  | nil => exact absurd hs hp
  | cons i r => rfl

theorem waited_put (k : Nat) (s : State) (n : Nat) (p : List Item) :
    State.waited k { s with cnt := n, pos := p } = { s.waited k with cnt := n, pos := p } := by
  induction k generalizing s with
  | zero => rfl
  | succ k ih => exact ih (s.hostMoves false)

theorem advance_put_waited (items : List Item) (k : Nat) (s : State) (n : Nat) (p : List Item) :
    State.advance items (State.waited k { s with cnt := n, pos := p }) = State.advance items (s.waited k) := by
  rw [waited_put, advance_forgets]

theorem pulseBetween_congr {s s' t t' : State} (h : s.e = s'.e) (ht : t.e = t'.e) (hx : t.transfer = t'.transfer) :
    pulseBetween s t = pulseBetween s' t' := by
  simp [pulseBetween, h, ht, hx]

/-- A phase of which `n + 1` cycles are left: it holds every pin for them and then the sequencer advances. -/
theorem run_phase (n : Nat) (s : State) (h : Going s) (hp : s.pos ≠ []) (hc : s.cnt = n + 1) :
    run (n + 1) s = .next (State.advance s.pos (s.waited (n + 1)))
      ∧ (∀ m, m < n + 1 → ∃ v, run m s = .next v ∧ v.running = true)
      ∧ transfers (n + 1) s = pulseBetween s (State.advance s.pos (s.waited (n + 1))) := by
  induction n generalizing s with
  | zero =>
    have hs := h.step_eq hp
    have he : s.runEdge = State.advance s.pos (s.waited 1) := by
      simp [State.runEdge, hc, State.waited]
    refine ⟨by simp [run, hs, he], ?_, by simp [transfers, hs, he]⟩
    intro m hm
    obtain rfl : m = 0 := by omega
    exact ⟨s, rfl, h.running⟩
  | succ n ih =>
    have hs := h.step_eq hp
    set t : State := { s.hostMoves false with cnt := n + 1, pos := s.pos } with ht
    have he : s.runEdge = t := by simp [State.runEdge, hc, ht]
    have hg : Going t := ⟨h.legal, h.noReset.moves false, h.running⟩
    obtain ⟨h1, h2, h3⟩ := ih t hg hp rfl
    have hw : State.advance t.pos (t.waited (n + 1)) = State.advance s.pos (s.waited (n + 1 + 1)) := by
      rw [waited_succ (n + 1) s, ht, advance_put_waited]
    rw [hw] at h1 h3
    have hq : pulseBetween s t = [] := by
      have : t.e = s.e := rfl
      simp [pulseBetween, this]
    refine ⟨by simp only [run, hs, he] at h1 ⊢; exact h1, ?_, ?_⟩
    · intro m hm
      cases m with
      | zero => exact ⟨s, rfl, h.running⟩
      | succ m =>
        obtain ⟨v, hv, hr⟩ := h2 m (by omega)
        exact ⟨v, by simp only [run, hs, he]; exact hv, hr⟩
    · rw [transfers, hs, he]
      simp only [hq, List.nil_append, h3]
      exact pulseBetween_congr rfl rfl rfl

/-! ## A request's course -/

/-- The rest of a phase sequence can run to its response: it ends in one, every phase lasts a cycle, and a poll's exit
test comes with its counter below the ceiling (`fresh`). -/
def canRun (c : Config) : Bool → List Item → Bool
  | _, [] => false
  | f, .phase _ n :: rest => decide (1 ≤ n) && canRun c f rest
  | f, .sample _ :: rest => canRun c f rest
  | _, .act .pollZero :: rest => canRun c (decide (0 < c.pollMax)) rest
  | f, .act _ :: rest => canRun c f rest
  | f, .pollTest :: rest => f && canRun c false rest
  | _, .respond _ :: _ => true

theorem canRun_ne_nil {c : Config} {f : Bool} {items : List Item} (h : canRun c f items = true) : items ≠ [] := by
  rintro rfl
  simp [canRun] at h

theorem canRun_mono (c : Config) (items : List Item) (h : canRun c false items = true) :
    canRun c true items = true := by
  induction items with
  | nil => simp [canRun] at h
  | cons i rest ih =>
    cases i with
    | phase d n => simp only [canRun, Bool.and_eq_true] at h ⊢; exact ⟨h.1, ih h.2⟩
    | sample q => exact ih h
    | act x => cases x <;> first | exact ih h | exact h
    | pollTest => simp [canRun] at h
    | respond src => rfl

theorem waited_e (n : Nat) (s : State) : (s.waited n).e = s.e := by rw [waited_eq]
theorem waited_cfg (n : Nat) (s : State) : (s.waited n).cfg = s.cfg := by rw [waited_eq]
theorem waited_pollI (n : Nat) (s : State) : (s.waited n).pollI = s.pollI := by rw [waited_eq]
theorem waited_rdAcc (n : Nat) (s : State) : (s.waited n).rdAcc = s.rdAcc := by rw [waited_eq]
theorem waited_running (n : Nat) (s : State) : (s.waited n).running = s.running := by rw [waited_eq]; rfl
theorem waited_transfer (n : Nat) (s : State) : (s.waited n).transfer = s.transfer := by rw [waited_eq]; rfl

theorem Going.waited {s : State} (h : Going s) (n : Nat) : Going (s.waited n) :=
  ⟨by rw [waited_cfg]; exact h.legal, h.noReset.waited n, by rw [waited_running]; exact h.running⟩

/-- `Going` depends on the configuration, the request flags and the host's pins alone. -/
theorem Going.congr {s t : State} (h : Going s) (hc : t.cfg = s.cfg) (hb : t.busy = s.busy)
    (hv : t.rspValid = s.rspValid) (hp : t.port = s.port) (hh : t.host = s.host) : Going t := by
  refine ⟨by rw [hc]; exact h.legal, ?_, ?_⟩
  · unfold NoReset; rw [hp, hh]; exact h.noReset
  · have := h.running
    unfold State.running at this ⊢
    rw [hb, hv]; exact this

/-- A course under a host that has moved on by `n` cycles. -/
def Course.waited (c : Course) (n : Nat) : Course := { c with last := c.last.waited n }

theorem pulse_waited (s t : State) (n : Nat) : pulseBetween (s.waited n) (t.waited n) = pulseBetween s t :=
  pulseBetween_congr (waited_e n s) (waited_e n t) (waited_transfer n t)

theorem straight_waited (items : List Item) (s : State) (n : Nat) :
    straight items (s.waited n) = (straight items s).waited n := by
  induction items generalizing s with
  | nil => rfl
  | cons i rest ih =>
    cases i with
    | phase d k =>
      simp only [straight, Course.andThen, ← drive_waited, ih, pulse_waited]
      rfl
    | sample q => simp only [straight, ← sample_waited, ih]
    | act x => simp only [straight, ← act_waited, ih]
    | pollTest => simp only [straight, ih]
    | respond src => simp only [straight, ih]

theorem countPoll_waited (n : Nat) (s : State) : s.countPoll.waited n = (s.waited n).countPoll := by
  induction n generalizing s with
  | zero => rfl
  | succ n ih => exact ih (s.hostMoves false)

theorem timeOut_waited (n : Nat) (s : State) : s.timeOut.waited n = (s.waited n).timeOut := by
  induction n generalizing s with
  | zero => rfl
  | succ n ih => exact ih (s.hostMoves false)

theorem pollCourse_waited (fuel : Nat) (s : State) (n : Nat) :
    pollCourse fuel (s.waited n) = (pollCourse fuel s).waited n := by
  induction fuel generalizing s with
  | zero => rfl
  | succ fuel ih =>
    simp only [pollCourse, waited_rdAcc, waited_cfg, ← countPoll_waited, ← timeOut_waited, waited_pollI]
    split
    · rfl
    · split
      · rfl
      · rw [straight_waited]
        simp only [Course.andThen, Course.waited, ih]

theorem respond_waited (s : State) (st : Status) (v : Byte) (n : Nat) :
    (s.respond st v).waited n = (s.waited n).respond st v := by
  induction n generalizing s with
  | zero => rfl
  | succ n ih => exact ih (s.hostMoves false)

theorem course_waited (items : List Item) (s : State) (n : Nat) :
    course items (s.waited n) = (course items s).waited n := by
  induction items generalizing s with
  | nil => simp only [course, Course.waited, ← waited_put]
  | cons i rest ih =>
    cases i with
    | phase d k =>
      simp only [course, Course.andThen, ← drive_waited, ih, pulse_waited]
      rfl
    | sample q => simp only [course, ← sample_waited, ih]
    | act x => simp only [course, ← act_waited, ih]
    | pollTest =>
      simp only [course, waited_cfg, waited_pollI, pollCourse_waited, Course.andThen, Course.waited, ih]
    | respond src =>
      have h1 : (s.waited n).endStatus = s.endStatus := by rw [waited_eq]; rfl
      have h2 : (s.waited n).answerByte src = s.answerByte src := by rw [waited_eq]; cases src <;> rfl
      simp only [course, Course.waited, h1, h2, ← respond_waited]

/-- From the state `u`, one edge after `s`, the machine goes through the course `c`: it runs for its cycles, then stands
in its last state, and ENABLE rises as `c` says. -/
structure Follows (s u : State) (c : Course) : Prop where
  ends : run c.cycles u = .next (c.last.waited c.cycles)
  goes : ∀ m, m < c.cycles → ∃ v, run m u = .next v ∧ v.running = true
  bus : pulseBetween s u ++ transfers c.cycles u = c.bus

theorem Follows.congr {s s' u : State} {c : Course} (h : Follows s u c) (he : s'.e = s.e) : Follows s' u c :=
  ⟨h.ends, h.goes, by rw [← h.bus, pulseBetween_congr he rfl rfl]⟩

theorem follows_phase {s : State} {d : Drive} {n : Nat} {rest : List Item} {f : State → Course} (hg : Going s)
    (hn : 1 ≤ n) (hr : rest ≠ []) (hf : f ((s.drive d).waited n) = (f (s.drive d)).waited n)
    (hk : Follows ((s.drive d).waited n) (State.advance rest ((s.drive d).waited n)) (f ((s.drive d).waited n))) :
    Follows s (State.advance (.phase d n :: rest) s)
      (Course.andThen { cycles := n, bus := pulseBetween s (s.drive d), last := s.drive d } f) := by
  obtain ⟨k, rfl⟩ : ∃ k, n = k + 1 := ⟨n - 1, by omega⟩
  set u := s.startPhase d (k + 1) rest with hu
  have hgu : Going u := hg.congr (by simp [hu]) (by simp [hu]) (by simp [hu]) (by simp [hu]) (by simp [hu])
  obtain ⟨h1, h2, h3⟩ := run_phase k u hgu hr rfl
  have hw : State.advance u.pos (u.waited (k + 1)) = State.advance rest ((s.drive d).waited (k + 1)) :=
    advance_put_waited rest (k + 1) (s.drive d) (k + 1) rest
  rw [hw] at h1 h3
  rw [hf] at hk
  obtain ⟨e1, e2, e3⟩ := hk
  refine ⟨?_, ?_, ?_⟩
  · show run (k + 1 + (f (s.drive d)).cycles) u = _
    rw [run_add _ _ _ _ h1]
    simp only [Course.waited] at e1
    rw [e1]
    simp only [Course.andThen, waited_add]
  · intro m hm
    by_cases hlt : m < k + 1
    · exact h2 m hlt
    · obtain ⟨j, rfl⟩ : ∃ j, m = k + 1 + j := ⟨m - (k + 1), by omega⟩
      show ∃ v, run (k + 1 + j) u = _ ∧ _
      rw [run_add _ _ _ _ h1]
      exact e2 j (by simp only [Course.andThen] at hm; simp only [Course.waited]; omega)
  · show pulseBetween s u ++ transfers (k + 1 + (f (s.drive d)).cycles) u = _
    rw [transfers_add _ _ _ _ h1, h3]
    simp only [Course.waited] at e3
    rw [pulseBetween_congr (s := u) (s' := (s.drive d).waited (k + 1)) (by rw [waited_e]; rfl) rfl rfl, e3]
    rfl

/-- Phases and samples alone, each phase of at least one cycle. -/
def isTransfer : List Item → Bool
  | [] => true
  | .phase _ n :: rest => decide (1 ≤ n) && isTransfer rest
  | .sample _ :: rest => isTransfer rest
  | .act _ :: _ => false
  | .pollTest :: _ => false
  | .respond _ :: _ => false

theorem follows_transfer (l : List Item) (K : List Item) (hK : K ≠ []) (f : State → Course)
    (hf : ∀ t n, f (State.waited n t) = (f t).waited n) (s : State) (hl : isTransfer l = true) (hg : Going s)
    (hk : ∀ t : State, Going t → t.cfg = s.cfg → t.pollI = s.pollI → Follows t (State.advance K t) (f t)) :
    Follows s (State.advance (l ++ K) s) ((straight l s).andThen f) := by
  induction l generalizing s with
  | nil =>
    have := hk s hg rfl rfl
    simpa [straight, Course.andThen] using this
  | cons i rest ih =>
    cases i with
    | phase d n =>
      simp only [isTransfer, Bool.and_eq_true, decide_eq_true_eq] at hl
      have hd : Going (s.drive d) := hg.congr (by simp) (by simp) (by simp) (by simp) (by simp)
      have := follows_phase (s := s) (d := d) (n := n) (rest := rest ++ K)
        (f := fun t => (straight rest t).andThen f) hg hl.1 (by simp [hK])
        (by simp only [straight_waited, Course.andThen, Course.waited, hf])
        (ih ((s.drive d).waited n) hl.2 (hd.waited n) fun t ht hc hp =>
          hk t ht (by rw [hc, waited_cfg, State.drive_cfg]) (by rw [hp, waited_pollI, State.drive_pollI]))
      simpa [straight, Course.andThen, Nat.add_assoc] using this
    | sample q =>
      have hd : Going (s.sample q) := hg.congr rfl rfl rfl rfl rfl
      exact (ih (s.sample q) hl hd fun t ht hc hp => hk t ht hc hp).congr rfl
    | act x => simp [isTransfer] at hl
    | pollTest => simp [isTransfer] at hl
    | respond src => simp [isTransfer] at hl

theorem cycles_pos (c : Config) (t : Nat) : 1 ≤ c.cycles t := Nat.le_max_left ..

theorem memRead_isTransfer (c : Config) (rs : Bool) : isTransfer (memRead c rs) = true := by
  unfold memRead readXfer
  cases c.busWidth <;> simp [isTransfer, cycles_pos]

theorem follows_poll (rest : List Item)
    (ih : ∀ t : State, Going t → canRun t.cfg (decide (t.pollI < t.cfg.pollMax)) rest = true →
      Follows t (State.advance rest t) (course rest t)) (fuel : Nat) (s : State) (hg : Going s)
    (hc : canRun s.cfg false rest = true) (hfuel : s.pollI + fuel = s.cfg.pollMax) (hpos : 0 < fuel) :
    Follows s (State.advance (.pollTest :: rest) s) ((pollCourse fuel s).andThen (course rest)) := by
  induction fuel generalizing s with
  | zero => omega
  | succ fuel ihf =>
    have hgo : ∀ t : State, Going t → t.cfg = s.cfg → Follows t (State.advance rest t) (course rest t) := by
      intro t ht hcfg
      refine ih t ht ?_
      rw [hcfg]
      cases decide (t.pollI < s.cfg.pollMax)
      · exact hc
      · exact canRun_mono _ _ hc
    simp only [State.advance, pollCourse]
    split
    · have := hgo s.countPoll (hg.congr rfl rfl rfl rfl rfl) rfl
      simpa [Course.andThen] using this.congr (s' := s) rfl
    · split
      · have := hgo s.countPoll.timeOut (hg.congr rfl rfl rfl rfl rfl) rfl
        simpa [Course.andThen] using this.congr (s' := s) rfl
      · rename_i hne
        rw [pollAgain_eq]
        have hcomm : ∀ (t : State) (n : Nat), (pollCourse fuel (State.waited n t)).andThen (course rest)
            = ((pollCourse fuel t).andThen (course rest)).waited n := by
          intro t n
          simp only [pollCourse_waited, Course.andThen, Course.waited, course_waited]
        have := follows_transfer (memRead s.cfg false) (.pollTest :: rest) (by simp)
          (fun t => (pollCourse fuel t).andThen (course rest)) hcomm s.countPoll
          (memRead_isTransfer ..) (hg.congr rfl rfl rfl rfl rfl) (by
            intro t ht hcfg hp
            have hcfg' : t.cfg = s.cfg := hcfg
            have hp' : t.pollI = s.pollI + 1 := hp
            have hne' : ¬ s.pollI + 1 = s.cfg.pollMax := hne
            exact ihf t ht (by rw [hcfg']; exact hc) (by rw [hcfg', hp']; omega) (by omega))
        simpa [Course.andThen, Nat.add_assoc] using this.congr (s' := s) rfl

/-- The machine, edge by edge, follows the course of its phase sequence: this is the whole sequencer in one statement. -/
theorem advance_follows_course (items : List Item) (s : State) (hg : Going s)
    (hc : canRun s.cfg (decide (s.pollI < s.cfg.pollMax)) items = true) :
    Follows s (State.advance items s) (course items s) := by
  induction items generalizing s with
  | nil => simp [canRun] at hc
  | cons i rest ih =>
    cases i with
    | phase d n =>
      simp only [canRun, Bool.and_eq_true, decide_eq_true_eq] at hc
      have hd : Going (s.drive d) := hg.congr (by simp) (by simp) (by simp) (by simp) (by simp)
      exact follows_phase hg hc.1 (canRun_ne_nil hc.2) (course_waited ..)
        (ih _ (hd.waited n) (by rw [waited_cfg, waited_pollI, State.drive_cfg, State.drive_pollI]; exact hc.2))
    | sample q => exact (ih (s.sample q) (hg.congr rfl rfl rfl rfl rfl) hc).congr rfl
    | act x =>
      have hd : Going (s.act x) := hg.congr (by simp) (by simp) (by simp) (by simp) (by simp)
      have hx : canRun s.cfg (decide ((s.act x).pollI < s.cfg.pollMax)) rest = true := by cases x <;> exact hc
      exact (ih (s.act x) hd (by rw [State.act_cfg]; exact hx)).congr (by simp)
    | pollTest =>
      simp only [canRun, Bool.and_eq_true, decide_eq_true_eq] at hc
      exact follows_poll rest ih _ s hg hc.2 (by omega) (by omega)
    | respond src =>
      refine ⟨?_, by intro m hm; simp [course] at hm, ?_⟩
      · simp [course, run, State.advance, State.waited]
      · simp [course, transfers, State.advance, pulseBetween, State.respond]

end Sys2Proof.Machine
end

