-- ==== Sys2Proof/Laws/Access.lean ====
section
/-! SUPPORT. The register accesses and the poll in closed form: the cycles, the bus and the registers of a register write,
a register read and a poll (41_register_access.md R180, R183, R189). -/

namespace Sys2Proof.Machine

theorem course_transfer_append (l K : List Item) (s : State) (h : isTransfer l = true) :
    course (l ++ K) s = (straight l s).andThen (course K) := by
  induction l generalizing s with
  | nil => simp [straight, Course.andThen]
  | cons i rest ih =>
    cases i with
    | phase d n =>
      simp only [isTransfer, Bool.and_eq_true] at h
      simp only [List.cons_append, course, straight, ih _ h.2, Course.andThen, Nat.add_assoc, List.append_assoc]
    | sample p => exact ih _ h
    | act a => simp [isTransfer] at h
    | pollTest => simp [isTransfer] at h
    | respond src => simp [isTransfer] at h

theorem memWrite_isTransfer (c : Config) (rs : Bool) (v : Byte) : isTransfer (memWrite c rs v) = true := by
  unfold memWrite writeXfer
  cases c.busWidth <;> simp [isTransfer, cycles_pos]

theorem delay_isTransfer (c : Config) (t : Nat) : isTransfer (delay c t) = true := by
  simp [delay, isTransfer, cycles_pos]

/-- A bitwise fact about bytes, bit by bit. -/
theorem byte_ext {v w : Byte} (h0 : v.getLsbD 0 = w.getLsbD 0) (h1 : v.getLsbD 1 = w.getLsbD 1)
    (h2 : v.getLsbD 2 = w.getLsbD 2) (h3 : v.getLsbD 3 = w.getLsbD 3) (h4 : v.getLsbD 4 = w.getLsbD 4)
    (h5 : v.getLsbD 5 = w.getLsbD 5) (h6 : v.getLsbD 6 = w.getLsbD 6) (h7 : v.getLsbD 7 = w.getLsbD 7) : v = w := by
  apply BitVec.eq_of_getLsbD_eq
  intro i hi
  have : i = 0 ∨ i = 1 ∨ i = 2 ∨ i = 3 ∨ i = 4 ∨ i = 5 ∨ i = 6 ∨ i = 7 := by omega
  rcases this with rfl | rfl | rfl | rfl | rfl | rfl | rfl | rfl <;> assumption

theorem sample_nibbles (acc v w : Byte) :
    sampleInto (sampleInto acc v .high) w .low = (v.lo <<< 4) ||| w.lo := by
  apply byte_ext <;> simp [sampleInto, Byte.lo]

theorem lanes_high (d v : Byte) (h : d &&& 0xF0#8 = 0#8) : (d &&& 0xF0#8 ||| v.hi &&& 0x0F#8) = v.hi := by
  rw [h]
  apply byte_ext <;> simp [Byte.hi]

theorem lanes_low (v w : Byte) : (v.hi &&& 0xF0#8 ||| w.lo &&& 0x0F#8) = w.lo := by
  apply byte_ext <;> simp [Byte.hi, Byte.lo]

theorem lo_masked (v : Byte) : v.lo &&& 0x0F#8 = v.lo := by
  apply byte_ext <;> simp [Byte.lo]

theorem hi_masked (v : Byte) : v.hi &&& 0x0F#8 = v.hi := by
  apply byte_ext <;> simp [Byte.hi]

theorem byte_masked (v : Byte) : v &&& 0xFF#8 = v := by
  apply byte_ext <;> simp

/-! ## A register write -/

/-- What the pins must be for an access to start: ENABLE low, the unused lanes 0, RW low where it is not wired. -/
structure PinsOk (s : State) : Prop where
  low : s.e = false
  unused : s.dO &&& ~~~ s.cfg.active = 0#8
  unwired : s.cfg.rwWired = false → s.rw = false

theorem straight_memWrite (s : State) (rs : Bool) (v : Byte) (h : PinsOk s) :
    straight (memWrite s.cfg rs v) s
      = { cycles := s.cfg.writeLen, bus := writeBus s.cfg rs v, last := s.afterWrite rs v } := by
  obtain ⟨he, hd, hw⟩ := h
  have hrw : (if s.cfg.rwWired then false else s.rw) = false := by
    cases hx : s.cfg.rwWired
    · simp [hw hx]
    · rfl
  unfold memWrite
  cases hb : s.cfg.busWidth with
  | four =>
    have hd' : s.dO &&& 0xF0#8 = 0#8 := by simpa [Config.active, hb] using hd
    have e1 : (s.dO &&& ~~~ 0x0F#8) ||| (v.hi &&& 0x0F#8) = v.hi := lanes_high _ v hd'
    have e2 : (v.hi &&& ~~~ 0x0F#8) ||| (v.lo &&& 0x0F#8) = v.lo := lanes_low v v
    simp only [straight, writeXfer, Course.andThen, hb, State.drive, pulseBetween, he, State.transfer, State.setupWrite,
      State.setLanes, Config.writeLen, writeBus, State.dOe, State.afterWrite, hrw, Config.active, Config.writeXferLen,
      e1, e2, List.cons_append, List.nil_append, Bool.not_false, Bool.and_false, Bool.and_true, Bool.not_true,
      Bool.false_eq_true, if_false, if_true, List.append_nil]
    rw [hi_masked, lo_masked]
    congr 1
    omega
  | eight =>
    simp [straight, writeXfer, Course.andThen, hb, State.drive, pulseBetween, he, State.transfer, State.setupWrite,
      State.setLanes, Config.writeLen, writeBus, State.dOe, State.afterWrite, hrw, Config.active, Config.writeXferLen,
      byte_masked]
    omega

theorem afterWrite_pins (s : State) (rs : Bool) (v : Byte) : PinsOk (s.afterWrite rs v) := by
  refine ⟨rfl, ?_, fun _ => rfl⟩
  cases hb : s.cfg.busWidth
  · simp only [State.afterWrite, hb, Config.active]
    apply byte_ext <;> simp [Byte.lo]
  · simp [State.afterWrite, hb, Config.active]

/-! ## Register reads -/

theorem lcdDI_eq_draw (s t : State) (k : Nat) (h1 : t.device = s.device.drop k) (h2 : t.draws = s.draws + k) :
    t.lcdDI = s.draw k := by
  unfold State.lcdDI State.draw
  rw [h1, h2]
  cases h : s.device.drop k with
  | nil =>
    have : s.device.length ≤ k := List.drop_eq_nil_iff.mp h
    simp [List.getD_eq_getElem?_getD, List.getElem?_eq_none this]
  | cons v vs =>
    have hl : k < s.device.length := by
      by_contra hc
      rw [List.drop_eq_nil_of_le (by omega)] at h
      cases h
    have : s.device[k]? = some v := by
      have := List.getElem?_drop (xs := s.device) (i := k) (j := 0)
      rw [h] at this
      simpa using this.symm
    simp [List.getD_eq_getElem?_getD, this]

theorem draw_shift (s t : State) (k j : Nat) (h1 : t.device = s.device.drop k) (h2 : t.draws = s.draws + k) :
    t.draw j = s.draw (k + j) := by
  unfold State.draw
  rw [h1, h2, List.getD_eq_getElem?_getD, List.getD_eq_getElem?_getD, List.getElem?_drop, Nat.add_assoc]

theorem byteRead_shift (s t : State) (n m : Nat) (hc : t.cfg = s.cfg)
    (h1 : t.device = s.device.drop (Config.pulses s.cfg * n)) (h2 : t.draws = s.draws + Config.pulses s.cfg * n) :
    t.byteRead m = s.byteRead (n + m) := by
  unfold State.byteRead
  rw [hc]
  cases hb : s.cfg.busWidth
  · simp only [draw_shift s t _ _ h1 h2, Config.pulses, hb]
    rw [show 2 * n + 2 * m = 2 * (n + m) by omega, show 2 * n + (2 * m + 1) = 2 * (n + m) + 1 by omega]
  · simp only [draw_shift s t _ _ h1 h2, Config.pulses, hb, Nat.one_mul]

theorem straight_memRead (s : State) (rs : Bool) (he : s.e = false) :
    straight (memRead s.cfg rs) s
      = { cycles := s.cfg.readLen, bus := readBus s.cfg rs 1, last := s.afterReads rs 0 } := by
  unfold memRead
  cases hb : s.cfg.busWidth with
  | four =>
    simp [straight, readXfer, Course.andThen, hb, State.drive, pulseBetween, he, State.transfer, State.setupRead,
      Config.readLen, readBus, State.dOe, State.afterReads, Config.readXferLen, Config.pulses, State.sample,
      sample_nibbles, State.byteRead]
    refine ⟨by omega, ?_, ?_⟩
    · congr 2
      · rw [lcdDI_eq_draw s _ 0] <;> simp
      · rw [lcdDI_eq_draw s _ 1] <;> simp
    · cases s.device with
      | nil => rfl
      | cons a l => cases l <;> rfl
  | eight =>
    simp [straight, readXfer, Course.andThen, hb, State.drive, pulseBetween, he, State.transfer, State.setupRead,
      Config.readLen, readBus, State.dOe, State.afterReads, Config.readXferLen, Config.pulses, State.sample,
      State.byteRead, sampleInto]
    refine ⟨by omega, ?_⟩
    rw [lcdDI_eq_draw s _ 0] <;> simp

/-- One more read after `n + 1` reads. -/
theorem afterReads_again (s : State) (r rs : Bool) (n : Nat) :
    (s.afterReads r n).afterReads rs 0 = s.afterReads rs (n + 1) := by
  have hb : (s.afterReads r n).byteRead 0 = s.byteRead (n + 1) := byteRead_shift s _ (n + 1) 0 rfl rfl rfl
  have e1 : Config.pulses s.cfg * (n + 1) + Config.pulses s.cfg * (0 + 1) = Config.pulses s.cfg * (n + 1 + 1) := by ring
  have e2 : s.draws + Config.pulses s.cfg * (n + 1) + Config.pulses s.cfg * (0 + 1)
      = s.draws + Config.pulses s.cfg * (n + 1 + 1) := by ring
  unfold State.afterReads at hb ⊢
  simp only [hb, List.drop_drop, e1, e2]

theorem readBus_add (c : Config) (rs : Bool) (m n : Nat) :
    readBus c rs m ++ readBus c rs n = readBus c rs (m + n) := by
  simp [readBus, Nat.mul_add]

/-- `n + 1` reads done, `n` of them counted: the registers at a poll's exit test. -/
def State.inPoll (s : State) (n : Nat) : State := { s.afterReads false n with pollI := n }

theorem inPoll_again (s : State) (n : Nat) :
    ((s.inPoll n).countPoll).afterReads false 0 = s.inPoll (n + 1) := by
  have h := congrArg (fun t : State => { t with pollI := n + 1 }) (afterReads_again s false false n)
  exact h

theorem straight_inPoll (s : State) (n : Nat) :
    straight (memRead s.cfg false) (s.inPoll n).countPoll
      = { cycles := s.cfg.readLen, bus := readBus s.cfg false 1, last := s.inPoll (n + 1) } := by
  rw [← inPoll_again]
  exact straight_memRead (s.inPoll n).countPoll false rfl

/-- A poll after its first `n + 1` reads, the first `n` of them busy: it ends as `PollEnds` says. -/
theorem pollCourse_ends (s : State) (fuel n : Nat) (hf : n + fuel = s.cfg.pollMax) (hpos : 0 < fuel)
    (hbusy : ∀ m, m < n → (s.byteRead m).getLsbD 7 = true) :
    ∃ k, PollEnds s 0 (n + k) ∧
      pollCourse fuel (s.inPoll n)
        = { cycles := k * s.cfg.readLen, bus := readBus s.cfg false k, last := s.afterPoll (n + k) } := by
  induction fuel generalizing n with
  | zero => omega
  | succ fuel ih =>
    have h1 : (s.inPoll n).rdAcc = s.byteRead n := rfl
    have h2 : (s.inPoll n).cfg = s.cfg := rfl
    have h3 : (s.inPoll n).countPoll.pollI = n + 1 := rfl
    simp only [pollCourse, h1, h2, h3]
    by_cases hb : (s.byteRead n).getLsbD 7 = false
    · refine ⟨0, ⟨by omega, by simpa using hbusy, .inl (by simpa using hb)⟩, ?_⟩
      rw [if_pos hb]
      simp only [Nat.zero_mul, Nat.add_zero, readBus, Nat.mul_zero, List.replicate_zero, State.afterPoll,
        State.timedOut, hb, Bool.or_false]
      rfl
    · have hb' : (s.byteRead n).getLsbD 7 = true := by simpa using hb
      rw [if_neg hb]
      by_cases hm : n + 1 = s.cfg.pollMax
      · refine ⟨0, ⟨by omega, by simpa using hbusy, .inr (by omega)⟩, ?_⟩
        rw [if_pos hm]
        simp only [Nat.zero_mul, Nat.add_zero, readBus, Nat.mul_zero, List.replicate_zero, State.afterPoll,
          State.timedOut, hb', Bool.or_true]
        rfl
      · obtain ⟨k, hk, hrun⟩ := ih (n + 1) (by omega) (by omega) (by
          intro m hlt
          by_cases h : m = n
          · subst h; exact hb'
          · exact hbusy m (by omega))
        refine ⟨k + 1, by rwa [show n + (k + 1) = n + 1 + k by omega], ?_⟩
        rw [if_neg hm, straight_inPoll]
        simp only [Course.andThen, hrun, readBus_add]
        rw [show n + (k + 1) = n + 1 + k by omega, show 1 + k = k + 1 by omega,
          show s.cfg.readLen + k * s.cfg.readLen = (k + 1) * s.cfg.readLen by ring]

end Sys2Proof.Machine
end

