-- ==== Sys2Proof/Laws/Course.lean ====
section
/-! SUPPORT. The completion wait and the requests in closed form: from `exec` to the response, with the cycles, the bus and
the registers (30_encoding.md R113, 41_register_access.md R188 to R199, 43_command_api.md R250). -/

namespace Sys2Proof.Machine

theorem pollEnds_congr {s t : State} {k f n : Nat} (hc : t.cfg = s.cfg)
    (h1 : t.device = s.device.drop (Config.pulses s.cfg * k)) (h2 : t.draws = s.draws + Config.pulses s.cfg * k) :
    PollEnds t f n ↔ PollEnds s (k + f) n := by
  unfold PollEnds
  simp only [byteRead_shift s t k _ hc h1 h2, hc, Nat.add_assoc]

theorem course_poll (s : State) (he : s.e = false) (hm : 1 ≤ s.cfg.pollMax) :
    ∃ n, PollEnds s 0 n ∧ ∀ K, course (poll s.cfg ++ K) s
      = Course.andThen { cycles := (n + 1) * s.cfg.readLen, bus := readBus s.cfg false (n + 1), last := s.afterPoll n }
          (course K) := by
  have hr : straight (memRead s.cfg false) (s.act .pollZero)
      = { cycles := s.cfg.readLen, bus := readBus s.cfg false 1, last := s.inPoll 0 } :=
    straight_memRead (s.act .pollZero) false he
  obtain ⟨n, hn, hp⟩ := pollCourse_ends s s.cfg.pollMax 0 (by omega) (by omega) (by omega)
  rw [Nat.zero_add] at hn hp
  refine ⟨n, hn, fun K => ?_⟩
  show course ((memRead s.cfg false ++ [.pollTest]) ++ K) (s.act .pollZero) = _
  rw [List.append_assoc, course_transfer_append _ _ _ (memRead_isTransfer ..), hr]
  have hc : (s.inPoll 0).cfg = s.cfg := rfl
  have h0 : (s.inPoll 0).pollI = 0 := rfl
  simp only [List.singleton_append, course, Course.andThen, hc, h0, Nat.sub_zero, hp]
  rw [show (n + 1) * s.cfg.readLen = s.cfg.readLen + n * s.cfg.readLen by ring, Nat.add_comm n 1,
    ← readBus_add s.cfg false 1 n, Nat.add_assoc, List.append_assoc]

theorem course_wait_unwired (K : List Item) (s : State) (long : Bool) (h : s.cfg.rwWired = false) :
    course (completionWait s.cfg long ++ K) s
      = Course.andThen { cycles := if long then s.cfg.cycles s.cfg.tLongNs else 0, bus := [], last := s } (course K) := by
  cases long <;> simp [completionWait, h, delay, course, Course.andThen, State.drive, pulseBetween]

theorem course_wait_wired (s : State) (long : Bool) (h : s.cfg.rwWired = true) (he : s.e = false)
    (hm : 1 ≤ s.cfg.pollMax) :
    ∃ n, PollEnds s 0 n ∧ ∀ K, course (completionWait s.cfg long ++ K) s
      = Course.andThen { cycles := (n + 1) * s.cfg.readLen, bus := readBus s.cfg false (n + 1), last := s.afterPoll n }
          (course K) := by
  have : completionWait s.cfg long = poll s.cfg := by simp [completionWait, h]
  rw [this]
  exact course_poll s he hm

theorem course_memWrite (K : List Item) (s : State) (rs : Bool) (v : Byte) (h : PinsOk s) :
    course (memWrite s.cfg rs v ++ K) s
      = Course.andThen { cycles := s.cfg.writeLen, bus := writeBus s.cfg rs v, last := s.afterWrite rs v }
          (course K) := by
  rw [course_transfer_append _ _ _ (memWrite_isTransfer ..), straight_memWrite s rs v h]

theorem course_memRead (K : List Item) (s : State) (rs : Bool) (he : s.e = false) :
    course (memRead s.cfg rs ++ K) s
      = Course.andThen { cycles := s.cfg.readLen, bus := readBus s.cfg rs 1, last := s.afterReads rs 0 }
          (course K) := by
  rw [course_transfer_append _ _ _ (memRead_isTransfer ..), straight_memRead s rs he]

theorem respond_finished (s : State) (src : Answer) (T : Nat) :
    (s.respond s.endStatus (s.answerByte src)).waited T = s.finished (s.answerByte src) T := by
  unfold State.finished State.respond State.endStatus
  cases s.tmo <;> rfl

theorem canRun_append (c : Config) (f : Bool) (l K : List Item) (hl : isTransfer l = true) :
    canRun c f (l ++ K) = canRun c f K := by
  induction l with
  | nil => rfl
  | cons i rest ih =>
    cases i with
    | phase d n =>
      simp only [isTransfer, Bool.and_eq_true, decide_eq_true_eq] at hl
      simp [canRun, hl.1, ih hl.2]
    | sample q => exact ih hl
    | act x => simp [isTransfer] at hl
    | pollTest => simp [isTransfer] at hl
    | respond src => simp [isTransfer] at hl

theorem canRun_wait (c : Config) (f long : Bool) (K : List Item) (hm : 1 ≤ c.pollMax) (hK : canRun c false K = true) :
    canRun c f (completionWait c long ++ K) = true := by
  have hKf : canRun c f K = true := by
    cases f
    · exact hK
    · exact canRun_mono _ _ hK
  unfold completionWait
  split
  · unfold poll
    simp only [List.cons_append, List.append_assoc, canRun]
    rw [canRun_append _ _ _ _ (memRead_isTransfer ..)]
    simp only [List.nil_append, canRun, Bool.and_eq_true, decide_eq_true_eq]
    exact ⟨by omega, hK⟩
  · split
    · rw [canRun_append _ _ _ _ (delay_isTransfer ..)]
      exact hKf
    · exact hKf

/-- A request whose phase sequence starts at its accepting edge is served as its course says. -/
theorem serves_of_course {i : Instr} {s u : State} {items : List Item} (hx : exec i s = .next (State.advance items u))
    (hg : Going u) (hc : canRun u.cfg (decide (u.pollI < u.cfg.pollMax)) items = true)
    (he : pulseBetween u (State.advance items u) = []) (hr : (course items u).last.rspValid = true) :
    Serves i s (course items u).cycles ((course items u).last.waited (course items u).cycles) (course items u).bus := by
  obtain ⟨h1, h2, h3⟩ := advance_follows_course items u hg hc
  refine ⟨_, hx, h1, ?_, h2, ?_⟩
  · rw [waited_eq]; exact hr
  · rw [he] at h3; exact h3

theorem advance_memWrite_e (c : Config) (rs : Bool) (v : Byte) (K : List Item) (s : State) :
    (State.advance (memWrite c rs v ++ K) s).e = false := by
  unfold memWrite writeXfer
  cases c.busWidth <;> rfl

theorem advance_memRead_e (c : Config) (rs : Bool) (K : List Item) (s : State) :
    (State.advance (memRead c rs ++ K) s).e = false := by
  unfold memRead readXfer
  cases c.busWidth <;> rfl

theorem pulse_low {s t : State} (h : t.e = false) : pulseBetween s t = [] := by simp [pulseBetween, h]

/-- What a request needs of the state after its accepting edge's own writes to be served. -/
structure Accepted (s u : State) : Prop where
  going : Going u
  pins : PinsOk u
  cfg : u.cfg = s.cfg
  device : u.device = s.device
  draws : u.draws = s.draws
  pollMax : 1 ≤ s.cfg.pollMax

theorem write_runs {i : Instr} {s u : State} {rs : Bool} {v : Byte} {long : Bool} (h : Accepted s u)
    (hx : exec i s = .next (State.advance
      ((memWrite u.cfg rs v ++ completionWait u.cfg long) ++ [.respond (.const 0x00#8)]) u)) :
    WriteRuns i s u rs v long := by
  obtain ⟨hg, hp, hcfg, hd, hw, hm⟩ := h
  have hm' : 1 ≤ u.cfg.pollMax := by rw [hcfg]; exact hm
  rw [List.append_assoc] at hx
  have hrun := serves_of_course hx hg (by
      rw [canRun_append _ _ _ _ (memWrite_isTransfer ..)]
      exact canRun_wait _ _ _ _ hm' rfl) (pulse_low (advance_memWrite_e ..))
  rw [course_memWrite _ _ _ _ hp] at hrun
  have hac : (u.afterWrite rs v).cfg = u.cfg := rfl
  constructor
  · intro hwired
    have hk := course_wait_unwired [.respond (.const 0x00#8)] (u.afterWrite rs v) long (by rw [hac, hcfg]; exact hwired)
    simp only [hac, hcfg] at hk
    simp only [Course.andThen, hcfg, hk, course, Nat.add_zero, List.append_nil, respond_finished] at hrun
    exact hrun rfl
  · intro hwired
    obtain ⟨n, hn, hk⟩ := course_wait_wired (u.afterWrite rs v) long
      (by rw [hac, hcfg]; exact hwired) rfl hm'
    replace hk := hk [.respond (.const 0x00#8)]
    simp only [hac, hcfg] at hk
    refine ⟨n, ?_, ?_⟩
    · have hd' : (u.afterWrite rs v).device = s.device.drop (Config.pulses s.cfg * 0) := hd
      have := (pollEnds_congr (t := u.afterWrite rs v) (f := 0) (n := n) hcfg hd' hw).mp hn
      simpa using this
    · simp only [Course.andThen, hcfg, hk, course, Nat.add_zero, List.append_nil, respond_finished] at hrun
      exact hrun rfl

/-! ## INIT -/

/-- The registers after the negotiation (42_controller_init.md R221 to R223). -/
def State.afterNegotiation (s : State) : State :=
  { s with
    ctl := match s.cfg.busWidth with | .four => .neg3 | .eight => .neg2
    rs := false
    rw := false
    e := false
    dir := .write
    dO := match s.cfg.busWidth with | .four => 0x02#8 | .eight => s.cfg.functionSetByte }

theorem course_negotiation (K : List Item) (s : State) (he : s.e = false) :
    course (powerOnStep s.cfg ++ negotiate s.cfg ++ K) s
      = Course.andThen { cycles := s.cfg.negotiationLen, bus := Config.negotiationBus s.cfg, last := s.afterNegotiation }
          (course K) := by
  unfold powerOnStep negotiate
  cases hb : s.cfg.busWidth with
  | four =>
    simp [course, Course.andThen, writeXfer, delay, State.drive, State.act, pulseBetween, he, State.transfer,
      State.setLanes, State.dOe, Config.active, hb, Config.negotiationLen, Config.negotiationBus,
      State.afterNegotiation, Config.writeXferLen]
    omega
  | eight =>
    simp [course, Course.andThen, writeXfer, delay, State.drive, State.act, pulseBetween, he, State.transfer,
      State.setLanes, State.dOe, Config.active, hb, Config.negotiationLen, Config.negotiationBus,
      State.afterNegotiation, Config.writeXferLen, byte_masked]
    omega

theorem afterNegotiation_pins (s : State) : PinsOk s.afterNegotiation := by
  refine ⟨rfl, ?_, fun _ => rfl⟩
  cases hb : s.cfg.busWidth <;> simp [State.afterNegotiation, hb, Config.active]

theorem canRun_negotiation (c : Config) (f : Bool) (K : List Item) :
    canRun c f (powerOnStep c ++ negotiate c ++ K) = canRun c f K := by
  unfold powerOnStep negotiate
  cases c.busWidth <;> simp [canRun, cycles_pos, writeXfer, delay]

theorem course_command_unwired (K : List Item) (s : State) (v : Byte) (h : PinsOk s) (hw : s.cfg.rwWired = false) :
    course (commandItems s.cfg v ++ K) s
      = Course.andThen
          ⟨s.cfg.writeLen + (if v.isLong then s.cfg.cycles s.cfg.tLongNs else 0), writeBus s.cfg false v,
            s.afterWrite false v⟩ (course K) := by
  have hk := course_wait_unwired K (s.afterWrite false v) v.isLong hw
  have hc : (s.afterWrite false v).cfg = s.cfg := rfl
  rw [hc] at hk
  unfold commandItems
  rw [List.append_assoc, course_memWrite _ _ _ _ h]
  simp only [Course.andThen, hk, List.nil_append, Nat.add_assoc]

theorem course_command_wired (s : State) (v : Byte) (h : PinsOk s) (hw : s.cfg.rwWired = true)
    (hm : 1 ≤ s.cfg.pollMax) :
    ∃ n, PollEnds s 0 n ∧ ∀ K, course (commandItems s.cfg v ++ K) s
      = Course.andThen
          ⟨s.cfg.writeLen + (n + 1) * s.cfg.readLen, writeBus s.cfg false v ++ readBus s.cfg false (n + 1),
            (s.afterWrite false v).afterPoll n⟩ (course K) := by
  obtain ⟨n, hn, hk⟩ := course_wait_wired (s.afterWrite false v) v.isLong hw rfl hm
  have hc : (s.afterWrite false v).cfg = s.cfg := rfl
  rw [hc] at hk
  refine ⟨n, hn, fun K => ?_⟩
  unfold commandItems
  rw [List.append_assoc, course_memWrite _ _ _ _ h]
  simp only [Course.andThen, hk, Nat.add_assoc, List.append_assoc]

theorem afterPoll_pins (s : State) (n : Nat) (h : PinsOk s) (hw : s.cfg.rwWired = true) : PinsOk (s.afterPoll n) := by
  refine ⟨rfl, h.unused, ?_⟩
  intro hc
  have hc' : s.cfg.rwWired = false := hc
  rw [hw] at hc'
  cases hc'

/-- Setting `ctl` and the mirrors in one named update, so that the steps of INIT compose. -/
def State.stepMirrors (s : State) (c : Ctl) (fn : BitVec 3) (dctl : BitVec 3) (entry : BitVec 2) : State :=
  { s with ctl := c, fn := fn, dctl := dctl, entry := entry }

theorem stepMirrors_pins (s : State) (c : Ctl) (fn dctl : BitVec 3) (entry : BitVec 2) (h : PinsOk s) :
    PinsOk (s.stepMirrors c fn dctl entry) := ⟨h.low, h.unused, h.unwired⟩

theorem initItems_steps (c : Config) :
    initItems c = powerOnStep c ++ negotiate c ++
      (.act (.ctl .functionSet) :: .act (.fn (fnOfByte c.functionSetByte)) :: (commandItems c c.functionSetByte ++
        (.act (.ctl .displayOn) :: .act (.dctl 0b100#3) :: (commandItems c (displayControlByte 0b100#3) ++
          (.act (.ctl .clearDisplay) :: (commandItems c 0x01#8 ++
            (.act (.ctl .entryModeSet) :: .act (.entry 0b10#2) :: (commandItems c (entryModeByte 0b10#2) ++
              [.act (.ctl .ready), .respond (.const 0x00#8)])))))))) := by
  simp [initItems, functionSetStep, displayOnStep, clearStep, entryModeStep]

theorem canRun_command (c : Config) (f : Bool) (v : Byte) (K : List Item) (hm : 1 ≤ c.pollMax)
    (hK : canRun c false K = true) : canRun c f (commandItems c v ++ K) = true := by
  unfold commandItems
  rw [List.append_assoc, canRun_append _ _ _ _ (memWrite_isTransfer ..)]
  exact canRun_wait c f _ K hm hK

theorem canRun_init (c : Config) (f : Bool) (hm : 1 ≤ c.pollMax) : canRun c f (initItems c) = true := by
  rw [initItems_steps, canRun_negotiation]
  simp only [canRun]
  refine canRun_command _ _ _ _ hm ?_
  simp only [canRun]
  refine canRun_command _ _ _ _ hm ?_
  simp only [canRun]
  refine canRun_command _ _ _ _ hm ?_
  simp only [canRun]
  refine canRun_command _ _ _ _ hm rfl

theorem advance_init_e (c : Config) (s : State) : (State.advance (initItems c) s).e = false := rfl

theorem fs_not_long (c : Config) : c.functionSetByte.isLong = false := by
  unfold Config.functionSetByte
  cases c.dl <;> cases c.nl <;> cases c.ff <;> rfl

/-- INIT as its course, with RW absent. -/
theorem course_init_unwired (s : State) (h : PinsOk s) (hw : s.cfg.rwWired = false) :
    course (initItems s.cfg) s
      = { cycles := s.cfg.negotiationLen + 4 * s.cfg.writeLen + s.cfg.cycles s.cfg.tLongNs,
          bus := Config.negotiationBus s.cfg ++ writeBus s.cfg false s.cfg.functionSetByte ++ writeBus s.cfg false 0x0C#8
            ++ writeBus s.cfg false 0x01#8 ++ writeBus s.cfg false 0x06#8,
          last := s.afterInit.finished 0x00#8 0 } := by
  set s1 := (s.afterNegotiation).stepMirrors .functionSet (fnOfByte s.cfg.functionSetByte) s.dctl s.entry with h1
  set s2 := (s1.afterWrite false s.cfg.functionSetByte).stepMirrors .displayOn s1.fn 0b100#3 s.entry with h2
  set s3 := (s2.afterWrite false 0x0C#8).stepMirrors .clearDisplay s1.fn 0b100#3 s.entry with h3
  set s4 := (s3.afterWrite false 0x01#8).stepMirrors .entryModeSet s1.fn 0b100#3 0b10#2 with h4
  have p1 : PinsOk s1 := stepMirrors_pins _ _ _ _ _ (afterNegotiation_pins s)
  have p2 : PinsOk s2 := stepMirrors_pins _ _ _ _ _ (afterWrite_pins ..)
  have p3 : PinsOk s3 := stepMirrors_pins _ _ _ _ _ (afterWrite_pins ..)
  have p4 : PinsOk s4 := stepMirrors_pins _ _ _ _ _ (afterWrite_pins ..)
  have c1 := fun K => course_command_unwired K s1 s.cfg.functionSetByte p1 hw
  have c2 := fun K => course_command_unwired K s2 0x0C#8 p2 hw
  have c3 := fun K => course_command_unwired K s3 0x01#8 p3 hw
  have c4 := fun K => course_command_unwired K s4 0x06#8 p4 hw
  have g1 : ((s.afterNegotiation).act (.ctl .functionSet)).act (.fn (fnOfByte s.cfg.functionSetByte)) = s1 := rfl
  have g2 : ((s1.afterWrite false s.cfg.functionSetByte).act (.ctl .displayOn)).act (.dctl 0b100#3) = s2 := rfl
  have g3 : (s2.afterWrite false 0x0C#8).act (.ctl .clearDisplay) = s3 := rfl
  have g4 : ((s3.afterWrite false 0x01#8).act (.ctl .entryModeSet)).act (.entry 0b10#2) = s4 := rfl
  have b1 : displayControlByte 0b100#3 = 0x0C#8 := rfl
  have b2 : entryModeByte 0b10#2 = 0x06#8 := rfl
  have k1 : s1.cfg = s.cfg := rfl
  have k2 : s2.cfg = s.cfg := rfl
  have k3 : s3.cfg = s.cfg := rfl
  have k4 : s4.cfg = s.cfg := rfl
  rw [k1] at c1
  rw [k2] at c2
  rw [k3] at c3
  rw [k4] at c4
  rw [initItems_steps, course_negotiation _ _ h.low]
  simp only [course, Course.andThen, g1, c1, g2, b1, c2, g3, c3, g4, b2, c4, fs_not_long]
  have gl : (s4.afterWrite false 0x06#8).act (.ctl .ready) = s.afterInit := rfl
  have gr := respond_finished s.afterInit (.const 0x00#8) 0
  simp only [State.waited] at gr
  have l1 : Byte.isLong 0x0C#8 = false := rfl
  have l2 : Byte.isLong 0x01#8 = true := rfl
  have l3 : Byte.isLong 0x06#8 = false := rfl
  rw [gl, gr, l1, l2, l3]
  simp only [Bool.false_eq_true, if_false, if_true, Nat.add_zero, List.append_nil, List.append_assoc,
    State.answerByte]
  congr 1
  omega

/-- After `k` more reads than `s`: what the reads to come give and leave. -/
structure ReadsOn (s t : State) (k : Nat) : Prop where
  cfg : t.cfg = s.cfg
  device : t.device = s.device.drop (Config.pulses s.cfg * k)
  draws : t.draws = s.draws + Config.pulses s.cfg * k

theorem ReadsOn.poll {s t : State} {k : Nat} (h : ReadsOn s t k) (n : Nat) : ReadsOn s (t.afterPoll n) (k + (n + 1)) := by
  refine ⟨h.cfg, ?_, ?_⟩
  · show t.device.drop (Config.pulses t.cfg * (n + 1)) = _
    rw [h.cfg, h.device, List.drop_drop, ← Nat.mul_add]
  · show t.draws + Config.pulses t.cfg * (n + 1) = _
    rw [h.cfg, h.draws, Nat.add_assoc, ← Nat.mul_add]

theorem ReadsOn.rdAcc {s t : State} {k : Nat} (h : ReadsOn s t k) (n : Nat) :
    (t.afterPoll n).rdAcc = s.byteRead (k + n) := byteRead_shift s t k n h.cfg h.device h.draws

theorem ReadsOn.tmo {s t : State} {k : Nat} (h : ReadsOn s t k) (n : Nat) :
    (t.afterPoll n).tmo = (t.tmo || s.timedOut (k + n)) := by
  show (t.tmo || (t.byteRead n).getLsbD 7) = _
  rw [byteRead_shift s t k n h.cfg h.device h.draws]
  rfl

theorem ReadsOn.ends {s t : State} {k : Nat} (h : ReadsOn s t k) {n : Nat} (hp : PollEnds t 0 n) : PollEnds s k n :=
  (pollEnds_congr (f := 0) h.cfg h.device h.draws).mp hp

/-- INIT between two steps: the step's registers, its byte on the lanes, `k + 1` reads done, the last poll of `p` reads. -/
def State.initAt (s : State) (c : Ctl) (fn dctl : BitVec 3) (entry : BitVec 2) (v : Byte) (k p : Nat) (m : Bool) : State :=
  { ((s.stepMirrors c fn dctl entry).afterWrite false v).afterReads false k with pollI := p, tmo := m }

theorem initAt_reads (s : State) (c : Ctl) (fn dctl : BitVec 3) (entry : BitVec 2) (v : Byte) (k p : Nat) (m : Bool) :
    ReadsOn s (s.initAt c fn dctl entry v k p m) (k + 1) := ⟨rfl, rfl, rfl⟩

theorem initAt_first (s : State) (c : Ctl) (fn dctl : BitVec 3) (entry : BitVec 2) (v : Byte) (n : Nat) :
    ((s.afterNegotiation.stepMirrors c fn dctl entry).afterWrite false v).afterPoll n
      = s.initAt c fn dctl entry v n (n + 1) (s.tmo || s.timedOut n) := rfl

theorem initAt_next (s : State) (c : Ctl) (fn dctl : BitVec 3) (entry : BitVec 2) (v : Byte) (k p : Nat) (m : Bool)
    (c' : Ctl) (fn' dctl' : BitVec 3) (entry' : BitVec 2) (v' : Byte) (n : Nat) :
    (((s.initAt c fn dctl entry v k p m).stepMirrors c' fn' dctl' entry').afterWrite false v').afterPoll n
      = s.initAt c' fn' dctl' entry' v' (k + 1 + n) (n + 1) (m || s.timedOut (k + 1 + n)) := by
  set r := ((s.initAt c fn dctl entry v k p m).stepMirrors c' fn' dctl' entry').afterWrite false v' with hr
  have h : ReadsOn s r (k + 1) := ⟨rfl, rfl, rfl⟩
  have h1 := h.rdAcc n
  have h2 := h.tmo n
  have h3 := (h.poll n).device
  have h4 := (h.poll n).draws
  have h5 : r.tmo = m := rfl
  rw [h5] at h2
  have e : r.afterPoll n = { s.initAt c' fn' dctl' entry' v' (k + 1 + n) (n + 1) (m || s.timedOut (k + 1 + n)) with
      rdAcc := (r.afterPoll n).rdAcc, tmo := (r.afterPoll n).tmo, device := (r.afterPoll n).device,
      draws := (r.afterPoll n).draws } := rfl
  rw [e, h1, h2, h3, h4]
  rfl

theorem initAt_pins (s : State) (c : Ctl) (fn dctl : BitVec 3) (entry : BitVec 2) (v : Byte) (k p : Nat) (m : Bool)
    (hw : s.cfg.rwWired = true) : PinsOk (s.initAt c fn dctl entry v k p m) := by
  refine ⟨rfl, (afterWrite_pins (s.stepMirrors c fn dctl entry) false v).unused, ?_⟩
  intro hc
  have hc' : s.cfg.rwWired = false := hc
  rw [hw] at hc'
  cases hc'

/-- INIT as its course, with RW wired. -/
theorem course_init_wired (s : State) (h : PinsOk s) (hw : s.cfg.rwWired = true) (hm : 1 ≤ s.cfg.pollMax) :
    ∃ n₁ n₂ n₃ n₄, PollEnds s 0 n₁ ∧ PollEnds s (n₁ + 1) n₂ ∧ PollEnds s (n₁ + 1 + n₂ + 1) n₃
      ∧ PollEnds s (n₁ + 1 + n₂ + 1 + n₃ + 1) n₄
      ∧ course (initItems s.cfg) s
        = ⟨s.cfg.negotiationLen + 4 * s.cfg.writeLen + (n₁ + 1 + n₂ + 1 + n₃ + 1 + n₄ + 1) * s.cfg.readLen,
            Config.negotiationBus s.cfg
              ++ (writeBus s.cfg false s.cfg.functionSetByte ++ readBus s.cfg false (n₁ + 1))
              ++ (writeBus s.cfg false 0x0C#8 ++ readBus s.cfg false (n₂ + 1))
              ++ (writeBus s.cfg false 0x01#8 ++ readBus s.cfg false (n₃ + 1))
              ++ (writeBus s.cfg false 0x06#8 ++ readBus s.cfg false (n₄ + 1)),
            State.finished { s.afterInit.afterReads false (n₁ + 1 + n₂ + 1 + n₃ + 1 + n₄) with
              pollI := n₄ + 1
              tmo := s.tmo || s.timedOut n₁ || s.timedOut (n₁ + 1 + n₂) || s.timedOut (n₁ + 1 + n₂ + 1 + n₃)
                || s.timedOut (n₁ + 1 + n₂ + 1 + n₃ + 1 + n₄) } 0x00#8 0⟩ := by
  have p1 := stepMirrors_pins _ .functionSet (fnOfByte s.cfg.functionSetByte) s.dctl s.entry (afterNegotiation_pins s)
  obtain ⟨n₁, e1, c1⟩ := course_command_wired _ s.cfg.functionSetByte p1 hw hm
  rw [initAt_first] at c1
  set t1 := s.initAt .functionSet (fnOfByte s.cfg.functionSetByte) s.dctl s.entry s.cfg.functionSetByte n₁ (n₁ + 1)
    (s.tmo || s.timedOut n₁) with ht1
  have q1 : ReadsOn s t1 (n₁ + 1) := initAt_reads ..
  have p2 := stepMirrors_pins t1 .displayOn (fnOfByte s.cfg.functionSetByte) 0b100#3 s.entry (initAt_pins _ _ _ _ _ _ _ _ _ hw)
  obtain ⟨n₂, e2, c2⟩ := course_command_wired _ 0x0C#8 p2 hw hm
  rw [ht1, initAt_next, ← ht1] at c2
  set t2 := s.initAt .displayOn (fnOfByte s.cfg.functionSetByte) 0b100#3 s.entry 0x0C#8 (n₁ + 1 + n₂) (n₂ + 1)
    (s.tmo || s.timedOut n₁ || s.timedOut (n₁ + 1 + n₂)) with ht2
  have q2 : ReadsOn s t2 (n₁ + 1 + n₂ + 1) := initAt_reads ..
  have p3 := stepMirrors_pins t2 .clearDisplay (fnOfByte s.cfg.functionSetByte) 0b100#3 s.entry (initAt_pins _ _ _ _ _ _ _ _ _ hw)
  obtain ⟨n₃, e3, c3⟩ := course_command_wired _ 0x01#8 p3 hw hm
  rw [ht2, initAt_next, ← ht2] at c3
  set t3 := s.initAt .clearDisplay (fnOfByte s.cfg.functionSetByte) 0b100#3 s.entry 0x01#8 (n₁ + 1 + n₂ + 1 + n₃) (n₃ + 1)
    (s.tmo || s.timedOut n₁ || s.timedOut (n₁ + 1 + n₂) || s.timedOut (n₁ + 1 + n₂ + 1 + n₃)) with ht3
  have q3 : ReadsOn s t3 (n₁ + 1 + n₂ + 1 + n₃ + 1) := initAt_reads ..
  have p4 := stepMirrors_pins t3 .entryModeSet (fnOfByte s.cfg.functionSetByte) 0b100#3 0b10#2 (initAt_pins _ _ _ _ _ _ _ _ _ hw)
  obtain ⟨n₄, e4, c4⟩ := course_command_wired _ 0x06#8 p4 hw hm
  rw [ht3, initAt_next, ← ht3] at c4
  refine ⟨n₁, n₂, n₃, n₄, ?_, ?_, ?_, ?_, ?_⟩
  · exact e1
  · exact ReadsOn.ends (t := t1.stepMirrors ..) ⟨q1.cfg, q1.device, q1.draws⟩ e2
  · exact ReadsOn.ends (t := t2.stepMirrors ..) ⟨q2.cfg, q2.device, q2.draws⟩ e3
  · exact ReadsOn.ends (t := t3.stepMirrors ..) ⟨q3.cfg, q3.device, q3.draws⟩ e4
  have k1 : (s.afterNegotiation.stepMirrors .functionSet (fnOfByte s.cfg.functionSetByte) s.dctl s.entry).cfg = s.cfg := rfl
  have k2 : (t1.stepMirrors .displayOn (fnOfByte s.cfg.functionSetByte) 0b100#3 s.entry).cfg = s.cfg := rfl
  have k3 : (t2.stepMirrors .clearDisplay (fnOfByte s.cfg.functionSetByte) 0b100#3 s.entry).cfg = s.cfg := rfl
  have k4 : (t3.stepMirrors .entryModeSet (fnOfByte s.cfg.functionSetByte) 0b100#3 0b10#2).cfg = s.cfg := rfl
  rw [k1] at c1
  rw [k2] at c2
  rw [k3] at c3
  rw [k4] at c4
  have g1 : ((s.afterNegotiation).act (.ctl .functionSet)).act (.fn (fnOfByte s.cfg.functionSetByte))
    = s.afterNegotiation.stepMirrors .functionSet (fnOfByte s.cfg.functionSetByte) s.dctl s.entry := rfl
  have g2 : (t1.act (.ctl .displayOn)).act (.dctl 0b100#3)
    = t1.stepMirrors .displayOn (fnOfByte s.cfg.functionSetByte) 0b100#3 s.entry := rfl
  have g3 : t2.act (.ctl .clearDisplay)
    = t2.stepMirrors .clearDisplay (fnOfByte s.cfg.functionSetByte) 0b100#3 s.entry := rfl
  have g4 : (t3.act (.ctl .entryModeSet)).act (.entry 0b10#2)
    = t3.stepMirrors .entryModeSet (fnOfByte s.cfg.functionSetByte) 0b100#3 0b10#2 := rfl
  have b1 : displayControlByte 0b100#3 = 0x0C#8 := rfl
  have b2 : entryModeByte 0b10#2 = 0x06#8 := rfl
  rw [initItems_steps, course_negotiation _ _ h.low]
  simp only [course, Course.andThen, g1, c1, g2, b1, c2, g3, c3, g4, b2, c4]
  set t4 := s.initAt .entryModeSet (fnOfByte s.cfg.functionSetByte) 0b100#3 0b10#2 0x06#8
    (n₁ + 1 + n₂ + 1 + n₃ + 1 + n₄) (n₄ + 1) (s.tmo || s.timedOut n₁ || s.timedOut (n₁ + 1 + n₂)
      || s.timedOut (n₁ + 1 + n₂ + 1 + n₃) || s.timedOut (n₁ + 1 + n₂ + 1 + n₃ + 1 + n₄)) with ht4
  have gr := respond_finished (t4.act (.ctl .ready)) (.const 0x00#8) 0
  simp only [State.waited] at gr
  rw [gr]
  have gl : t4.act (.ctl .ready) = { s.afterInit.afterReads false (n₁ + 1 + n₂ + 1 + n₃ + 1 + n₄) with
      pollI := n₄ + 1
      tmo := s.tmo || s.timedOut n₁ || s.timedOut (n₁ + 1 + n₂) || s.timedOut (n₁ + 1 + n₂ + 1 + n₃)
        || s.timedOut (n₁ + 1 + n₂ + 1 + n₃ + 1 + n₄) } := rfl
  rw [gl]
  simp only [List.append_nil, List.append_assoc, Nat.add_zero, State.answerByte]
  congr 1
  ring

end Sys2Proof.Machine
end

