-- ==== Sys2Proof/Laws/Encoding.lean ====
section
/-! SUPPORT. A request word and its three fields: each is put together from the other (30_encoding.md R111). -/

namespace Sys2Proof

/-- The fields of a word put together from its fields. -/
theorem word_fields (o : BitVec 5) (a b : Byte) :
    Req.op (o ++ a ++ b : BitVec (5 + 8 + 8)) = o ∧ Req.a (o ++ a ++ b : BitVec (5 + 8 + 8)) = a
      ∧ Req.b (o ++ a ++ b : BitVec (5 + 8 + 8)) = b := by
  have h : ∀ k, (o ++ a ++ b : BitVec (5 + 8 + 8)).getLsbD k
      = if k < 8 then b.getLsbD k else if k - 8 < 8 then a.getLsbD (k - 8) else o.getLsbD (k - 8 - 8) := by
    intro k
    rw [BitVec.getLsbD_append]
    split
    · rfl
    · rw [BitVec.getLsbD_append]
  unfold Req.op Req.a Req.b
  refine ⟨?_, ?_, ?_⟩ <;> apply BitVec.eq_of_getLsbD_eq <;> intro k hk <;> rw [BitVec.getLsbD_extractLsb'] <;>
    rw [show BitVec.getLsbD (w := 21) _ _ = _ from h _]
  · rw [if_neg (by omega), if_neg (by omega), show 16 + k - 8 - 8 = k by omega]
    simp [hk]
  · rw [if_neg (by omega), if_pos (by omega), show 8 + k - 8 = k by omega]
    simp [hk]
  · rw [if_pos (by omega), Nat.zero_add]
    simp [hk]

/-- A word is put together from its fields. -/
theorem fields_word (w : Req) : (w.op ++ w.a ++ w.b : BitVec (5 + 8 + 8)) = w := by
  unfold Req.op Req.a Req.b
  apply BitVec.eq_of_getLsbD_eq
  intro i hi
  simp only [BitVec.getLsbD_append, BitVec.getLsbD_extractLsb']
  by_cases h1 : i < 8
  · simp [h1]
  · by_cases h2 : i - 8 < 8
    · simp only [h1, h2, if_true, if_false, decide_true, Bool.true_and]
      congr 1
      omega
    · have h3 : i - 8 - 8 < 5 := by omega
      simp only [h1, h2, h3, if_false, decide_true, Bool.true_and]
      congr 1
      omega

end Sys2Proof
end

