-- ==== Sys2Proof/Laws/InitStates.lean ====
section
/-! SUPPORT. The values `ctl` takes while a phase sequence runs, and how long each stands: over transfers, over a poll and
over a command, and put together into schedules such as INIT's (42_controller_init.md R220, R237). -/

namespace Sys2Proof.Machine

/-- Inside a phase a running state only counts down. -/
theorem run_phase_at (n : Nat) (s : State) (h : Going s) (hp : s.pos ≠ []) (hc : s.cnt = n + 1) (m : Nat)
    (hm : m < n + 1) : run m s = .next { s.waited m with cnt := n + 1 - m, pos := s.pos } := by
  induction m generalizing s n with
  | zero => simp [run, State.waited, ← hc]
  | succ m ih =>
    obtain ⟨n, rfl⟩ : ∃ j, n = j + 1 := ⟨n - 1, by omega⟩
    have hs := h.step_eq hp
    set t : State := { s.hostMoves false with cnt := n + 1, pos := s.pos } with ht
    have he : s.runEdge = t := by simp [State.runEdge, hc, ht]
    have hg : Going t := ⟨h.legal, h.noReset.moves false, h.running⟩
    simp only [run, hs, he]
    rw [ih n t hg hp rfl (by omega), ht, waited_put]
    simp [waited_succ]

/-! ## A stretch of cycles in one state of the controller -/

/-- From `u` on `ctl` is `x` for `n` cycles, and the machine is then `w`. -/
structure Stays (x : Ctl) (n : Nat) (u w : State) : Prop where
  ends : run n u = .next w
  stays : ∀ m, m < n → ∃ v, run m u = .next v ∧ v.ctl = x

theorem Stays.none (x : Ctl) (u : State) : Stays x 0 u u := ⟨rfl, by intro m hm; omega⟩

theorem Stays.trans {x : Ctl} {n k : Nat} {u w z : State} (h : Stays x n u w) (g : Stays x k w z) :
    Stays x (n + k) u z := by
  refine ⟨by rw [run_add _ _ _ _ h.ends, g.ends], fun m hm => ?_⟩
  by_cases hmn : m < n
  · exact h.stays m hmn
  · obtain ⟨v, hv, hx⟩ := g.stays (m - n) (by omega)
    exact ⟨v, by rw [show m = n + (m - n) by omega, run_add _ _ _ _ h.ends, hv], hx⟩

/-- One phase. -/
theorem stays_phase (d : Drive) (n : Nat) (K : List Item) (s : State) (hg : Going s) (hn : 1 ≤ n) (hK : K ≠ []) :
    Stays s.ctl n (State.advance (.phase d n :: K) s) (State.advance K ((s.drive d).waited n)) := by
  obtain ⟨k, rfl⟩ : ∃ k, n = k + 1 := ⟨n - 1, by omega⟩
  set u := s.startPhase d (k + 1) K with hu
  have hgu : Going u := hg.congr (by simp [hu]) (by simp [hu]) (by simp [hu]) (by simp [hu]) (by simp [hu])
  have hw : State.advance u.pos (u.waited (k + 1)) = State.advance K ((s.drive d).waited (k + 1)) :=
    advance_put_waited K (k + 1) (s.drive d) (k + 1) K
  refine ⟨?_, fun m hm => ⟨_, run_phase_at k u hgu hK rfl m hm, ?_⟩⟩
  · rw [← hw]; exact (run_phase k u hgu hK rfl).1
  · show (u.waited m).ctl = _
    rw [waited_eq]; simp [hu]

theorem waited_ctl (n : Nat) (s : State) : (s.waited n).ctl = s.ctl := by rw [waited_eq]

/-- Transfers and delays leave the host's pins, the request and the configuration to the sequencer. -/
theorem Going.straight {l : List Item} {s : State} (hl : isTransfer l = true) (hg : Going s) :
    Going (straight l s).last ∧ (straight l s).last.ctl = s.ctl := by
  induction l generalizing s with
  | nil => exact ⟨hg, rfl⟩
  | cons i rest ih =>
    cases i with
    | phase d n =>
      simp only [isTransfer, Bool.and_eq_true] at hl
      have := ih hl.2 (s := s.drive d) (hg.congr (by simp) (by simp) (by simp) (by simp) (by simp))
      exact ⟨this.1, this.2.trans (by simp)⟩
    | sample q => exact ih (s := s.sample q) hl (hg.congr rfl rfl rfl rfl rfl)
    | act x => simp [isTransfer] at hl
    | pollTest => simp [isTransfer] at hl
    | respond src => simp [isTransfer] at hl

/-- Transfers and delays. -/
theorem stays_transfer (l K : List Item) (s : State) (hl : isTransfer l = true) (hg : Going s) (hK : K ≠ []) :
    Stays s.ctl (straight l s).cycles (State.advance (l ++ K) s)
      (State.advance K ((straight l s).last.waited (straight l s).cycles)) := by
  induction l generalizing s with
  | nil => exact Stays.none ..
  | cons i rest ih =>
    cases i with
    | phase d n =>
      simp only [isTransfer, Bool.and_eq_true, decide_eq_true_eq] at hl
      have hd : Going (s.drive d) := hg.congr (by simp) (by simp) (by simp) (by simp) (by simp)
      have h1 := stays_phase d n (rest ++ K) s hg hl.1 (by simp [hK])
      have h2 := ih ((s.drive d).waited n) hl.2 (hd.waited n)
      rw [waited_ctl, State.drive_ctl, straight_waited] at h2
      simp only [Course.waited, ← waited_add] at h2
      exact h1.trans h2
    | sample q => exact ih (s.sample q) hl (hg.congr rfl rfl rfl rfl rfl)
    | act x => simp [isTransfer] at hl
    | pollTest => simp [isTransfer] at hl
    | respond src => simp [isTransfer] at hl

/-- The tests and reads of a poll. -/
theorem stays_tests (K : List Item) (fuel : Nat) (s : State) (hg : Going s)
    (hfuel : s.pollI + fuel = s.cfg.pollMax) (hpos : 0 < fuel) :
    Stays s.ctl (pollCourse fuel s).cycles (State.advance (.pollTest :: K) s)
      (State.advance K ((pollCourse fuel s).last.waited (pollCourse fuel s).cycles)) := by
  induction fuel generalizing s with
  | zero => omega
  | succ fuel ih =>
    simp only [State.advance, pollCourse]
    split
    · exact Stays.none ..
    · split
      · exact Stays.none ..
      · rename_i hne
        have hne' : ¬ s.pollI + 1 = s.cfg.pollMax := hne
        rw [pollAgain_eq]
        have hr := memRead_isTransfer s.cfg false
        have hc : Going s.countPoll := hg.congr rfl rfl rfl rfl rfl
        have h1 := stays_transfer (memRead s.cfg false) (.pollTest :: K) s.countPoll hr hc (by simp)
        obtain ⟨hgl, hctl⟩ := hc.straight hr
        set c := straight (memRead s.cfg false) s.countPoll with hcd
        have hs : c.last.cfg = s.cfg ∧ c.last.pollI = s.pollI + 1 := by
          rw [hcd]; cases hb : s.cfg.busWidth <;> simp [memRead, hb, readXfer, straight, Course.andThen]
        have h2 := ih (c.last.waited c.cycles) (hgl.waited _) (by rw [waited_cfg, waited_pollI, hs.1, hs.2]; omega)
          (by omega)
        rw [waited_ctl, hctl, pollCourse_waited] at h2
        simp only [Course.waited, ← waited_add] at h2
        exact h1.trans h2

/-! ## The pieces of a request -/

/-- Inside a request from `s` on, between two accesses, after `k` reads. -/
structure Between (s t : State) (k : Nat) : Prop where
  going : Going t
  pins : PinsOk t
  reads : ReadsOn s t k

theorem Going.same {s t : State} (h : Going s) (g : SameRequest s t) (hv : t.rspValid = s.rspValid) : Going t :=
  h.congr g.cfg g.busy hv g.port g.host

theorem Between.waited {s t : State} {k : Nat} (h : Between s t k) (n : Nat) : Between s (t.waited n) k := by
  refine ⟨h.going.waited n, ?_, ?_⟩ <;> rw [waited_eq]
  · exact ⟨h.pins.low, h.pins.unused, h.pins.unwired⟩
  · exact ⟨h.reads.cfg, h.reads.device, h.reads.draws⟩

theorem Between.act {s t : State} {k : Nat} (h : Between s t k) (x : Act) : Between s (t.act x) k := by
  refine ⟨h.going.same (act_same t x) (by simp), ?_, ?_⟩ <;> cases x
  all_goals first
    | exact ⟨h.pins.low, h.pins.unused, h.pins.unwired⟩
    | exact ⟨h.reads.cfg, h.reads.device, h.reads.draws⟩

theorem Between.afterWrite {s t : State} {k : Nat} (h : Between s t k) (rs : Bool) (v : Byte) :
    Between s (t.afterWrite rs v) k :=
  ⟨h.going.congr rfl rfl rfl rfl rfl, afterWrite_pins t rs v, ⟨h.reads.cfg, h.reads.device, h.reads.draws⟩⟩

theorem Between.afterPoll {s t : State} {k : Nat} (h : Between s t k) (hw : s.cfg.rwWired = true) (n : Nat) :
    Between s (t.afterPoll n) (k + (n + 1)) :=
  ⟨h.going.congr rfl rfl rfl rfl rfl, afterPoll_pins t n h.pins (by rw [h.reads.cfg]; exact hw), h.reads.poll n⟩

/-- A register write. -/
theorem stays_memWrite (K : List Item) (t : State) (rs : Bool) (v : Byte) (hg : Going t) (hp : PinsOk t) (hK : K ≠ []) :
    Stays t.ctl t.cfg.writeLen (State.advance (memWrite t.cfg rs v ++ K) t)
      (State.advance K ((t.afterWrite rs v).waited t.cfg.writeLen)) := by
  have h := stays_transfer (memWrite t.cfg rs v) K t (memWrite_isTransfer ..) hg hK
  rw [straight_memWrite t rs v hp] at h
  exact h

/-- A poll of `n + 1` reads. -/
theorem stays_poll (t : State) (hg : Going t) (he : t.e = false) (hm : 1 ≤ t.cfg.pollMax) :
    ∃ n, PollEnds t 0 n ∧ ∀ K,
      Stays t.ctl ((n + 1) * t.cfg.readLen) (State.advance (poll t.cfg ++ K) t)
        (State.advance K ((t.afterPoll n).waited ((n + 1) * t.cfg.readLen))) := by
  obtain ⟨n, hn, hp⟩ := pollCourse_ends t t.cfg.pollMax 0 (by omega) (by omega) (by omega)
  rw [Nat.zero_add] at hn hp
  refine ⟨n, hn, fun K => ?_⟩
  have hz : Going (t.act .pollZero) := hg.congr rfl rfl rfl rfl rfl
  have h1 := stays_transfer (memRead t.cfg false) (.pollTest :: K) (t.act .pollZero) (memRead_isTransfer ..) hz (by simp)
  have hr : straight (memRead t.cfg false) (t.act .pollZero)
      = { cycles := t.cfg.readLen, bus := readBus t.cfg false 1, last := t.inPoll 0 } :=
    straight_memRead (t.act .pollZero) false he
  have hi : Going (t.inPoll 0) := hg.congr rfl rfl rfl rfl rfl
  rw [hr] at h1
  have h2 := stays_tests K t.cfg.pollMax ((t.inPoll 0).waited t.cfg.readLen) (hi.waited _)
    (by rw [waited_cfg, waited_pollI]; exact Nat.zero_add _) (by omega)
  rw [waited_ctl, pollCourse_waited, hp] at h2
  simp only [Course.waited, ← waited_add] at h2
  have hl : (n + 1) * t.cfg.readLen = t.cfg.readLen + n * t.cfg.readLen := by ring
  have ha : poll t.cfg ++ K = .act .pollZero :: (memRead t.cfg false ++ .pollTest :: K) := by simp [poll]
  rw [hl, ha]
  exact h1.trans h2

/-- A command without RW: its write and, for clear and home, the long delay. -/
theorem stays_command_unwired {s t : State} {k : Nat} (h : Between s t k) (hw : s.cfg.rwWired = false) (v : Byte) :
    ∃ w, Between s w k ∧ ∀ K, K ≠ [] →
      Stays t.ctl (s.cfg.writeLen + (if v.isLong then s.cfg.cycles s.cfg.tLongNs else 0))
        (State.advance (commandItems s.cfg v ++ K) t) (State.advance K w) := by
  have hc : t.cfg = s.cfg := h.reads.cfg
  have hb := (h.afterWrite false v).waited s.cfg.writeLen
  have hcw := hb.reads.cfg
  refine ⟨((t.afterWrite false v).waited s.cfg.writeLen).waited (if v.isLong then s.cfg.cycles s.cfg.tLongNs else 0),
    hb.waited _, fun K hK => ?_⟩
  have h1 := stays_memWrite (completionWait s.cfg v.isLong ++ K) t false v h.going h.pins (by simp [hK])
  rw [hc] at h1
  unfold commandItems
  rw [List.append_assoc]
  refine h1.trans ?_
  have hx : ((t.afterWrite false v).waited s.cfg.writeLen).ctl = t.ctl := waited_ctl ..
  rw [← hx]
  cases v.isLong with
  | false =>
    simp only [completionWait, hw, Bool.false_eq_true, if_false, List.nil_append]
    exact Stays.none ..
  | true =>
    simp only [completionWait, hw, Bool.false_eq_true, if_false, if_true, delay, List.singleton_append]
    exact stays_phase .hold _ K _ hb.going (cycles_pos ..) hK

/-- A command with RW: its write and its poll. -/
theorem stays_command_wired {s t : State} {k : Nat} (h : Between s t k) (hw : s.cfg.rwWired = true)
    (hm : 1 ≤ s.cfg.pollMax) (v : Byte) :
    ∃ n w, PollEnds s k n ∧ Between s w (k + n + 1) ∧ ∀ K, K ≠ [] →
      Stays t.ctl (s.cfg.writeLen + (n + 1) * s.cfg.readLen)
        (State.advance (commandItems s.cfg v ++ K) t) (State.advance K w) := by
  have hc : t.cfg = s.cfg := h.reads.cfg
  have hb := (h.afterWrite false v).waited s.cfg.writeLen
  have hcw := hb.reads.cfg
  obtain ⟨n, hn, hp⟩ := stays_poll _ hb.going hb.pins.low (by rw [hcw]; exact hm)
  refine ⟨n, _, hb.reads.ends hn, (hb.afterPoll hw n).waited ((n + 1) * s.cfg.readLen), fun K hK => ?_⟩
  have h1 := stays_memWrite (completionWait s.cfg v.isLong ++ K) t false v h.going h.pins (by simp [hK])
  rw [hc] at h1
  unfold commandItems
  rw [List.append_assoc]
  refine h1.trans ?_
  have h2 := hp K
  rw [waited_ctl, hcw] at h2
  have hwt : completionWait s.cfg v.isLong = poll s.cfg := by simp [completionWait, hw]
  rw [hwt]
  exact h2

/-! ## Schedules -/

/-- From `u` on `ctl` goes through the schedule `l`. -/
def Schedule (u : State) (l : List (Ctl × Nat)) : Prop :=
  ∀ m x, ctlAt l m = some x → ∃ v, run m u = .next v ∧ v.ctl = x

theorem Schedule.nil (u : State) : Schedule u [] := by intro m x h; simp [ctlAt] at h

theorem Schedule.cons {x : Ctl} {n : Nat} {u w : State} {l : List (Ctl × Nat)} (h : Stays x n u w) (g : Schedule w l) :
    Schedule u ((x, n) :: l) := by
  intro m y hy
  simp only [ctlAt] at hy
  split at hy
  · rename_i hm
    cases hy
    exact h.stays m hm
  · obtain ⟨v, hv, hx⟩ := g _ _ hy
    exact ⟨v, by rw [show m = n + (m - n) by omega, run_add _ _ _ _ h.ends, hv], hx⟩

/-- A schedule lasts the sum of its entries. -/
theorem ctlAt_some (l : List (Ctl × Nat)) (m : Nat) (h : m < (l.map (·.2)).sum) : ∃ x, ctlAt l m = some x := by
  induction l generalizing m with
  | nil => simp at h
  | cons i l ih =>
    obtain ⟨x, n⟩ := i
    simp only [List.map_cons, List.sum_cons] at h
    simp only [ctlAt]
    split
    · exact ⟨x, rfl⟩
    · exact ih (m - n) (by omega)

/-- The length of INIT up to its response (42_controller_init.md R234). -/
theorem initStates_length (c : Config) (w₁ w₂ w₃ w₄ : Nat) :
    ((Config.initStates c w₁ w₂ w₃ w₄).map (·.2)).sum
      = c.negotiationLen + 4 * c.writeLen + (w₁ + w₂ + w₃ + w₄) := by
  unfold Config.initStates Config.negotiationStates Config.negotiationLen
  cases c.busWidth <;> simp <;> omega

/-- A lone transfer of the negotiation in its state. -/
theorem stays_lone {s t : State} {k : Nat} (h : Between s t k) (x : Ctl) (v : Byte) :
    ∃ w, Between s w k ∧ w.ctl = x ∧ ∀ K, K ≠ [] →
      Stays x s.cfg.writeXferLen (State.advance (.act (.ctl x) :: (writeXfer s.cfg none v ++ K)) t) (State.advance K w) := by
  have hx := h.act (.ctl x)
  have hit : isTransfer (writeXfer s.cfg none v) = true := by simp [writeXfer, isTransfer, cycles_pos]
  have hl : (straight (writeXfer s.cfg none v) (t.act (.ctl x))).last = { (t.act (.ctl x)).setLanes v with e := false } := rfl
  have hc : (straight (writeXfer s.cfg none v) (t.act (.ctl x))).cycles = s.cfg.writeXferLen := by
    simp [writeXfer, straight, Course.andThen, Config.writeXferLen]; omega
  refine ⟨({ (t.act (.ctl x)).setLanes v with e := false } : State).waited s.cfg.writeXferLen, Between.waited ⟨?_, ?_, ?_⟩ _,
    by rw [waited_ctl]; rfl, fun K hK => ?_⟩
  · exact hx.going.congr rfl rfl rfl rfl rfl
  · refine ⟨rfl, ?_, hx.pins.unwired⟩
    have hu : t.dO &&& ~~~ t.cfg.active = 0#8 := h.pins.unused
    show (t.dO &&& ~~~ t.cfg.active ||| v &&& t.cfg.active) &&& ~~~ t.cfg.active = 0#8
    rw [hu]; ext i; simp
  · exact ⟨h.reads.cfg, h.reads.device, h.reads.draws⟩
  · have := stays_transfer (writeXfer s.cfg none v) K (t.act (.ctl x)) hit hx.going hK
    rw [hl, hc] at this
    exact this

/-- A lone transfer of the negotiation and its state's own delay (42_controller_init.md R222, R223). -/
theorem stays_negotiation_state {s t : State} {k : Nat} (h : Between s t k) (x : Ctl) (v : Byte) (d : Nat) :
    ∃ w, Between s w k ∧ ∀ K, K ≠ [] →
      Stays x (s.cfg.writeXferLen + s.cfg.cycles d)
        (State.advance (.act (.ctl x) :: (writeXfer s.cfg none v ++ delay s.cfg d) ++ K) t) (State.advance K w) := by
  obtain ⟨w, hw, hx, hs⟩ := stays_lone h x v
  refine ⟨w.waited (s.cfg.cycles d), hw.waited _, fun K hK => ?_⟩
  have h1 := hs (delay s.cfg d ++ K) (by simp [hK])
  have h2 := stays_phase .hold (s.cfg.cycles d) K w hw.going (cycles_pos ..) hK
  rw [hx] at h2
  have hd : w.drive .hold = w := rfl
  rw [hd] at h2
  simpa using h1.trans h2

/-- POWER_ON and the negotiation: a schedule of what follows is one of the whole. -/
theorem schedule_negotiation {s t : State} {k : Nat} (h : Between s t k) :
    ∃ w, Between s w k ∧ ∀ K l, K ≠ [] → Schedule (State.advance K w) l →
      Schedule (State.advance (powerOnStep s.cfg ++ negotiate s.cfg ++ K) t) (Config.negotiationStates s.cfg ++ l) := by
  have hp := h.act (.ctl .powerOn)
  have hd : Between s ((t.act (.ctl .powerOn)).drive .powerOn) k :=
    ⟨hp.going.congr rfl rfl rfl rfl rfl, ⟨rfl, by simp [State.drive], fun _ => rfl⟩,
      ⟨h.reads.cfg, h.reads.device, h.reads.draws⟩⟩
  have h0 : ∀ K, K ≠ [] → Stays .powerOn (s.cfg.cycles s.cfg.tPowerOnNs)
      (State.advance (.phase .powerOn (s.cfg.cycles s.cfg.tPowerOnNs) :: K) (t.act (.ctl .powerOn)))
      (State.advance K (((t.act (.ctl .powerOn)).drive .powerOn).waited (s.cfg.cycles s.cfg.tPowerOnNs))) :=
    fun K hK => stays_phase .powerOn _ K _ hp.going (cycles_pos ..) hK
  have hb := hd.waited (s.cfg.cycles s.cfg.tPowerOnNs)
  unfold powerOnStep negotiate Config.negotiationStates
  cases s.cfg.busWidth with
  | four =>
    obtain ⟨w1, b1, s1⟩ := stays_negotiation_state hb .neg0 0x03#8 s.cfg.tNeg1Ns
    obtain ⟨w2, b2, s2⟩ := stays_negotiation_state b1 .neg1 0x03#8 s.cfg.tNeg2Ns
    obtain ⟨w3, b3, s3⟩ := stays_negotiation_state b2 .neg2 0x03#8 s.cfg.tNeg3Ns
    obtain ⟨w4, b4, -, s4⟩ := stays_lone b3 .neg3 0x02#8
    refine ⟨w4, b4, fun K l hK hl => ?_⟩
    have := Schedule.cons (h0 _ (by simp)) (Schedule.cons (s1 _ (by simp)) (Schedule.cons (s2 _ (by simp))
      (Schedule.cons (s3 _ (by simp)) (Schedule.cons (s4 K hK) hl))))
    simpa [State.advance] using this
  | eight =>
    obtain ⟨w1, b1, s1⟩ := stays_negotiation_state hb .neg0 s.cfg.functionSetByte s.cfg.tNeg1Ns
    obtain ⟨w2, b2, s2⟩ := stays_negotiation_state b1 .neg1 s.cfg.functionSetByte s.cfg.tNeg2Ns
    obtain ⟨w3, b3, s3⟩ := stays_negotiation_state b2 .neg2 s.cfg.functionSetByte s.cfg.tNeg3Ns
    refine ⟨w3, b3, fun K l hK hl => ?_⟩
    have := Schedule.cons (h0 _ (by simp)) (Schedule.cons (s1 _ (by simp)) (Schedule.cons (s2 _ (by simp))
      (Schedule.cons (s3 K hK) hl)))
    simpa [State.advance] using this

end Sys2Proof.Machine
end

