-- ==== Sys2Proof/Laws/Invariant.lean ====
section
/-! SUPPORT. The invariant through the sequencer: what is left of a request in order stays in order, and wherever the
sequencer stops the invariant holds (`advance_inv`); the phase sequences of the requests are in order. -/

namespace Sys2Proof.Machine

/-! ## What is left to do stays in order -/

theorem answersNow_cons {i : Item} {l : List Item} (h : answersNow (i :: l) = true) : ∃ src, i = .respond src := by
  cases i with
  | respond src => exact ⟨src, rfl⟩
  | phase d n => cases h
  | sample p => cases h
  | act a => cases h
  | pollTest => cases h

theorem posOk_mono (c : Config) (items : List Item) (k : Look) (h : posOk c { k with fresh := false } items = true) :
    posOk c { k with fresh := true } items = true := by
  induction items generalizing k with
  | nil => simp [posOk] at h
  | cons i rest ih =>
    cases i with
    | phase d n =>
      simp only [posOk, Bool.and_eq_true] at h ⊢
      have hd : ∀ f, driveLook { k with fresh := f } d = { driveLook k d with fresh := f } := by
        intro f
        rcases d with _ | ⟨_ | _, _⟩ | ⟨_ | _⟩ | _ | _ | _ <;> rfl
      have ho : ∀ f, driveOk c { k with fresh := f } d = driveOk c k d := by
        intro f
        cases d <;> rfl
      rw [hd, ho] at *
      exact ⟨h.1, ih _ h.2⟩
    | sample p =>
      simp only [posOk, Bool.and_eq_true] at h ⊢
      exact ⟨h.1, ih _ h.2⟩
    | act x =>
      simp only [posOk, Bool.and_eq_true] at h ⊢
      refine ⟨h.1, ?_⟩
      have h2 := h.2
      cases x with
      | ctl y => simp only [Bool.and_eq_true] at h2 ⊢; exact ⟨h2.1, ih { k with ctl := y } h2.2⟩
      | fn v => simp only [Bool.and_eq_true] at h2 ⊢; exact ⟨h2.1, ih { k with dl := dlMatches c v } h2.2⟩
      | dctl v => simp only [Bool.and_eq_true] at h2 ⊢; exact ⟨h2.1, ih k h2.2⟩
      | entry v => simp only [Bool.and_eq_true] at h2 ⊢; exact ⟨h2.1, ih k h2.2⟩
      | keep => exact ih k h2
      | pollZero => exact h2
    | pollTest => simp [posOk] at h
    | respond src => exact h

theorem posOk_any (c : Config) (items : List Item) (k : Look) (f : Bool)
    (h : posOk c { k with fresh := false } items = true) : posOk c { k with fresh := f } items = true := by
  cases f
  · exact h
  · exact posOk_mono c items k h

theorem posOk_ready (c : Config) (items : List Item) (k : Look) (h : posOk c k items = true) (hr : k.ctl = .ready) :
    k.dl = true := by
  induction items generalizing k with
  | nil => simp [posOk] at h
  | cons i rest ih =>
    cases i with
    | phase d n =>
      simp only [posOk, Bool.and_eq_true] at h
      have := ih _ h.2 (by rcases d with _ | ⟨_ | _, _⟩ | ⟨_ | _⟩ | _ | _ | _ <;> exact hr)
      rcases d with _ | ⟨_ | _, _⟩ | ⟨_ | _⟩ | _ | _ | _ <;> exact this
    | sample p =>
      simp only [posOk, Bool.and_eq_true] at h
      exact ih _ h.2 hr
    | act x =>
      simp only [posOk, Bool.and_eq_true] at h
      have h2 := h.2
      cases x <;> simp only [hr, Bool.and_eq_true, decide_eq_true_eq, ne_eq, not_true_eq_false, false_and] at h2
      · exact ih k h2 hr
      · exact ih { k with ctl := .ready, fresh := decide (0 < c.pollMax) } h2 rfl
    | pollTest =>
      simp only [posOk, Bool.and_eq_true] at h
      exact ih { k with fresh := false } h.2 hr
    | respond src =>
      simp only [posOk, Bool.and_eq_true] at h
      exact h.1.2

/-- A state between two items of a running request: what the invariant says there, and the rest in order. -/
structure Mid (s : State) (items : List Item) : Prop where
  legal : s.cfg.legal = true
  rwUnwired : s.cfg.rwWired = false → s.rw = false
  noContention : s.dir = .write → s.rw = false
  unusedLanes : s.dO &&& ~~~ s.cfg.active = 0x00#8
  busy : s.busy = true
  unanswered : s.rspValid = false
  started : s.ctl ≠ .uninit
  pulse : s.e = true → s.dirAgrees = true
  faultReady : s.fault = true → s.ctl = .ready
  pollBound : s.pollI ≤ s.cfg.pollMax
  tmoWired : s.tmo = true → s.cfg.rwWired = true
  statusNamed : s.rspStatus ≠ 6#3
  inOrder : posOk s.cfg s.look items = true

theorem setLanes_unused (s : State) (v : Byte) (h : s.dO &&& ~~~ s.cfg.active = 0x00#8) :
    (s.setLanes v).dO &&& ~~~ s.cfg.active = 0x00#8 := by
  have hs : (s.setLanes v).dO = (s.dO &&& ~~~ s.cfg.active) ||| (v &&& s.cfg.active) := rfl
  rw [hs, h]
  cases hb : s.cfg.busWidth <;> simp only [Config.active, hb] <;> apply byte_ext <;> simp

theorem drive_look (s : State) (d : Drive) (hw : ∀ rs, d = .read rs → s.cfg.rwWired = true)
    (hu : s.cfg.rwWired = false → s.rw = false) : (s.drive d).look = driveLook s.look d := by
  rcases d with _ | ⟨_ | rs, v⟩ | ⟨_ | rs⟩ | _ | _ | _
  · rfl
  · rfl
  · simp only [State.drive, State.look, State.setLanes, State.setupWrite, driveLook, State.dirAgrees]
    cases hx : s.cfg.rwWired
    · simp [hu hx]
      rfl
    · simp
      rfl
  · rfl
  · rfl
  · rfl
  · rfl
  · rfl

theorem Mid.drive {s : State} {d : Drive} {n : Nat} {rest : List Item} (h : Mid s (.phase d n :: rest)) :
    Mid (s.drive d) rest := by
  obtain ⟨h1, h2, h3, h4, h5, h6, h7, h8, h9, h10, h11, h12, h13⟩ := h
  simp only [posOk, Bool.and_eq_true, decide_eq_true_eq] at h13
  obtain ⟨⟨⟨ho, hn1⟩, hn2⟩, hr⟩ := h13
  have hw : ∀ rs, d = .read rs → s.cfg.rwWired = true := by
    rintro rs rfl
    simp only [driveOk, Bool.and_eq_true] at ho
    exact ho.2
  have hl := drive_look s d hw h2
  have hag : (s.drive d).e = true → (s.drive d).dirAgrees = true := by
    rcases d with _ | ⟨_ | rs, v⟩ | ⟨_ | rs⟩ | _ | _ | _ <;> simp only [State.drive] <;> intro he
    all_goals first
      | (simp at he; done)
      | skip
    · simp only [driveOk, Bool.and_eq_true] at ho
      exact ho.2
    · exact h8 he
  refine ⟨by simpa using h1, ?_, ?_, ?_, by simpa using h5, by simpa using h6, by simpa using h7, hag, by simpa using h9,
    by simpa using h10, by simpa using h11, by simpa using h12, ?_⟩
  · rcases d with _ | ⟨_ | rs, v⟩ | ⟨_ | rs⟩ | _ | _ | _ <;>
      simp only [State.drive, State.setLanes, State.setupWrite, State.setupRead] <;> intro hx
    all_goals first
      | exact h2 hx
      | rfl
      | (simp [hw _ rfl] at hx; done)
      | trivial
      | (simp [h2 hx]; done)
  · rcases d with _ | ⟨_ | rs, v⟩ | ⟨_ | rs⟩ | _ | _ | _ <;>
      simp only [State.drive, State.setLanes, State.setupWrite, State.setupRead] <;> intro hx
    all_goals first
      | exact h3 hx
      | rfl
      | (cases hx; done)
      | (cases hy : s.cfg.rwWired
         · simp [h2 hy]
         · simp)
  · rcases d with _ | ⟨_ | rs, v⟩ | ⟨_ | rs⟩ | _ | _ | _
    · simp [State.drive]
    · exact setLanes_unused s v h4
    · exact setLanes_unused (s.setupWrite rs) v h4
    all_goals exact h4
  · rw [State.drive_cfg, hl]; exact hr

theorem Mid.sample {s : State} {p : Part} {rest : List Item} (h : Mid s (.sample p :: rest)) : Mid (s.sample p) rest := by
  obtain ⟨h1, h2, h3, h4, h5, h6, h7, h8, h9, h10, h11, h12, h13⟩ := h
  simp only [posOk, Bool.and_eq_true] at h13
  exact ⟨h1, h2, h3, h4, h5, h6, h7, h8, h9, h10, h11, h12, h13.2⟩

theorem Mid.act {s : State} {x : Act} {rest : List Item} (h : Mid s (.act x :: rest)) : Mid (s.act x) rest := by
  obtain ⟨h1, h2, h3, h4, h5, h6, h7, h8, h9, h10, h11, h12, h13⟩ := h
  simp only [posOk, Bool.and_eq_true] at h13
  have h14 := h13.2
  cases x with
  | ctl y =>
    simp only [Bool.and_eq_true, decide_eq_true_eq] at h14
    exact ⟨h1, h2, h3, h4, h5, h6, h14.1.1.2, h8, fun hf => absurd (h9 hf) h14.1.1.1, h10, h11, h12, h14.2⟩
  | fn v =>
    simp only [Bool.and_eq_true, decide_eq_true_eq] at h14
    exact ⟨h1, h2, h3, h4, h5, h6, h7, h8, h9, h10, h11, h12, h14.2⟩
  | dctl v =>
    simp only [Bool.and_eq_true, decide_eq_true_eq] at h14
    exact ⟨h1, h2, h3, h4, h5, h6, h7, h8, h9, h10, h11, h12, h14.2⟩
  | entry v =>
    simp only [Bool.and_eq_true, decide_eq_true_eq] at h14
    exact ⟨h1, h2, h3, h4, h5, h6, h7, h8, h9, h10, h11, h12, h14.2⟩
  | keep => exact ⟨h1, h2, h3, h4, h5, h6, h7, h8, h9, h10, h11, h12, h14⟩
  | pollZero => exact ⟨h1, h2, h3, h4, h5, h6, h7, h8, h9, Nat.zero_le _, h11, h12, h14⟩

theorem le_longest (c : Config) (t : Nat) (h : t ∈ [c.tAsNs, c.tPwNs, c.tSettleNs, c.tPowerOnNs, c.tNeg1Ns, c.tNeg2Ns,
    c.tNeg3Ns, c.tLongNs, c.tRdEhNs, c.tRdRecNs]) : c.cycles t ≤ c.longestPhase := by
  simp only [List.mem_cons, List.not_mem_nil, or_false] at h
  unfold Config.longestPhase
  simp only [List.foldr]
  rcases h with rfl | rfl | rfl | rfl | rfl | rfl | rfl | rfl | rfl | rfl <;> omega

/-- A register read is in order where ENABLE is low and RW is wired. -/
theorem posOk_memRead (c : Config) (rs : Bool) (k : Look) (K : List Item) (he : k.e = false) (hw : c.rwWired = true)
    (hK : posOk c { k with agrees := true } K = true) : posOk c k (memRead c rs ++ K) = true := by
  have l1 := le_longest c c.tAsNs (by simp)
  have l2 := le_longest c c.tRdEhNs (by simp)
  have l3 := le_longest c c.tRdRecNs (by simp)
  have e1 : ({ k with e := false, agrees := true } : Look) = { k with agrees := true } := by cases k; simp_all
  unfold memRead readXfer
  cases hb : c.busWidth <;>
    simp [posOk, driveOk, driveLook, he, hw, cycles_pos, l1, l2, l3, partOk, hb, e1, hK]

/-- A register write is in order where ENABLE is low. -/
theorem posOk_memWrite (c : Config) (rs : Bool) (v : Byte) (k : Look) (K : List Item) (he : k.e = false)
    (hK : posOk c { k with agrees := true } K = true) : posOk c k (memWrite c rs v ++ K) = true := by
  have l1 := le_longest c c.tAsNs (by simp)
  have l2 := le_longest c c.tPwNs (by simp)
  have l3 := le_longest c c.tSettleNs (by simp)
  have e1 : ({ k with e := false, agrees := true } : Look) = { k with agrees := true } := by cases k; simp_all
  unfold memWrite writeXfer
  cases hb : c.busWidth <;>
    simp [posOk, driveOk, driveLook, he, cycles_pos, l1, l2, l3, e1, hK]

/-- A completion wait is in order where ENABLE is low and the lanes agree with RW. -/
theorem posOk_wait (c : Config) (long : Bool) (k : Look) (K : List Item) (he : k.e = false) (ha : k.agrees = true)
    (hm : 1 ≤ c.pollMax) (hK : posOk c { k with fresh := false } K = true) :
    posOk c k (completionWait c long ++ K) = true := by
  have hk : posOk c k K = true := posOk_any c K k k.fresh hK
  have l1 := le_longest c c.tLongNs (by simp)
  obtain ⟨e, ct, dl, fr, ag⟩ := k
  simp only at he ha hK
  subst he ha
  unfold completionWait
  split
  · rename_i hw
    have hp : decide (0 < c.pollMax) = true := by simp only [decide_eq_true_eq]; omega
    have hr := posOk_memRead c false ⟨false, ct, dl, true, true⟩ (.pollTest :: K) rfl hw (by
      simp only [posOk, hw, hK, Bool.not_false, Bool.and_self])
    simp only [poll, List.cons_append, List.append_assoc, List.nil_append, posOk, Bool.not_false, Bool.true_and, hp]
    exact hr
  · split
    · simp [delay, posOk, driveOk, driveLook, cycles_pos, l1, hk]
    · exact hk

/-- A phase that starts in order gives a state of the invariant. -/
theorem startPhase_inv {s : State} {d : Drive} {n : Nat} {rest : List Item} (h : Mid s (.phase d n :: rest)) :
    Inv (s.startPhase d n rest) := by
  have hd := h.drive
  have hn := h.inOrder
  simp only [posOk, Bool.and_eq_true, decide_eq_true_eq] at hn
  obtain ⟨⟨⟨-, hn1⟩, hn2⟩, -⟩ := hn
  have hrun : (s.startPhase d n rest).running = true := by
    simp [State.running, h.busy, h.unanswered]
  refine ⟨hd.legal, hd.rwUnwired, hd.noContention, hd.unusedLanes, ?_, ?_, ?_, ?_, ?_, fun _ => hd.started, hd.pulse,
    hd.faultReady, ?_, hd.pollBound, hd.tmoWired, hd.statusNamed⟩
  · intro hb
    simp [h.busy] at hb
  · intro hv
    simp [h.unanswered] at hv
  · intro hr
    rw [hrun] at hr; cases hr
  · intro hr
    rw [hrun] at hr; cases hr
  · intro _
    refine ⟨hn1, ?_, ?_⟩
    · show n ≤ (s.drive d).cfg.longestPhase
      rw [State.drive_cfg]; exact hn2
    · exact hd.inOrder
  · intro hc
    exact posOk_ready _ _ _ hd.inOrder hc

theorem Mid.counted {s : State} {rest : List Item} (h : Mid s (.pollTest :: rest)) (hl : s.pollI < s.cfg.pollMax) :
    Mid s.countPoll rest := by
  obtain ⟨h1, h2, h3, h4, h5, h6, h7, h8, h9, h10, h11, h12, h13⟩ := h
  simp only [posOk, Bool.and_eq_true] at h13
  refine ⟨h1, h2, h3, h4, h5, h6, h7, h8, h9, ?_, h11, h12, ?_⟩
  · show s.pollI + 1 ≤ s.cfg.pollMax
    omega
  · exact posOk_any s.cfg rest s.look _ h13.2

theorem advance_inv (items : List Item) (s : State) (h : Mid s items) : Inv (State.advance items s) := by
  induction items generalizing s with
  | nil => have := h.inOrder; simp [posOk] at this
  | cons i rest ih =>
    cases i with
    | phase d n => exact startPhase_inv h
    | sample p => exact ih _ h.sample
    | act x => exact ih _ h.act
    | pollTest =>
      have h0 := h.inOrder
      simp only [posOk, Bool.and_eq_true] at h0
      obtain ⟨⟨⟨⟨he, hw⟩, hf⟩, ha⟩, hr⟩ := h0
      have hl : s.pollI < s.cfg.pollMax := by simpa [State.look] using hf
      have hc := h.counted hl
      simp only [State.advance]
      split
      · exact ih _ hc
      · split
        · obtain ⟨h1, h2, h3, h4, h5, h6, h7, h8, h9, h10, h11, h12, h13⟩ := hc
          exact ih _ ⟨h1, h2, h3, h4, h5, h6, h7, h8, h9, h10, fun _ => hw, h12, h13⟩
        · rename_i hne
          have hne' : ¬ s.pollI + 1 = s.cfg.pollMax := hne
          have hm : Mid s.countPoll (memRead s.cfg false ++ .pollTest :: rest) := by
            obtain ⟨h1, h2, h3, h4, h5, h6, h7, h8, h9, h10, h11, h12, h13⟩ := hc
            refine ⟨h1, h2, h3, h4, h5, h6, h7, h8, h9, h10, h11, h12, ?_⟩
            have he' : s.e = false := by simpa [State.look] using he
            have hag : s.dirAgrees = true := ha
            have hfr : decide (s.pollI + 1 < s.cfg.pollMax) = true := by
              simp only [decide_eq_true_eq]; omega
            refine posOk_memRead s.cfg false _ _ he' hw ?_
            have e : ({ s.look with fresh := false } : Look) = ⟨false, s.ctl, dlMatches s.cfg s.fn, false, true⟩ := by
              show (⟨s.e, s.ctl, dlMatches s.cfg s.fn, false, s.dirAgrees⟩ : Look) = _
              rw [he', hag]
            show posOk s.cfg ⟨s.e, s.ctl, dlMatches s.cfg s.fn, decide (s.pollI + 1 < s.cfg.pollMax), true⟩ _ = true
            rw [e] at hr
            simp only [posOk, he', hw, hfr, hr, Bool.not_false, Bool.and_self]
          rw [pollAgain_eq]
          have hc' : s.countPoll.cfg = s.cfg := rfl
          rw [hc']
          unfold memRead readXfer at hm ⊢
          cases hb : s.cfg.busWidth <;> rw [hb] at hm <;> exact startPhase_inv hm
    | respond src =>
      have hp := h.inOrder
      simp only [posOk, Bool.and_eq_true, decide_eq_true_eq] at hp
      obtain ⟨⟨⟨he, hr⟩, hdl⟩, -⟩ := hp
      have he' : s.e = false := by simpa [State.look] using he
      refine ⟨h.legal, h.rwUnwired, h.noContention, h.unusedLanes, ?_, fun _ => ⟨rfl, rfl⟩, fun _ => he', fun _ => .inr hr,
        ?_, ?_, h.pulse, h.faultReady, fun _ => hdl, h.pollBound, h.tmoWired, ?_⟩
      · intro hb
        have hb' : s.busy = false := hb
        rw [h.busy] at hb'
        cases hb'
      · intro hx
        simp [State.advance, State.running, State.respond] at hx
      · intro hx
        simp [State.advance, State.running, State.respond] at hx
      · show s.endStatus.code ≠ 6#3
        unfold State.endStatus
        cases s.tmo <;> decide

/-! ## The requests -/

theorem Inv.acceptEdge {s : State} (h : Inv s) (hr : s.running = false) : Inv s.acceptEdge := by
  have hc := h.restCtl hr
  have he := h.restLow hr
  have hp : s.pos = [] ∧ s.cnt = 0 := by
    cases hb : s.busy
    · exact ⟨(h.idle hb).1, (h.idle hb).2.1⟩
    · exact h.answered (by simpa [State.running, hb] using hr)
  exact ⟨h.legal, h.rwUnwired, h.noContention, h.unusedLanes, fun _ => ⟨hp.1, hp.2, rfl⟩, fun hv => (by cases hv),
    fun _ => he, fun _ => hc, fun hx => (by cases hx), fun hx => (by cases hx), h.pulse, h.faultReady, h.framing,
    h.pollBound, h.tmoWired, h.statusNamed⟩

theorem legal_pollMax {c : Config} (h : c.legal = true) : 1 ≤ c.pollMax := by
  simp only [Config.legal, decide_eq_true_eq] at h
  exact h.2.2.2.2.2.2.2.2.2.2.2.2.2.2.2

/-- A request accepted in READY, after its mirror writes: what runs next must be in order for a READY look. -/
theorem Mid.accepted {s : State} (h : Inv s) (hb : s.busy = false) (hc : s.ctl = .ready) (op : BitVec 5) (a b : Byte)
    (fn dctl : BitVec 3) (entry : BitVec 2) (hfn : dlMatches s.cfg fn = true) (items : List Item)
    (hp : ∀ k : Look, k.e = false → k.ctl = .ready → k.dl = true → posOk s.cfg k items = true) :
    Mid { s.latch op a b with fn := fn, dctl := dctl, entry := entry } items := by
  have hr : s.running = false := by simp [State.running, hb]
  have he := h.restLow hr
  have hi := h.idle hb
  refine ⟨h.legal, h.rwUnwired, h.noContention, h.unusedLanes, rfl, hi.2.2, ?_, h.pulse, h.faultReady, h.pollBound,
    ?_, h.statusNamed, hp _ he hc hfn⟩
  · show s.ctl ≠ .uninit
    rw [hc]; decide
  · intro hx
    cases hx

theorem raiseError_inv {s : State} (h : Inv s) (hb : s.busy = false) (op : BitVec 5) (a b : Byte) (st : Status) :
    Inv ((s.latch op a b).raiseError st) := by
  have hr : s.running = false := by simp [State.running, hb]
  have hi := h.idle hb
  refine ⟨h.legal, h.rwUnwired, h.noContention, h.unusedLanes, ?_, fun _ => ⟨rfl, rfl⟩, fun _ => h.restLow hr,
    fun _ => h.restCtl hr, ?_, ?_, h.pulse, h.faultReady, h.framing, h.pollBound, fun hx => (by cases hx), ?_⟩
  · intro hx; cases hx
  · intro hx; simp [State.running, State.raiseError, State.respond] at hx
  · intro hx; simp [State.running, State.raiseError, State.respond] at hx
  · show st.code ≠ 6#3
    cases st <;> decide

theorem raiseConfigError_inv {s : State} (h : Inv s) (hb : s.busy = false) (hc : s.ctl = .ready) (op : BitVec 5)
    (a b : Byte) : Inv (s.latch op a b).raiseConfigError := by
  obtain ⟨h1, h2, h3, h4, h5, h6, h7, h8, h9, h9', h10, h11, h12, h13, h14, h15⟩ :=
    raiseError_inv h hb op a b .errConfig
  exact ⟨h1, h2, h3, h4, h5, h6, h7, h8, h9, h9', h10, fun _ => hc, h12, h13, h14, h15⟩

theorem posOk_respond (c : Config) (k : Look) (src : Answer) (he : k.e = false) (hc : k.ctl = .ready)
    (hd : k.dl = true) : posOk c k [.respond src] = true := by
  simp [posOk, he, hc, hd]

theorem posOk_command (c : Config) (v : Byte) (k : Look) (K : List Item) (hm : 1 ≤ c.pollMax) (he : k.e = false)
    (hK : posOk c { k with fresh := false, agrees := true } K = true) : posOk c k (commandItems c v ++ K) = true := by
  unfold commandItems
  rw [List.append_assoc]
  exact posOk_memWrite c false v k _ he (posOk_wait c _ _ K he rfl hm hK)

theorem posOk_commandRun (c : Config) (v : Byte) (hm : 1 ≤ c.pollMax) (k : Look) (he : k.e = false) (hc : k.ctl = .ready)
    (hd : k.dl = true) : posOk c k (commandItems c v ++ [.respond (.const 0x00#8)]) = true :=
  posOk_command c v k _ hm he (posOk_respond c _ _ he hc hd)

theorem posOk_init (c : Config) (k : Look) (hm : 1 ≤ c.pollMax) (he : k.e = false) (hu : k.ctl ≠ .ready) :
    posOk c k (initItems c) = true := by
  have hfs : dlMatches c (fnOfByte c.functionSetByte) = true := by
    unfold dlMatches fnOfByte Config.functionSetByte
    cases c.dl <;> cases c.nl <;> cases c.ff <;> rfl
  have hlast : ∀ k : Look, k.e = false → k.ctl = .clearDisplay → k.dl = true →
      posOk c k (.act (.ctl .entryModeSet) :: .act (.entry 0b10#2) :: (commandItems c (entryModeByte 0b10#2) ++
              [.act (.ctl .ready), .respond (.const 0x00#8)])) = true := by
    intro k he hk hd
    simp only [posOk, he, hk, Bool.not_false, Bool.true_and, ne_eq, reduceCtorEq, not_false_eq_true, decide_true]
    refine posOk_command c _ _ _ hm rfl ?_
    simp [posOk, hd, answersNow]
  have hmid : ∀ k : Look, k.e = false → k.ctl ≠ .ready →
      posOk c k (.act (.ctl .functionSet) :: .act (.fn (fnOfByte c.functionSetByte)) ::
        (commandItems c c.functionSetByte ++
        (.act (.ctl .displayOn) :: .act (.dctl 0b100#3) :: (commandItems c (displayControlByte 0b100#3) ++
          (.act (.ctl .clearDisplay) :: (commandItems c 0x01#8 ++
            (.act (.ctl .entryModeSet) :: .act (.entry 0b10#2) :: (commandItems c (entryModeByte 0b10#2) ++
              [.act (.ctl .ready), .respond (.const 0x00#8)])))))))) = true := by
    intro k he hk
    simp only [posOk, he, hk, hfs, Bool.not_false, Bool.true_and, ne_eq, reduceCtorEq, not_false_eq_true, decide_true]
    refine posOk_command c _ _ _ hm rfl ?_
    simp only [posOk, Bool.not_false, Bool.true_and, ne_eq, reduceCtorEq, not_false_eq_true, decide_true]
    refine posOk_command c _ _ _ hm rfl ?_
    simp only [posOk, Bool.not_false, Bool.true_and, ne_eq, reduceCtorEq, not_false_eq_true, decide_true]
    refine posOk_command c _ _ _ hm rfl ?_
    exact hlast _ rfl rfl rfl
  have l (t : Nat) := le_longest c t
  rw [initItems_steps]
  unfold powerOnStep negotiate
  have l1 := l c.tAsNs (by simp)
  have l2 := l c.tPwNs (by simp)
  have l3 := l c.tSettleNs (by simp)
  have l4 := l c.tPowerOnNs (by simp)
  have l5 := l c.tNeg1Ns (by simp)
  have l6 := l c.tNeg2Ns (by simp)
  have l7 := l c.tNeg3Ns (by simp)
  cases c.busWidth <;>
    simp only [List.cons_append, List.nil_append, writeXfer, delay, posOk, driveOk, driveLook, he, hu,
      cycles_pos, l1, l2, l3, l4, l5, l6, l7, Bool.not_false, Bool.true_and, Bool.and_true, ne_eq, reduceCtorEq,
      not_false_eq_true, decide_true] <;>
    exact hmid ⟨false, .neg3, k.dl, k.fresh, true⟩ rfl (by simp)
/-- The checks before a request keep the invariant if the request does. -/
theorem whenReady_inv {s : State} (h : Inv s) (hb : s.busy = false) (op : BitVec 5) (a b : Byte) (f : State → State)
    (hf : s.ctl = .ready → Inv (f (s.latch op a b))) : Inv ((s.latch op a b).whenReady f) := by
  unfold State.whenReady
  split
  · exact raiseError_inv h hb ..
  · split
    · exact raiseError_inv h hb ..
    · rename_i hc
      exact hf (by simpa using hc)

/-- A command request, after its mirror writes, keeps the invariant. -/
theorem command_inv {s : State} (h : Inv s) (hb : s.busy = false) (hc : s.ctl = .ready) (op : BitVec 5) (a b : Byte)
    (fn dctl : BitVec 3) (entry : BitVec 2) (hfn : dlMatches s.cfg fn = true) (v : Byte) :
    Inv (State.runCommand { s.latch op a b with fn := fn, dctl := dctl, entry := entry } v) :=
  advance_inv _ _ (Mid.accepted h hb hc op a b fn dctl entry hfn _ fun k he hk hd =>
    posOk_commandRun _ _ (legal_pollMax h.legal) k he hk hd)

/-- A phase sequence in order, started by a request accepted in READY, keeps the invariant. -/
theorem items_inv {s : State} (h : Inv s) (hb : s.busy = false) (hc : s.ctl = .ready) (op : BitVec 5) (a b : Byte)
    (items : List Item)
    (hp : ∀ k : Look, k.e = false → k.ctl = .ready → k.dl = true → posOk s.cfg k items = true) :
    Inv ((s.latch op a b).start items) :=
  advance_inv _ _ (Mid.accepted h hb hc op a b s.fn s.dctl s.entry (h.framing hc) items hp)

/-- A request accepted at rest can be served, whatever mirrors its accepting edge writes. -/
theorem AtRest.accepts {s u : State} (h : AtRest s) (hc : u.cfg = s.cfg) (hd : u.device = s.device) (hw : u.draws = s.draws)
    (hb : u.busy = true) (hv : u.rspValid = s.rspValid) (hp : u.port = s.port) (hh : u.host = s.host)
    (he : u.e = s.e) (hdo : u.dO = s.dO) (hrw : u.rw = s.rw) : Accepted s u := by
  obtain ⟨hi, hbusy, hn⟩ := h
  have hid := hi.idle hbusy
  refine ⟨⟨by rw [hc]; exact hi.legal, ?_, ?_⟩, ⟨?_, ?_, ?_⟩, hc, hd, hw, legal_pollMax hi.legal⟩
  · unfold NoReset; rw [hp, hh]; exact hn
  · simp [State.running, hb, hv, hid.2.2]
  · rw [he]; exact hi.restLow (by simp [State.running, hbusy])
  · rw [hdo, hc]; exact hi.unusedLanes
  · rw [hrw, hc]; exact hi.rwUnwired

theorem whenReady_run {s : State} (f : State → State) (hc : s.ctl = .ready) (hf : s.fault = false) :
    s.whenReady f = f s := by
  simp [State.whenReady, hc, hf]

/-- In READY and not faulted the common checks let the request run (60_exceptions.md R301). -/
theorem ready_run {s : State} (h : AtRestReady s) (op : BitVec 5) (a b : Byte) (f : State → State) :
    (s.latch op a b).whenReady f = f (s.latch op a b) := whenReady_run f h.ready h.notFaulted

end Sys2Proof.Machine
end

