-- ==== Sys2Proof/Laws/PerInstr.lean ====
section
/-! SUPPORT. Statements about every request, one lemma per constructor. `Fields`: the opcode map read with a request's own
opcode and operands gives that request (30_encoding.md R112). -/

namespace Sys2Proof.Laws

/-- A request is the one its own fields stand for. -/
def Fields.Statement (i : Instr) : Prop := instrOfOp i.opcode i.operandA i.operandB = i

theorem Fields.getStatus (a b : Byte) : Fields.Statement (.getStatus a b) := rfl
theorem Fields.init (a b : Byte) : Fields.Statement (.init a b) := rfl
theorem Fields.writeCmd (a b : Byte) : Fields.Statement (.writeCmd a b) := rfl
theorem Fields.writeData (a b : Byte) : Fields.Statement (.writeData a b) := rfl
theorem Fields.readData (a b : Byte) : Fields.Statement (.readData a b) := rfl
theorem Fields.readAb (a b : Byte) : Fields.Statement (.readAb a b) := rfl
theorem Fields.isBusy (a b : Byte) : Fields.Statement (.isBusy a b) := rfl
theorem Fields.clear (a b : Byte) : Fields.Statement (.clear a b) := rfl
theorem Fields.home (a b : Byte) : Fields.Statement (.home a b) := rfl
theorem Fields.cursorOn (a b : Byte) : Fields.Statement (.cursorOn a b) := rfl
theorem Fields.cursorOff (a b : Byte) : Fields.Statement (.cursorOff a b) := rfl
theorem Fields.blinkOn (a b : Byte) : Fields.Statement (.blinkOn a b) := rfl
theorem Fields.blinkOff (a b : Byte) : Fields.Statement (.blinkOff a b) := rfl
theorem Fields.scrollLeft (a b : Byte) : Fields.Statement (.scrollLeft a b) := rfl
theorem Fields.scrollRight (a b : Byte) : Fields.Statement (.scrollRight a b) := rfl
theorem Fields.entryLtr (a b : Byte) : Fields.Statement (.entryLtr a b) := rfl
theorem Fields.entryRtl (a b : Byte) : Fields.Statement (.entryRtl a b) := rfl
theorem Fields.autoscrollOn (a b : Byte) : Fields.Statement (.autoscrollOn a b) := rfl
theorem Fields.autoscrollOff (a b : Byte) : Fields.Statement (.autoscrollOff a b) := rfl
theorem Fields.setCursor (a b : Byte) : Fields.Statement (.setCursor a b) := rfl
theorem Fields.cgramSlot (a b : Byte) : Fields.Statement (.cgramSlot a b) := rfl
theorem Fields.reserved15 (a b : Byte) : Fields.Statement (.reserved15 a b) := rfl
theorem Fields.reserved16 (a b : Byte) : Fields.Statement (.reserved16 a b) := rfl
theorem Fields.reserved17 (a b : Byte) : Fields.Statement (.reserved17 a b) := rfl
theorem Fields.reserved18 (a b : Byte) : Fields.Statement (.reserved18 a b) := rfl
theorem Fields.reserved19 (a b : Byte) : Fields.Statement (.reserved19 a b) := rfl
theorem Fields.reserved1A (a b : Byte) : Fields.Statement (.reserved1A a b) := rfl
theorem Fields.reserved1B (a b : Byte) : Fields.Statement (.reserved1B a b) := rfl
theorem Fields.reserved1C (a b : Byte) : Fields.Statement (.reserved1C a b) := rfl
theorem Fields.reserved1D (a b : Byte) : Fields.Statement (.reserved1D a b) := rfl
theorem Fields.reserved1E (a b : Byte) : Fields.Statement (.reserved1E a b) := rfl
theorem Fields.reserved1F (a b : Byte) : Fields.Statement (.reserved1F a b) := rfl

end Sys2Proof.Laws
end

