-- ==== Sys2Proof/Laws/Sequencer.lean ====
section
/-! SUPPORT. What one edge of the sequencer can and cannot do (`State.advance`): the pins it may change, the ways of `ctl`
and the mirrors, what it takes from the device, and that it never looks at the latch or the host's pins. -/

namespace Sys2Proof.Machine

/-- No pin but `e` changes at an edge before or after which `e` is high. -/
theorem advance_pins (items : List Item) (s : State) (hp : posOk s.cfg s.look items = true) :
   let t := State.advance items s
   (s.e = true ∨ t.e = true) → t.rs = s.rs ∧ t.rw = s.rw ∧ t.dO = s.dO ∧ t.dir = s.dir := by
  induction items generalizing s with
  | nil => simp [posOk] at hp
  | cons i rest ih =>
    cases i with
    | phase d n =>
      simp only [posOk, Bool.and_eq_true] at hp
      obtain ⟨⟨⟨ho, -⟩, -⟩, -⟩ := hp
      rcases d with _ | ⟨_ | rs, v⟩ | ⟨_ | rs⟩ | _ | _ | _ <;>
        simp [driveOk, State.look] at ho <;> intro t ht <;> simp [t, State.advance, State.startPhase, State.drive, State.setLanes, State.setupWrite, State.setupRead, ho] at ht ⊢
    | sample p =>
      simp only [posOk, Bool.and_eq_true] at hp
      exact ih (s.sample p) hp.2
    | act x =>
      simp only [posOk, Bool.and_eq_true] at hp
      have he : s.e = false := by simpa [State.look] using hp.1
      have h2 := hp.2
      cases x with
      | ctl y => simp only [Bool.and_eq_true] at h2; exact ih (s.act (.ctl y)) h2.2
      | fn v => simp only [Bool.and_eq_true] at h2; exact ih (s.act (.fn v)) h2.2
      | dctl v => simp only [Bool.and_eq_true] at h2; exact ih (s.act (.dctl v)) h2.2
      | entry v => simp only [Bool.and_eq_true] at h2; exact ih (s.act (.entry v)) h2.2
      | keep => exact ih (s.act .keep) h2
      | pollZero => exact ih (s.act .pollZero) h2
    | pollTest =>
      simp only [posOk, Bool.and_eq_true] at hp
      have hr := hp.2
      have he : s.e = false := by simpa [State.look] using hp.1.1.1.1
      simp only [State.advance]
      split
      · exact ih s.countPoll (posOk_any s.cfg rest s.look _ hr)
      · split
        · exact ih s.countPoll.timeOut (posOk_any s.cfg rest s.look _ hr)
        · unfold State.pollAgain memRead readXfer
          intro h
          cases hb : s.countPoll.cfg.busWidth <;> rw [hb] at h <;> simp [State.startPhase, State.drive, he, State.countPoll, State.setupRead] at h
    | respond src =>
      intro t _
      exact ⟨rfl, rfl, rfl, rfl⟩

/-- In READY `ctl` and the mirrors stay; READY comes only with the response; UNINIT does not come back. -/
theorem advance_ctl (items : List Item) (s : State) (hp : posOk s.cfg s.look items = true) :
   let t := State.advance items s
   (s.ctl = .ready → t.ctl = .ready ∧ t.mirrors = s.mirrors) ∧ (s.ctl ≠ .ready → t.ctl = .ready → t.rspValid = true) ∧ (s.ctl ≠ .uninit → t.ctl ≠ .uninit) := by
  induction items generalizing s with
  | nil => simp [posOk] at hp
  | cons i rest ih =>
    cases i with
    | phase d n =>
      refine ⟨fun h => ⟨?_, ?_⟩, fun h h' => ?_, fun h => ?_⟩
      · show (s.drive d).ctl = _
        rw [State.drive_ctl]; exact h
      · show (⟨(s.drive d).fn, (s.drive d).dctl, (s.drive d).entry⟩ : Mirrors) = _
        simp [State.mirrors]
      · have : (s.drive d).ctl = .ready := h'
        rw [State.drive_ctl] at this; exact absurd this h
      · show (s.drive d).ctl ≠ _
        rw [State.drive_ctl]; exact h
    | sample p =>
      simp only [posOk, Bool.and_eq_true] at hp
      exact ih (s.sample p) hp.2
    | act x =>
      simp only [posOk, Bool.and_eq_true] at hp
      have h2 := hp.2
      cases x with
      | ctl y =>
        simp only [Bool.and_eq_true, decide_eq_true_eq] at h2
        obtain ⟨⟨⟨a1, a2⟩, a3⟩, a4⟩ := h2
        have := ih (s.act (.ctl y)) a4
        obtain ⟨b1, b2, b3⟩ := this
        refine ⟨fun h => absurd h a1, fun h h' => ?_, fun h => b3 a2⟩
        by_cases hy : y = .ready
        · have := a3 hy
          cases rest with
          | nil => cases this
          | cons j l =>
            obtain ⟨src, rfl⟩ := answersNow_cons this
            rfl
        · exact b2 hy h'
      | fn v => simp only [Bool.and_eq_true, decide_eq_true_eq] at h2; obtain ⟨b1, b2, b3⟩ := ih (s.act (.fn v)) h2.2; exact ⟨fun h => absurd h h2.1, b2, b3⟩
      | dctl v => simp only [Bool.and_eq_true, decide_eq_true_eq] at h2; obtain ⟨b1, b2, b3⟩ := ih (s.act (.dctl v)) h2.2; exact ⟨fun h => absurd h h2.1, b2, b3⟩
      | entry v => simp only [Bool.and_eq_true, decide_eq_true_eq] at h2; obtain ⟨b1, b2, b3⟩ := ih (s.act (.entry v)) h2.2; exact ⟨fun h => absurd h h2.1, b2, b3⟩
      | keep => exact ih (s.act .keep) h2
      | pollZero => exact ih (s.act .pollZero) h2
    | pollTest =>
      simp only [posOk, Bool.and_eq_true] at hp
      have hr := hp.2
      simp only [State.advance]
      split
      · exact ih s.countPoll (posOk_any s.cfg rest s.look _ hr)
      · split
        · exact ih s.countPoll.timeOut (posOk_any s.cfg rest s.look _ hr)
        · unfold State.pollAgain memRead readXfer
          cases hb : s.countPoll.cfg.busWidth <;>
          exact ⟨fun h => ⟨h, rfl⟩, fun h h' => absurd h' h, fun h => h⟩
    | respond src => exact ⟨fun h => ⟨h, rfl⟩, fun h h' => absurd h' h, fun h => h⟩

/-- Where RW is not wired the device has no influence. -/
theorem advance_device (items : List Item) (s : State) (d : List Byte) (n : Nat) (hw : s.cfg.rwWired = false) (hp : posOk s.cfg s.look items = true) :
   State.advance items { s with device := d, draws := n } = { State.advance items s with device := d, draws := n } := by
  induction items generalizing s with
  | nil => rfl
  | cons i rest ih =>
    cases i with
    | phase d n => rcases d with _ | ⟨_ | rs, v⟩ | ⟨_ | rs⟩ | _ | _ | _ <;> rfl
    | sample p => simp [posOk, hw] at hp
    | act x =>
      simp only [posOk, Bool.and_eq_true] at hp
      have h2 := hp.2
      cases x with
      | ctl y => simp only [Bool.and_eq_true] at h2; exact ih (s.act (.ctl y)) hw h2.2
      | fn v => simp only [Bool.and_eq_true] at h2; exact ih (s.act (.fn v)) hw h2.2
      | dctl v => simp only [Bool.and_eq_true] at h2; exact ih (s.act (.dctl v)) hw h2.2
      | entry v => simp only [Bool.and_eq_true] at h2; exact ih (s.act (.entry v)) hw h2.2
      | keep => exact ih (s.act .keep) hw h2
      | pollZero => exact ih (s.act .pollZero) hw h2
    | pollTest => simp [posOk, hw] at hp
    | respond src => cases src <;> rfl

theorem advance_pollTest (rest : List Item) (s : State) :
    State.advance (.pollTest :: rest) s = if s.rdAcc.getLsbD 7 = false then State.advance rest s.countPoll
      else if s.countPoll.pollI = s.cfg.pollMax then State.advance rest s.countPoll.timeOut
      else s.countPoll.pollAgain rest := rfl

theorem advance_draws (items : List Item) (s : State) : s.draws ≤ (State.advance items s).draws := by
  induction items generalizing s with
  | nil => exact le_refl _
  | cons i rest ih =>
    cases i with
    | phase d n => rcases d with _ | ⟨_ | rs, v⟩ | ⟨_ | rs⟩ | _ | _ | _ <;> exact le_refl _
    | sample p => exact le_trans (Nat.le_succ _) (ih (s.sample p))
    | act x => have := ih (s.act x); cases x <;> exact this
    | pollTest =>
      simp only [State.advance]
      split
      · exact ih s.countPoll
      · split
        · exact ih s.countPoll.timeOut
        · unfold State.pollAgain memRead readXfer
          cases s.countPoll.cfg.busWidth <;> exact le_refl _
    | respond src => exact le_refl _

/-- A sample sees the active lanes alone. -/
theorem advance_lanes (items : List Item) (s : State) (v w : Byte) (r : List Byte) (hd : s.device = v :: r) (hv : v &&& s.cfg.active = w &&& s.cfg.active) (hp : posOk s.cfg s.look items = true) :
   State.advance items { s with device := w :: r } = { State.advance items s with device := if (State.advance items s).draws = s.draws then w :: r else (State.advance items s).device } := by
  induction items generalizing s with
  | nil => simp [posOk] at hp
  | cons i rest ih =>
    cases i with
    | phase d n => rcases d with _ | ⟨_ | rs, v⟩ | ⟨_ | rs⟩ | _ | _ | _ <;> simp [State.advance, State.startPhase, State.drive, State.setLanes, State.setupWrite, State.setupRead]
    | sample p =>
      simp only [posOk, Bool.and_eq_true] at hp
      obtain ⟨⟨⟨-, -⟩, hpk⟩, -⟩ := hp
      have e : State.sample { s with device := w :: r } p = s.sample p := by
        have h1 : ({ s with device := w :: r } : State).lcdDI = w := rfl
        have h2 : s.lcdDI = v := by simp [State.lcdDI, hd]
        simp only [State.sample, h1, h2, hd, List.tail_cons]
        have : sampleInto s.rdAcc w p = sampleInto s.rdAcc v p := by
          unfold partOk at hpk
          cases hb : s.cfg.busWidth <;> rw [hb] at hpk <;> simp only [Config.active, hb] at hv
          · cases p <;> simp only [sampleInto, Byte.lo]
            · rw [hv]
            · rw [hv]
            · simp at hpk
          · have : v = w := by
              rw [← byte_masked v, ← byte_masked w]; exact hv
            rw [this]
        rw [this]
      show State.advance rest (State.sample { s with device := w :: r } p) = _
      rw [e]
      have := advance_draws rest (s.sample p)
      have h3 : (s.sample p).draws = s.draws + 1 := rfl
      rw [if_neg (by show ¬ (State.advance rest (s.sample p)).draws = _; omega)]
      rfl
    | act x =>
      simp only [posOk, Bool.and_eq_true] at hp
      have h2 := hp.2
      cases x with
      | ctl y => simp only [Bool.and_eq_true] at h2; exact ih (s.act (.ctl y)) hd hv h2.2
      | fn v => simp only [Bool.and_eq_true] at h2; exact ih (s.act (.fn v)) hd hv h2.2
      | dctl v => simp only [Bool.and_eq_true] at h2; exact ih (s.act (.dctl v)) hd hv h2.2
      | entry v => simp only [Bool.and_eq_true] at h2; exact ih (s.act (.entry v)) hd hv h2.2
      | keep => exact ih (s.act .keep) hd hv h2
      | pollZero => exact ih (s.act .pollZero) hd hv h2
    | pollTest =>
      simp only [posOk, Bool.and_eq_true] at hp
      have hr := hp.2
      have k1 := ih s.countPoll hd hv (posOk_any s.cfg rest s.look _ hr)
      have k2 := ih s.countPoll.timeOut hd hv (posOk_any s.cfg rest s.look _ hr)
      have hm := advance_pollTest rest s
      have hm' : State.advance (.pollTest :: rest) { s with device := w :: r }
        = if s.rdAcc.getLsbD 7 = false then State.advance rest { s.countPoll with device := w :: r }
          else if s.countPoll.pollI = s.cfg.pollMax then State.advance rest { s.countPoll.timeOut with device := w :: r }
          else State.pollAgain { s.countPoll with device := w :: r } rest := rfl
      by_cases h1 : s.rdAcc.getLsbD 7 = false
      · rw [hm, hm', if_pos h1, if_pos h1]
        exact k1
      · by_cases h2 : s.countPoll.pollI = s.cfg.pollMax
        · rw [hm, hm', if_neg h1, if_neg h1, if_pos h2, if_pos h2]
          exact k2
        · rw [hm, hm', if_neg h1, if_neg h1, if_neg h2, if_neg h2]
          unfold State.pollAgain memRead readXfer
          cases hb : s.countPoll.cfg.busWidth <;> simp [State.startPhase, State.drive, State.countPoll, State.setupRead]
    | respond src => cases src <;> simp [State.advance, State.respond] <;> first | rfl | exact ⟨rfl, rfl⟩

/-- The latch and the host's pins have no influence. -/
theorem advance_put_request (items : List Item) (s : State) (op : BitVec 5) (a b : Byte) (port : HostPins) (host : List HostPins) :
    State.advance items { s with op := op, a := a, b := b, port := port, host := host }
      = { State.advance items s with op := op, a := a, b := b, port := port, host := host } := by
  induction items generalizing s with
  | nil => rfl
  | cons i rest ih =>
    cases i with
    | phase d n => rcases d with _ | ⟨_ | rs, v⟩ | ⟨_ | rs⟩ | _ | _ | _ <;> rfl
    | sample p => exact ih (s.sample p)
    | act x => have := ih (s.act x); cases x <;> exact this
    | pollTest =>
      have hm := advance_pollTest rest s
      have hm' : State.advance (.pollTest :: rest) { s with op := op, a := a, b := b, port := port, host := host }
        = if s.rdAcc.getLsbD 7 = false
          then State.advance rest { s.countPoll with op := op, a := a, b := b, port := port, host := host }
          else if s.countPoll.pollI = s.cfg.pollMax
          then State.advance rest { s.countPoll.timeOut with op := op, a := a, b := b, port := port, host := host }
          else State.pollAgain { s.countPoll with op := op, a := a, b := b, port := port, host := host } rest := rfl
      by_cases h1 : s.rdAcc.getLsbD 7 = false
      · rw [hm, hm', if_pos h1, if_pos h1]
        exact ih s.countPoll
      · by_cases h2 : s.countPoll.pollI = s.cfg.pollMax
        · rw [hm, hm', if_neg h1, if_neg h1, if_pos h2, if_pos h2]
          exact ih s.countPoll.timeOut
        · rw [hm, hm', if_neg h1, if_neg h1, if_neg h2, if_neg h2]
          unfold State.pollAgain memRead readXfer
          cases hb : s.countPoll.cfg.busWidth <;> rfl
    | respond src => cases src <;> rfl

/-! ## The accepting edge and the host -/

/-- What no request touches at its accepting edge: the configuration and the host's pins. -/
theorem exec_host (i : Instr) (s t : State) (hx : exec i s = .next t) :
    t.cfg = s.cfg ∧ t.port = s.port ∧ t.host = s.host := by
  have key : ∀ (l : State) (items : List Item), l.cfg = s.cfg ∧ l.port = s.port ∧ l.host = s.host →
      (State.advance items l).cfg = s.cfg ∧ (State.advance items l).port = s.port
        ∧ (State.advance items l).host = s.host := by
    intro l items h
    have := advance_same items l
    rw [this.cfg, this.port, this.host]; exact h
  have hm : ∀ (l : State) (v : Byte), (l.mirrorCommand v).cfg = l.cfg ∧ (l.mirrorCommand v).port = l.port
      ∧ (l.mirrorCommand v).host = l.host := by
    intro l v; unfold State.mirrorCommand; split <;> (try split) <;> (try split) <;> exact ⟨rfl, rfl, rfl⟩
  have hw : ∀ (l : State) (f : State → State), (l.cfg = s.cfg ∧ l.port = s.port ∧ l.host = s.host) →
      ((f l).cfg = s.cfg ∧ (f l).port = s.port ∧ (f l).host = s.host) →
      (l.whenReady f).cfg = s.cfg ∧ (l.whenReady f).port = s.port ∧ (l.whenReady f).host = s.host := by
    intro l f h g
    unfold State.whenReady
    split
    · exact h
    · split
      · exact h
      · exact g
  have hr : ∀ (op : BitVec 5) (a b : Byte), (s.latch op a b).cfg = s.cfg ∧ (s.latch op a b).port = s.port
      ∧ (s.latch op a b).host = s.host := fun _ _ _ => ⟨rfl, rfl, rfl⟩
  cases i <;> cases hx
  case init a b =>
    split
    · exact ⟨rfl, rfl, rfl⟩
    · split
      · exact ⟨rfl, rfl, rfl⟩
      · exact key _ _ ⟨rfl, rfl, rfl⟩
  case writeCmd a b =>
    refine hw _ _ (hr ..) ?_
    split
    · exact ⟨rfl, rfl, rfl⟩
    · exact key _ _ (hm _ _)
  case readData a b => refine hw _ _ (hr ..) ?_; split <;> first | exact key _ _ (hr ..) | exact ⟨rfl, rfl, rfl⟩
  case readAb a b => refine hw _ _ (hr ..) ?_; split <;> first | exact key _ _ (hr ..) | exact ⟨rfl, rfl, rfl⟩
  case isBusy a b => refine hw _ _ (hr ..) ?_; split <;> exact key _ _ (hr ..)
  all_goals first
    | exact ⟨rfl, rfl, rfl⟩
    | exact hw _ _ (hr ..) (key _ _ ⟨rfl, rfl, rfl⟩)

/-- A host that raises no reset raises none after an edge either. -/
theorem NoReset.step {s t : State} (h : NoReset s) (hx : Machine.step s = .next t) : NoReset t := by
  unfold Machine.step at hx
  split at hx
  · rw [if_neg (by simp [h.1])] at hx
    split at hx
    · split at hx
      · cases hx
      · cases hx
        unfold State.runEdge
        split
        · exact h.moves false
        · unfold NoReset
          rw [(advance_same _ _).port, (advance_same _ _).host]
          exact h.moves false
    · split at hx
      · obtain ⟨-, e1, e2⟩ := exec_host _ _ _ hx
        unfold NoReset
        rw [e1, e2]
        exact h.moves true
      · cases hx; exact h.moves false
  · cases hx

end Sys2Proof.Machine
end

