-- ==== Sys2Proof/Tests/Slice0.lean ====
section
/-! SUPPORT. The model's own tests: request words written out from the encoding tables, what WellFormed refuses, single
edges against spec/95_test_vectors.md and the worked examples of the rules, and for every statement with hypotheses a
state and operands that meet them. -/

namespace Sys2Proof.Tests

open Sys2Proof.Machine

/-! ## Decoding (30_encoding.md R111, R112: opcode, first operand, second operand) -/

theorem test_decode_status : decode 0b00000_00000011_01010101 = .ok (.getStatus 0x03#8 0x55#8) := by decide
theorem test_decode_init : decode 0b00001_00000000_00000000 = .ok (.init 0x00#8 0x00#8) := by decide

theorem test_decode_registers :
    decode 0b00010_00001110_00000001 = .ok (.writeCmd 0x0E#8 0x01#8)
      ∧ decode 0b00011_01001000_00000010 = .ok (.writeData 0x48#8 0x02#8)
      ∧ decode 0b00100_10000000_00000011 = .ok (.readData 0x80#8 0x03#8)
      ∧ decode 0b00101_01000000_00000100 = .ok (.readAb 0x40#8 0x04#8)
      ∧ decode 0b00110_00100000_00000101 = .ok (.isBusy 0x20#8 0x05#8) := by decide

theorem test_decode_clear_home :
    decode 0b00111_00000001_10000000 = .ok (.clear 0x01#8 0x80#8)
      ∧ decode 0b01000_00000010_01000000 = .ok (.home 0x02#8 0x40#8) := by decide

theorem test_decode_cursor_blink :
    decode 0b01001_00000001_00000010 = .ok (.cursorOn 0x01#8 0x02#8)
      ∧ decode 0b01010_00000001_00000010 = .ok (.cursorOff 0x01#8 0x02#8)
      ∧ decode 0b01011_00000001_00000010 = .ok (.blinkOn 0x01#8 0x02#8)
      ∧ decode 0b01100_00000001_00000010 = .ok (.blinkOff 0x01#8 0x02#8) := by decide

theorem test_decode_scroll :
    decode 0b01101_00000001_00000010 = .ok (.scrollLeft 0x01#8 0x02#8)
      ∧ decode 0b01110_00000001_00000010 = .ok (.scrollRight 0x01#8 0x02#8) := by decide

theorem test_decode_entry :
    decode 0b01111_00000001_00000010 = .ok (.entryLtr 0x01#8 0x02#8)
      ∧ decode 0b10000_00000001_00000010 = .ok (.entryRtl 0x01#8 0x02#8)
      ∧ decode 0b10001_00000001_00000010 = .ok (.autoscrollOn 0x01#8 0x02#8)
      ∧ decode 0b10010_00000001_00000010 = .ok (.autoscrollOff 0x01#8 0x02#8) := by decide

theorem test_decode_addresses :
    decode 0b10011_11001000_00000001 = .ok (.setCursor 0xC8#8 0x01#8)
      ∧ decode 0b10100_00001001_11111111 = .ok (.cgramSlot 0x09#8 0xFF#8) := by decide

theorem test_decode_reserved :
    decode 0b10101_00000001_00000010 = .ok (.reserved15 0x01#8 0x02#8)
      ∧ decode 0b10110_00000001_00000010 = .ok (.reserved16 0x01#8 0x02#8)
      ∧ decode 0b10111_00000001_00000010 = .ok (.reserved17 0x01#8 0x02#8)
      ∧ decode 0b11000_00000001_00000010 = .ok (.reserved18 0x01#8 0x02#8)
      ∧ decode 0b11001_00000001_00000010 = .ok (.reserved19 0x01#8 0x02#8)
      ∧ decode 0b11010_00000001_00000010 = .ok (.reserved1A 0x01#8 0x02#8)
      ∧ decode 0b11011_00000001_00000010 = .ok (.reserved1B 0x01#8 0x02#8)
      ∧ decode 0b11100_00000001_00000010 = .ok (.reserved1C 0x01#8 0x02#8)
      ∧ decode 0b11101_00000001_00000010 = .ok (.reserved1D 0x01#8 0x02#8)
      ∧ decode 0b11110_00000001_00000010 = .ok (.reserved1E 0x01#8 0x02#8)
      ∧ decode 0b11111_00000001_00000010 = .ok (.reserved1F 0x01#8 0x02#8) := by decide

/-- A number of 22 bits is no request word. -/
theorem test_decode_refuses : decode 0x200000 = .error (.notARequestWord 0x200000) := by decide

theorem test_table_word :
    decodeTableWord 21 0x130301 = some (.setCursor 0x03#8 0x01#8) ∧ decodeTableWord 24 0x200000 = none := by decide

/-! ## What is ill-formed (30_encoding.md R126, R127; 00_scope.md R8) -/

theorem test_illformed_opcode : (SourceLine.request 0x15 []).wellFormed = false := by decide
theorem test_illformed_three_operands : (SourceLine.request 0x13 [0, 1, 2]).wellFormed = false := by decide
theorem test_illformed_operand : (SourceLine.request 0x02 [256]).wellFormed = false := by decide
theorem test_illformed_text : (SourceLine.print [0x41, 256]).wellFormed = false := by decide
theorem test_illformed_slot : (SourceLine.createChar 256 [0, 0, 0, 0, 0, 0, 0, 0]).wellFormed = false := by decide
theorem test_illformed_row_count : (SourceLine.createChar 0 [0, 0, 0, 0, 0, 0, 0]).wellFormed = false := by decide
theorem test_illformed_row : (SourceLine.createChar 0 [0, 0, 0, 0, 0, 0, 0, 256]).wellFormed = false := by decide

theorem test_illegal_configurations :
    let c := Config.board
    c.WellFormed
      ∧ ¬ ({ c with lines := 0 } : Config).WellFormed ∧ ¬ ({ c with lines := 5 } : Config).WellFormed
      ∧ ¬ ({ c with cols := 0 } : Config).WellFormed ∧ ¬ ({ c with cols := 256 } : Config).WellFormed
      ∧ ¬ ({ c with tClkNs := 0 } : Config).WellFormed ∧ ¬ ({ c with tAsNs := 999 } : Config).WellFormed
      ∧ ¬ ({ c with tPwNs := 449 } : Config).WellFormed ∧ ¬ ({ c with tSettleNs := 36999 } : Config).WellFormed
      ∧ ¬ ({ c with tPowerOnNs := 39999999 } : Config).WellFormed ∧ ¬ ({ c with tNeg1Ns := 4099999 } : Config).WellFormed
      ∧ ¬ ({ c with tNeg2Ns := 99999 } : Config).WellFormed ∧ ¬ ({ c with tNeg3Ns := 99999 } : Config).WellFormed
      ∧ ¬ ({ c with tLongNs := 0 } : Config).WellFormed ∧ ¬ ({ c with tRdEhNs := 449 } : Config).WellFormed
      ∧ ¬ ({ c with tRdRecNs := 999 } : Config).WellFormed ∧ ¬ ({ c with pollMax := 0 } : Config).WellFormed := by decide

/-! ## The assembler (30_encoding.md R126, R127) -/

/-- The words of 95_test_vectors.md WR-1, SC-2 and CG-6, in the three operand forms and with a comment. -/
theorem test_assemble_request :
    assembleLine "WRITE_CMD 0x0E ; display control".toList = some [0x020E00#21]
      ∧ assembleLine "SET_CURSOR 3, 1".toList = some [0x130301#21]
      ∧ assembleLine "CGRAM_SLOT 9".toList = some [0x140900#21] ∧ assembleLine "INIT".toList = some [0x010000#21]
      ∧ assembleLine "WRITE_DATA 'H'".toList = some [0x034800#21] := by decide

theorem test_assemble_pseudo :
    assembleLine "PRINT \"Hi\"".toList = some [0x034800#21, 0x036900#21] ∧ assembleLine "PRINT \"\"".toList = some []
      ∧ assembleLine "CREATE_CHAR 1, 0x1F, 0, 0, 0, 0, 0, 0, 2".toList
          = some [0x140100#21, 0x031F00#21, 0x030000#21, 0x030000#21, 0x030000#21, 0x030000#21, 0x030000#21,
            0x030000#21, 0x030200#21] := by decide

theorem test_assemble_refuses :
    assembleLine "WRITE_CMD 256".toList = none ∧ assembleLine "NOP".toList = none
      ∧ assembleLine "SET_CURSOR 1 2".toList = none := by decide

/-! ## The configuration (00_scope.md R2, 95_test_vectors.md TR-1, TR-2, INIT-5) -/

/-- 1 MHz, default timing, 4-bit bus, two lines. -/
def four (rw : Bool) : Config := { busWidth := .four, rwWired := rw, lines := 2, cols := 16, tClkNs := 1000 }

/-- 1 MHz, default timing, 8-bit bus, two lines. -/
def eight (rw : Bool) : Config := { busWidth := .eight, rwWired := rw, lines := 2, cols := 16, tClkNs := 1000 }

theorem test_ident : Config.board.ident = "LCDC-B4-RW1-L2" := by decide

theorem test_durations :
    [0, 450, 1000, 1001, 37000, 4100000].map (four true).cycles = [1, 1, 1, 2, 37, 4100]
      ∧ ({ four true with tClkNs := 20 } : Config).writeXferLen = 1950
      ∧ ({ four true with tClkNs := 20 } : Config).readXferLen = 150 := by decide

theorem test_function_set :
    (four false).functionSetByte = 0x28#8 ∧ (eight false).functionSetByte = 0x38#8
      ∧ ({ four false with lines := 1, font5x10 := true } : Config).functionSetByte = 0x24#8
      ∧ ({ four false with lines := 2, font5x10 := true } : Config).functionSetByte = 0x28#8
      ∧ ({ eight false with lines := 1, font5x10 := false } : Config).functionSetByte = 0x30#8 := by decide

/-- 95_test_vectors.md SC-1 to SC-12. -/
theorem test_set_cursor_bytes :
    let c2 := four false
    let c4 : Config := { c2 with lines := 4, cols := 20 }
    let wide : Config := { c2 with lines := 4, cols := 255 }
    c2.setCursorByte 0 0 = 0x80#8 ∧ c2.setCursorByte 3 1 = 0xC3#8 ∧ c2.setCursorByte 5 7 = 0xC5#8
      ∧ c2.setCursorByte 200 1 = 0x88#8 ∧ c2.setCursorByte 17 0 = 0x91#8 ∧ c4.setCursorByte 0 2 = 0x94#8
      ∧ c4.setCursorByte 19 3 = 0xE7#8 ∧ c4.setCursorByte 0 9 = 0xD4#8
      ∧ ({ c2 with lines := 1, cols := 8 } : Config).setCursorByte 3 3 = 0x83#8
      ∧ wide.setCursorByte 1 2 = 0x80#8 ∧ wide.setCursorByte 0 3 = 0xBF#8 ∧ c2.setCursorByte 128 0 = 0x80#8 := by decide

/-! ## Requests, one accepting edge each -/

/-- Initialized, at rest, with the pins a request boundary may leave. -/
def ready (c : Config) : State :=
  { State.atReset c HostPins.quiet [] [] 0 with
    ctl := .ready, fn := fnOfByte c.functionSetByte, dctl := 0b100#3, entry := 0b10#2, dir := .write }

/-- In reset. -/
def fresh (c : Config) : State := State.atReset c HostPins.quiet [] [] 0

/-- The state after one edge, or the state before it where the edge stops. -/
def edge (s : State) : State :=
  match step s with
  | .next t => t
  | _ => s

/-- The edge that accepts a request word. -/
def accept (w : Nat) (s : State) : State := edge (s.withFetchWord 24 w)

/-- A rejection with this code at this edge. -/
def Rejects (t : State) (code : BitVec 3) : Prop :=
  t.rspValid = true ∧ t.rspStatus = code ∧ t.rspData = 0x00#8 ∧ t.pos = []

/-- What a register write puts on the pins at its first edge. -/
def Sends (t : State) (rs : Bool) (dO : Byte) : Prop :=
  t.running = true ∧ t.rs = rs ∧ t.rw = false ∧ t.dir = .write ∧ t.e = false ∧ t.dO = dO

/-- ST-1, ST-2, ST-4, ST-8. -/
theorem test_get_status :
    (accept 0x000000 (fresh (four true))).rspData = 0x18#8 ∧ (accept 0x000000 (fresh (eight false))).rspData = 0x14#8
      ∧ (accept 0x000000 (ready (four false))).rspData = 0x01#8 ∧ (accept 0x00FD55 (ready (eight true))).rspData = 0x06#8
      ∧ (accept 0x000200 (ready (eight true))).rspData = 0x04#8
      ∧ (accept 0x000300 (ready (eight true))).rspData = 0x02#8 := by decide

/-- EX-3: bit 1 with `fault`, answered OK. -/
theorem test_get_status_faulted :
    (accept 0x000000 { ready (four false) with fault := true }).rspData = 0x03#8
      ∧ (accept 0x000000 { ready (four false) with fault := true }).rspStatus = 0#3 := by decide

/-- INIT-1: POWER_ON's pins and its 50000 cycles. -/
theorem test_init :
    let t := accept 0x010000 (fresh (four false))
    t.ctl = .powerOn ∧ t.cnt = 50000 ∧ t.dir = .write ∧ t.dO = 0x00#8 ∧ t.rs = false ∧ t.rw = false := by decide

/-- INIT-6, EX-7, EX-10. -/
theorem test_init_refused :
    Rejects (accept 0x010000 (ready (four false))) 5#3
      ∧ Rejects (accept 0x010000 { ready (four false) with fault := true }) 3#3 := by
  unfold Rejects; decide

/-- WR-1, WR-3: the mirror at the accepting edge, the byte or its high nibble on the lanes. -/
theorem test_write_cmd :
    (accept 0x020E00 (ready (eight false))).dctl = 0b110#3 ∧ Sends (accept 0x020E00 (ready (eight false))) false 0x0E#8
      ∧ (accept 0x022C00 (ready (four false))).fn = 0b011#3
      ∧ Sends (accept 0x022C00 (ready (four false))) false 0x02#8 := by
  unfold Sends; decide

/-- WR-2, EX-9. -/
theorem test_write_cmd_refused :
    Rejects (accept 0x023C00 (ready (four false))) 4#3 ∧ Rejects (accept 0x023C00 (fresh (four false))) 1#3 := by
  unfold Rejects; decide

/-- WR-10. -/
theorem test_write_data : Sends (accept 0x034800 (ready (four false))) true 0x04#8 := by
  unfold Sends; decide

/-- RD-1 and the pins of a read. -/
theorem test_read_data :
    Rejects (accept 0x040000 (ready (four false))) 2#3 ∧ (accept 0x040000 (ready (four false))).fault = true
      ∧ (accept 0x040000 (ready (four false))).rw = false
      ∧ (let t := accept 0x040000 (ready (eight true)); t.rw = true ∧ t.rs = true ∧ t.dir = .read ∧ t.dOe = 0x00#8) := by
  unfold Rejects; decide

/-- RD-5, EX-5 and the pins of a read. -/
theorem test_read_ab :
    Rejects (accept 0x050000 (ready (eight false))) 2#3 ∧ Rejects (accept 0x050000 (fresh (eight false))) 1#3
      ∧ (accept 0x050000 (fresh (eight false))).fault = false
      ∧ (let t := accept 0x050000 (ready (four true)); t.rw = true ∧ t.rs = false ∧ t.dir = .read) := by
  unfold Rejects; decide

/-- RD-6. -/
theorem test_is_busy :
    let t := accept 0x060000 (ready (four false))
    t.rspValid = true ∧ t.rspStatus = 0#3 ∧ t.rspData = 0x01#8 ∧ t.fault = false ∧ t.pos = [] := by decide

/-- CA-2: no mirror changes. -/
theorem test_clear :
    let t := accept 0x070000 { ready (eight false) with entry := 0b00#2 }
    Sends t false 0x01#8 ∧ t.entry = 0b00#2 := by
  unfold Sends; decide

/-- CA-1. -/
theorem test_home : Sends (accept 0x080000 (ready (eight false))) false 0x02#8 := by
  unfold Sends; decide

/-- CA-3. -/
theorem test_cursor_on :
    let t := accept 0x090000 (ready (eight false))
    t.dctl = 0b110#3 ∧ Sends t false 0x0E#8 := by
  unfold Sends; decide

/-- CA-5. -/
theorem test_cursor_off :
    let t := accept 0x0A0000 { ready (eight false) with dctl := 0b111#3 }
    t.dctl = 0b101#3 ∧ Sends t false 0x0D#8 := by
  unfold Sends; decide

/-- CA-7. -/
theorem test_blink_on :
    let t := accept 0x0B0000 { ready (eight false) with dctl := 0b000#3 }
    t.dctl = 0b001#3 ∧ Sends t false 0x09#8 := by
  unfold Sends; decide

/-- CA-8. -/
theorem test_blink_off :
    let t := accept 0x0C0000 { ready (eight false) with dctl := 0b111#3 }
    t.dctl = 0b110#3 ∧ Sends t false 0x0E#8 := by
  unfold Sends; decide

/-- CA-9. -/
theorem test_scroll_left : Sends (accept 0x0D0000 (ready (four false))) false 0x01#8 := by
  unfold Sends; decide

/-- CA-10. -/
theorem test_scroll_right : Sends (accept 0x0E0000 (ready (eight false))) false 0x1C#8 := by
  unfold Sends; decide

/-- CA-11. -/
theorem test_entry_ltr :
    let t := accept 0x0F0000 { ready (eight false) with entry := 0b00#2 }
    t.entry = 0b10#2 ∧ Sends t false 0x06#8 := by
  unfold Sends; decide

/-- CA-12. -/
theorem test_entry_rtl :
    let t := accept 0x100000 (ready (eight false))
    t.entry = 0b00#2 ∧ Sends t false 0x04#8 := by
  unfold Sends; decide

/-- CA-14. -/
theorem test_autoscroll_on :
    let t := accept 0x110000 { ready (eight false) with entry := 0b00#2 }
    t.entry = 0b01#2 ∧ Sends t false 0x05#8 := by
  unfold Sends; decide

/-- CA-15. -/
theorem test_autoscroll_off :
    let t := accept 0x120000 { ready (eight false) with entry := 0b11#2 }
    t.entry = 0b10#2 ∧ Sends t false 0x06#8 := by
  unfold Sends; decide

/-- SC-2. -/
theorem test_set_cursor : Sends (accept 0x130301 (ready (eight false))) false 0xC3#8 := by
  unfold Sends; decide

/-- CG-3, CG-6. -/
theorem test_cgram_slot :
    Sends (accept 0x140200 (ready (four false))) false 0x05#8 ∧ Sends (accept 0x140900 (ready (eight false))) false 0x48#8 := by
  unfold Sends; decide

/-- EX-1, EX-2 and the others between them. -/
theorem test_reserved :
    Rejects (accept 0x150000 (fresh (four false))) 4#3
      ∧ ∀ op ∈ [0x16, 0x17, 0x18, 0x19, 0x1A, 0x1B, 0x1C, 0x1D, 0x1E, 0x1F],
        Rejects (accept (op * 0x10000) { ready (four false) with fault := true }) 4#3 := by
  unfold Rejects; decide

/-- EX-4, EX-8: a request before INIT, and one on a faulted LCDC. -/
theorem test_rejections :
    Rejects (accept 0x034100 (fresh (four false))) 1#3
      ∧ Rejects (accept 0x034100 { ready (four false) with fault := true }) 3#3 := by
  unfold Rejects; decide

/-! ## Single edges inside a request -/

/-- A running request with this left to do, at the last cycle of a phase. -/
def ending (c : Config) (pos : List Item) : State := { ready c with busy := true, cnt := 1, pos := pos }

/-- TR-6, TR-7: the sample takes the active lanes alone, at the edge where `e` falls. -/
theorem test_sample :
    let s := { ending (four true) (readXfer (four true) none .high).tail.tail with e := true, device := [0xF8#8] }
    (edge s).rdAcc = 0x80#8 ∧ (edge s).e = false ∧ (edge s).device = [] := by decide

/-- EX-12: the read that reaches the ceiling of 2 ends the poll with OK_TIMEOUT. -/
theorem test_poll_ceiling :
    let c : Config := { eight true with pollMax := 2 }
    let t := edge { ending c [.pollTest, .respond (.const 0x00#8)] with rdAcc := 0x80#8, pollI := 1 }
    t.rspValid = true ∧ t.rspStatus = 7#3 ∧ t.pollI = 2 ∧ t.tmo = true := by decide

/-- 41_register_access.md R189: busy below the ceiling, so the next read starts at this edge. -/
theorem test_poll_again :
    let t := edge { ending (eight true) [.pollTest, .respond (.const 0x00#8)] with rdAcc := 0x80#8, dir := .read, rw := true }
    t.running = true ∧ t.pollI = 1 ∧ t.cnt = 1 ∧ t.dir = .read ∧ t.rw = true := by decide

/-- The response stands one cycle, and the edge that ends it may accept the next request (30_encoding.md R113, log 4). -/
theorem test_response_one_cycle :
    let s := accept 0x060000 (ready (four false))
    (edge s).rspValid = false ∧ (edge s).busy = false ∧ (edge s).reqReady = true
      ∧ (edge (s.present 0x000000#21)).rspData = 0x01#8 := by decide

/-- INIT-7: `rst` ends INIT. -/
theorem test_reset_edge :
    let s := accept 0x010000 (fresh (four false))
    let t := edge { s with port := { HostPins.quiet with rst := true } }
    t.ctl = .uninit ∧ t.dir = .read ∧ t.busy = false ∧ t.rspValid = false ∧ t.pos = [] := by decide

/-- The first request after State.reset is the one placed with `withFetchWord`. -/
theorem test_first_request :
    step (State.reset.withFetchWord 21 0x000000) = exec (.getStatus 0x00#8 0x00#8)
      (State.reset.withFetchWord 21 0x000000).acceptEdge := rfl

/-! ## Witnesses: a state and operands for the hypotheses of each statement -/

/-- A clock period of 100 ms: every phase lasts one cycle. -/
def fast (c : Config) : Config := { c with tClkNs := 100000000 }

theorem test_witness_decode : (0 : Nat) < 2 ^ 21 ∧ 2 ^ 21 - 1 < 2 ^ 21 ∧ 2 ^ 21 ≤ 2 ^ 21 := by decide

theorem test_witness_assembler :
    (0x14 : Nat) ≤ 0x14 ∧ [255, 0].length ≤ 2 ∧ (∀ n ∈ [255, 0], n < 256) ∧ (0 : Nat) < 256
      ∧ [0, 1, 2, 3, 4, 5, 6, 255].length = 8 ∧ ∀ n ∈ [0, 1, 2, 3, 4, 5, 6, 255], n < 256 := by decide

/-- Invariants of concrete states are decided field by field. -/
theorem inv_of {s : State}
    (h1 : s.cfg.legal = true) (h2 : s.cfg.rwWired = false → s.rw = false) (h3 : s.dir = .write → s.rw = false)
    (h4 : s.dO &&& ~~~ s.cfg.active = 0x00#8) (h5 : s.busy = false → s.pos = [] ∧ s.cnt = 0 ∧ s.rspValid = false)
    (h6 : s.rspValid = true → s.pos = [] ∧ s.cnt = 0) (h7 : s.running = false → s.e = false)
    (h8 : s.running = false → s.ctl = .uninit ∨ s.ctl = .ready)
    (h9 : s.running = true → 1 ≤ s.cnt ∧ s.cnt ≤ s.cfg.longestPhase ∧ posOk s.cfg s.look s.pos = true)
    (h10 : s.running = true → s.ctl ≠ .uninit) (h11 : s.e = true → s.dirAgrees = true)
    (h12 : s.fault = true → s.ctl = .ready) (h13 : s.ctl = .ready → dlMatches s.cfg s.fn = true)
    (h14 : s.pollI ≤ s.cfg.pollMax) (h15 : s.tmo = true → s.cfg.rwWired = true) (h16 : s.rspStatus ≠ 6#3) : Inv s :=
  ⟨h1, h2, h3, h4, h5, h6, h7, h8, h9, h10, h11, h12, h13, h14, h15, h16⟩

theorem inv_fresh (rw : Bool) : Inv (fresh (four rw)) := by
  cases rw <;> apply inv_of <;> decide

theorem inv_ready_four (rw : Bool) : Inv (ready (four rw)) := by
  cases rw <;> apply inv_of <;> decide

theorem inv_ready_eight (rw : Bool) : Inv (ready (eight rw)) := by
  cases rw <;> apply inv_of <;> decide

theorem quiet_noReset (c : Config) : NoReset (ready c) := ⟨rfl, by simp [ready, State.atReset]⟩

/-- Of the four statements about INIT and of `EveryRequestIsAnswered` and `MirrorsFollowTheBus`. -/
theorem test_witness_at_rest (rw : Bool) : AtRest (fresh (four rw)) ∧ (fresh (four rw)).ctl = .uninit :=
  ⟨⟨inv_fresh rw, rfl, rfl, by simp [fresh, State.atReset]⟩, rfl⟩

/-- Of `AtRestReady`, with RW wired and without. -/
theorem test_witness_at_rest_ready (rw : Bool) :
    AtRestReady (ready (four rw)) ∧ AtRestReady (ready (eight rw)) ∧ (ready (four rw)).cfg.rwWired = rw :=
  ⟨⟨⟨inv_ready_four rw, rfl, quiet_noReset _⟩, rfl, rfl⟩, ⟨⟨inv_ready_eight rw, rfl, quiet_noReset _⟩, rfl, rfl⟩, rfl⟩

/-- A write in its ENABLE-high phase, with the RW absent. -/
def inPulse : State := { ending (eight false) [.phase .low 1, .respond (.const 0x00#8)] with e := true }

/-- A read in its ENABLE-high phase: the sample comes next. -/
def inRead : State :=
  { ending (four true) [.sample .high, .phase .low 1, .respond .rdAcc] with
    e := true, dir := .read, rw := true, device := [0x05#8, 0x06#8] }

/-- INIT at its last edge. -/
def lastOfInit : State :=
  { ending (eight false) [.act (.ctl .ready), .respond (.const 0x00#8)] with ctl := .entryModeSet }

theorem inv_inPulse : Inv inPulse := by apply inv_of <;> decide
theorem inv_inRead : Inv inRead := by apply inv_of <;> decide
theorem inv_lastOfInit : Inv lastOfInit := by apply inv_of <;> decide

theorem test_witness_illegal : ¬ (1 ≤ ({ four true with lines := 0 } : Config).lines) := by decide

theorem test_witness_reset_edge :
    (ready (four true)).cfg.legal = true
      ∧ ({ ready (four true) with port := { HostPins.quiet with rst := true } } : State).port.rst = true := by decide

theorem test_witness_accept :
    let s := (ready (four true)).withFetchWord 21 0x130301
    s.cfg.legal = true ∧ s.port.rst = false ∧ s.running = false ∧ s.port.reqValid = true
      ∧ decode s.port.req.toNat = .ok (.setCursor 0x03#8 0x01#8) := by decide

theorem test_witness_accept_at_rest :
    Inv (ready (four true)) ∧ NoReset (ready (four true)) ∧ (ready (four true)).running = false :=
  ⟨inv_ready_four true, quiet_noReset _, rfl⟩

theorem test_witness_idle :
    let s := ready (four true)
    s.cfg.legal = true ∧ s.port.rst = false ∧ s.running = false ∧ s.port.reqValid = false := by decide

theorem test_witness_phase : Inv inPulse ∧ NoReset inPulse ∧ inPulse.running = true ∧ 0 < inPulse.cnt :=
  ⟨inv_inPulse, ⟨rfl, by decide⟩, rfl, by decide⟩

theorem test_witness_transfers :
    inPulse.cfg.legal = true ∧ NoReset inPulse ∧ inPulse.running = true ∧ [Item.respond (.const 0x00#8)] ≠ [] :=
  ⟨by decide, ⟨rfl, by decide⟩, rfl, by decide⟩

/-- `StepKeepsInvariant`, `StepNeverStops`, `PinsHeldInAPulse` and `PinsAlwaysLegal`: ENABLE falls in a write and in a read, and
both bus widths and both directions occur. -/
theorem test_witness_steps :
    (Inv inPulse ∧ inPulse.e = true ∧ inPulse.port.rst = false ∧ step inPulse = .next (edge inPulse)
        ∧ (edge inPulse).dir = .write ∧ (edge inPulse).dOe = 0xFF#8 ∧ (edge inPulse).cfg.rwWired = false)
      ∧ (Inv inRead ∧ inRead.e = true ∧ step inRead = .next (edge inRead) ∧ (edge inRead).dir = .read
        ∧ (edge inRead).cfg.busWidth = .four) :=
  ⟨⟨inv_inPulse, rfl, rfl, rfl, rfl, rfl, rfl⟩, ⟨inv_inRead, rfl, rfl, rfl, rfl⟩⟩

/-- `ControllerPath`: READY stays, READY is reached, UNINIT is left, `rst` takes it back. -/
theorem test_witness_controller :
    (Inv inPulse ∧ inPulse.ctl = .ready ∧ step inPulse = .next (edge inPulse))
      ∧ (Inv lastOfInit ∧ lastOfInit.ctl ≠ .ready ∧ step lastOfInit = .next (edge lastOfInit)
          ∧ (edge lastOfInit).ctl = .ready)
      ∧ (let s := (fresh (four false)).withFetchWord 21 0x010000
         Inv s ∧ s.ctl = .uninit ∧ step s = .next (edge s) ∧ (edge s).ctl ≠ .uninit)
      ∧ (let s := { inPulse with port := { HostPins.quiet with rst := true } }
         s.port.rst = true ∧ step s = .next (edge s)) := by
  refine ⟨⟨inv_inPulse, rfl, rfl⟩, ⟨inv_lastOfInit, by decide, rfl, by decide⟩, ⟨?_, rfl, rfl, by decide⟩, rfl, rfl⟩
  apply inv_of <;> decide

/-- `FaultIsSticky`, `RequestLatch`, `ResponseHeld`, `MirrorsAndConfigurationHeld`, `HostCannotDisturb`: a request runs on and on
under another port, and one raises ERR_CONFIG. -/
theorem test_witness_running :
    (inPulse.running = true ∧ inPulse.port.rst = false ∧ step inPulse = .next (edge inPulse))
      ∧ (edge inPulse).rspValid = false ∧ inPulse.ctl = .ready
      ∧ ({ HostPins.quiet with reqValid := true } : HostPins).rst = false
      ∧ (ready (four false)).rspValid = false
      ∧ (∃ t, exec (.readData 0x00#8 0x00#8) (ready (four false)) = .next t ∧ t.fault = true) :=
  ⟨⟨rfl, rfl, rfl⟩, rfl, rfl, rfl, rfl, _, rfl, rfl⟩

/-- `DeviceCannotReachWithoutRW`, `InactiveLanesNeverRead`: the second with answers that differ in an inactive lane. -/
theorem test_witness_device :
    (Inv inPulse ∧ inPulse.cfg.rwWired = false ∧ step inPulse = .next (edge inPulse))
      ∧ (Inv inRead ∧ inRead.device = 0x05#8 :: [0x06#8] ∧ 0x05#8 &&& inRead.cfg.active = 0xF5#8 &&& inRead.cfg.active
        ∧ step inRead = .next (edge inRead) ∧ (edge inRead).draws ≠ inRead.draws) :=
  ⟨⟨inv_inPulse, rfl, rfl⟩, ⟨inv_inRead, rfl, by decide, rfl, by decide⟩⟩

/-- `ChecksInOrder`: each code and the pass of them all. -/
theorem test_witness_checks :
    (ready (four false)).verdict (.reserved1F 0x00#8 0x00#8) = some 4#3
      ∧ ({ ready (four false) with fault := true } : State).verdict (.clear 0x00#8 0x00#8) = some 3#3
      ∧ (ready (four false)).verdict (.init 0x00#8 0x00#8) = some 5#3
      ∧ (fresh (four false)).verdict (.clear 0x00#8 0x00#8) = some 1#3
      ∧ (ready (four false)).verdict (.readAb 0x00#8 0x00#8) = some 2#3
      ∧ (ready (four false)).verdict (.writeCmd 0x3C#8 0x00#8) = some 4#3
      ∧ (ready (four true)).verdict (.readAb 0x00#8 0x00#8) = none
      ∧ (fresh (four false)).verdict (.getStatus 0x00#8 0x00#8) = none
      ∧ (fresh (four false)).verdict (.init 0x00#8 0x00#8) = none ∧ (ready (four true)).rspValid = false := by decide

/-- `IgnoredOperands`: operands that differ in what is ignored alone. -/
theorem test_witness_ignored :
    (∃ t, exec (.clear 0x01#8 0x02#8) (ready (four false)) = .next t)
      ∧ (∃ t, exec (.writeData 0x01#8 0x02#8) (ready (four false)) = .next t)
      ∧ (0x01#8).extractLsb' 0 2 = (0xFD#8).extractLsb' 0 2 ∧ (0x01#8).extractLsb' 0 3 = (0x09#8).extractLsb' 0 3 :=
  ⟨⟨_, rfl⟩, ⟨_, rfl⟩, by decide, by decide⟩

/-- `WriteCmdSends`: each clause, at the ends of the function-set range (bits 7:5 = 0b001, bit 4 against DL = 0). -/
theorem test_witness_write_cmd :
    let refused (v : Byte) : Bool :=
      decide (v.extractLsb' 5 3 = 0b001#3 ∧ v.getLsbD 4 ≠ decide ((ready (four false)).cfg.busWidth = .eight))
    (∀ v ∈ [0x30#8, 0x3F#8], refused v = true)
      ∧ ∀ v ∈ [0x1F#8, 0x20#8, 0x2F#8, 0x40#8, 0x08#8, 0x0F#8, 0x04#8, 0x07#8, 0x01#8, 0x03#8, 0x00#8],
        refused v = false := by decide

/-- 41_register_access.md R195: the ends of each mirror's range, and the bytes just outside it. -/
theorem test_write_cmd_ranges :
    let after (v : Nat) := (accept (0x020000 + v * 256) (ready (four false))).mirrors
    let m := (ready (four false)).mirrors
    after 0x08 = { m with dctl := 0b000#3 } ∧ after 0x0F = { m with dctl := 0b111#3 } ∧ after 0x10 = m
      ∧ after 0x04 = { m with entry := 0b00#2 } ∧ after 0x07 = { m with entry := 0b11#2 } ∧ after 0x03 = m
      ∧ after 0x20 = { m with fn := 0b000#3 } ∧ after 0x2F = { m with fn := 0b011#3 } ∧ after 0x1F = m
      ∧ after 0x40 = m := by decide

/-- `FunctionSetByteTable`: each clause. -/
theorem test_witness_function_set :
    ∀ w ∈ [BusWidth.four, BusWidth.eight], ∀ n ∈ [1, 2, 4], ∀ f ∈ [true, false],
      ({ four false with busWidth := w, lines := n, font5x10 := f } : Config).legal = true := by decide

/-- `DurationsRoundUp`, `ElectricalMargins`. -/
theorem test_witness_durations :
    1 ≤ (four true).tClkNs ∧ (2000 : Nat) = 2 * (four true).tClkNs ∧ 450 < (four true).tClkNs
      ∧ (four true).legal = true := by decide

/-- A poll's end, ready at once, meets `PollEnds`. -/
theorem test_witness_poll_ends : PollEnds { ready (eight true) with device := [0x00#8] } 0 0 :=
  ⟨by decide, by intro m hm; omega, .inl (by decide)⟩

/-- A whole WRITE_DATA on the fastest clock is served in three cycles with one transfer. -/
theorem test_served :
    let s := ready (fast (eight false))
    ∃ u, exec (.writeData 0x41#8 0x00#8) s = .next u ∧ transfers 3 u = [⟨true, false, 0xFF#8, 0x41#8⟩]
      ∧ ∃ t, run 3 u = .next t ∧ t.rspValid = true ∧ t.rspStatus = 0#3 :=
  ⟨_, rfl, by decide, _, rfl, rfl, rfl⟩

/-- `ResetIsInvariant`: boards of both widths, with RW and without. -/
theorem test_witness_reset_boards :
    ∀ rw ∈ [true, false], (four rw).legal = true ∧ (eight rw).legal = true := by decide

/-- `RequestReady`: a request served in three cycles on a board at rest, with nothing presented after it; and an edge with
`rst` high, after which it stays high or falls. -/
theorem test_witness_request_ready :
    (let s := ready (fast (eight false))
     AtRest s ∧ ∃ u t, exec (.writeData 0x41#8 0x00#8) s = .next u
        ∧ Serves (.writeData 0x41#8 0x00#8) s 3 t [⟨true, false, 0xFF#8, 0x41#8⟩] ∧ t.port.reqValid = false)
      ∧ ∀ p ∈ [HostPins.quiet, { HostPins.quiet with rst := true }],
          let s : State := { inPulse with port := { HostPins.quiet with rst := true }, host := [p] }
          s.port.rst = true ∧ step s = .next (edge s) ∧ (edge s).port = p := by
  refine ⟨⟨⟨?_, rfl, quiet_noReset _⟩, _, _, rfl, ⟨_, rfl, rfl, rfl, ?_, by decide⟩, rfl⟩, fun _ _ => ⟨rfl, rfl, rfl⟩⟩
  · apply inv_of <;> decide
  · intro m hm
    obtain rfl | rfl | rfl : m = 0 ∨ m = 1 ∨ m = 2 := by omega
    all_goals exact ⟨_, rfl, rfl⟩

end Sys2Proof.Tests
end

section
/-! SUPPORT. One edge of the clock by its kind: what `step` answers is a reset edge, an edge of a running request, an
accepting edge or an idle edge (`Edge.of_step`), and what each of them does to the configuration and the mirrors. -/

namespace Sys2Proof.Machine

/-! ## The configuration -/

theorem legal_iff (c : Config) :
    c.legal = true ↔ 1 ≤ c.lines ∧ c.lines ≤ 4 ∧ 1 ≤ c.cols ∧ c.cols ≤ 255 ∧ 1 ≤ c.tClkNs
      ∧ 1000 ≤ c.tAsNs ∧ 450 ≤ c.tPwNs ∧ 37000 ≤ c.tSettleNs ∧ 40000000 ≤ c.tPowerOnNs
      ∧ 4100000 ≤ c.tNeg1Ns ∧ 100000 ≤ c.tNeg2Ns ∧ 100000 ≤ c.tNeg3Ns ∧ 1 ≤ c.tLongNs
      ∧ 450 ≤ c.tRdEhNs ∧ 1000 ≤ c.tRdRecNs ∧ 1 ≤ c.pollMax :=
  decide_eq_true_iff

theorem step_of_not_legal {s : State} (h : ¬ s.cfg.legal = true) : step s = .refused .illegalConfig :=
  if_neg h

/-! ## The kinds of edges -/

/-- The four ways an edge leads from a state to a next one, with the pins that choose between them. -/
inductive Edge (s : State) : State → Prop where
  /-- `rst` wins over everything (60_exceptions.md R313). -/
  | reset (rst : s.port.rst = true) : Edge s s.resetEdge
  /-- A running request goes on (40_transport.md R151). -/
  | run (rst : s.port.rst = false) (running : s.running = true) (left : s.pos ≠ []) : Edge s s.runEdge
  /-- A presented request is accepted (30_encoding.md R113). -/
  | accept {t : State} (rst : s.port.rst = false) (free : s.running = false) (valid : s.port.reqValid = true)
      (runs : exec (decodeReq s.port.req) s.acceptEdge = .next t) : Edge s t
  /-- Nothing runs and nothing is presented (40_transport.md R157). -/
  | idle (rst : s.port.rst = false) (free : s.running = false) (quiet : s.port.reqValid = false) : Edge s s.idleEdge

theorem Edge.of_step {s t : State} (h : step s = .next t) : Edge s t := by
  unfold step at h
  split at h
  · split at h
    · next hrst => cases h; exact .reset hrst
    · next hrst =>
      have hrst : s.port.rst = false := by simpa using hrst
      split at h
      · next hrun =>
        split at h
        · cases h
        · next hpos => cases h; exact .run hrst hrun (by simp [hpos])
      · next hrun =>
        have hrun : s.running = false := by simpa using hrun
        split at h
        · next hv => exact .accept hrst hrun hv h
        · next hv => cases h; exact .idle hrst hrun (by simpa using hv)
  · cases h

/-! ## An edge inside a running request -/

theorem runEdge_waiting {s : State} (h : 1 < s.cnt) : s.runEdge = { s.hostMoves false with cnt := s.cnt - 1 } :=
  if_pos h

theorem runEdge_phaseEnd {s : State} (h : ¬ 1 < s.cnt) : s.runEdge = State.advance s.pos (s.hostMoves false) :=
  if_neg h

@[simp] theorem runEdge_cfg (s : State) : s.runEdge.cfg = s.cfg := by
  by_cases hc : 1 < s.cnt
  · rw [runEdge_waiting hc, State.hostMoves_cfg]
  · rw [runEdge_phaseEnd hc, advance_cfg, State.hostMoves_cfg]

/-- In READY a running request writes no mirror: what is left of it is in order, and an order that starts in READY
holds no mirror write (`advance_ctl`). -/
theorem runEdge_mirrors {s : State} (h : Inv s) (hrun : s.running = true) (hc : s.ctl = .ready) :
    s.runEdge.mirrors = s.mirrors := by
  by_cases hcnt : 1 < s.cnt
  · rw [runEdge_waiting hcnt]; rfl
  · obtain ⟨-, -, hpos⟩ := h.inOrder hrun
    obtain ⟨hready, -, -⟩ := advance_ctl s.pos (s.hostMoves false) hpos
    rw [runEdge_phaseEnd hcnt]
    exact (hready hc).2

/-! ## Any edge -/

/-- The parameters of 00_scope.md R8 are constant for the whole run. -/
theorem step_cfg {s t : State} (h : step s = .next t) : t.cfg = s.cfg := by
  cases Edge.of_step h with
  | reset => rfl
  | run => exact runEdge_cfg s
  | accept _ _ _ hx =>
    obtain ⟨hcfg, -, -⟩ := exec_host _ _ _ hx
    exact hcfg
  | idle => rfl

/-- While a request runs and `rst` is low, the edge is an edge of that request. -/
theorem step_running {s t : State} (hrst : s.port.rst = false) (hrun : s.running = true) (h : step s = .next t) :
    t = s.runEdge := by
  cases Edge.of_step h with
  | reset hr => simp [hrst] at hr
  | run => rfl
  | accept _ hf => simp [hrun] at hf
  | idle _ hf => simp [hrun] at hf

end Sys2Proof.Machine
end

section
/-! PROOFS. The obligations of 00_scope.md: the legal configurations, and what a run holds fixed. -/

namespace Sys2Proof.Proofs

open Sys2Proof.Machine

/-- Settles O7: `Config.legal` decides the legal values of R8, and `step` asks for it first. -/
theorem illegalConfigurationIsRefused : Obligations.IllegalConfigurationIsRefused := by
  intro s h
  exact step_of_not_legal (mt (legal_iff s.cfg).mp h)

/-- Settles O25: no kind of edge writes the configuration, and in READY an edge of a running request writes no mirror. -/
theorem mirrorsAndConfigurationHeld : Obligations.MirrorsAndConfigurationHeld := by
  refine ⟨fun s t => step_cfg, fun s t hinv hrst hready hrun hstep => ?_⟩
  rw [step_running hrst hrun hstep]
  exact runEdge_mirrors hinv hrun hready

end Sys2Proof.Proofs
end

section
/-! SUPPORT. The mirror a command byte sets (10_state.md R39, 30_encoding.md R120): `Mirrors.after` in the terms in
which the requests write their mirrors. -/

namespace Sys2Proof.Machine

/-! ## The three kinds of byte that set a mirror, by their highest set bit and by their leading bits -/

theorem ofByte_functionSet_iff : ∀ v : Byte, CommandKind.ofByte v = some .functionSet ↔ v.isFunctionSet = true := by
  decide

theorem ofByte_displayControl_iff :
    ∀ v : Byte, CommandKind.ofByte v = some .displayControl ↔ v.isDisplayControl = true := by
  decide

theorem ofByte_entryModeSet_iff : ∀ v : Byte, CommandKind.ofByte v = some .entryModeSet ↔ v.isEntryMode = true := by
  decide

/-! ## A command byte on the bus -/

/-- Each mirror after a command write: the byte's fields where it is of the mirror's kind. -/
theorem after_command (m : Mirrors) (v : Byte) :
    m.after (.write false v) = {
      fn := if v.isFunctionSet then fnOfByte v else m.fn
      dctl := if v.isDisplayControl then dctlOfByte v else m.dctl
      entry := if v.isEntryMode then entryOfByte v else m.entry } := by
  simp only [Mirrors.after, ← ofByte_functionSet_iff, ← ofByte_displayControl_iff, ← ofByte_entryModeSet_iff]
  cases CommandKind.ofByte v with
  | none => rfl
  | some kind => cases kind <;> rfl

theorem displayControlByte_kind : ∀ d : BitVec 3,
    (displayControlByte d).isFunctionSet = false ∧ (displayControlByte d).isDisplayControl = true
      ∧ (displayControlByte d).isEntryMode = false ∧ dctlOfByte (displayControlByte d) = d := by
  decide

theorem entryModeByte_kind : ∀ e : BitVec 2,
    (entryModeByte e).isFunctionSet = false ∧ (entryModeByte e).isDisplayControl = false
      ∧ (entryModeByte e).isEntryMode = true ∧ entryOfByte (entryModeByte e) = e := by
  decide

/-- The byte sets no mirror. -/
def setsNoMirror (v : Byte) : Bool := !v.isFunctionSet && !v.isDisplayControl && !v.isEntryMode

theorem ddramAddress_setsNoMirror : ∀ v : Byte, setsNoMirror (0x80#8 ||| v) = true := by decide

theorem cgramSlotByte_setsNoMirror : ∀ a : Byte, setsNoMirror (cgramSlotByte a) = true := by decide

theorem after_displayControlByte (m : Mirrors) (d : BitVec 3) :
    m.after (.write false (displayControlByte d)) = { m with dctl := d } := by
  obtain ⟨hf, hd, he, hv⟩ := displayControlByte_kind d
  simp [after_command, hf, hd, he, hv]

theorem after_entryModeByte (m : Mirrors) (e : BitVec 2) :
    m.after (.write false (entryModeByte e)) = { m with entry := e } := by
  obtain ⟨hf, hd, he, hv⟩ := entryModeByte_kind e
  simp [after_command, hf, hd, he, hv]

theorem after_setsNoMirror (m : Mirrors) {v : Byte} (h : setsNoMirror v = true) :
    m.after (.write false v) = m := by
  simp only [setsNoMirror, Bool.and_eq_true, Bool.not_eq_true'] at h
  obtain ⟨⟨hf, hd⟩, he⟩ := h
  simp [after_command, hf, hd, he]

/-! ## The requests' own writes -/

/-- The mirrors written as a whole. -/
def State.withMirrors (s : State) (m : Mirrors) : State := { s with fn := m.fn, dctl := m.dctl, entry := m.entry }

/-- WRITE_CMD writes what its byte sets on the bus (41_register_access.md R195). -/
theorem mirrorCommand_eq (s : State) (v : Byte) :
    s.mirrorCommand v = s.withMirrors (s.mirrors.after (.write false v)) := by
  simp only [State.mirrorCommand, Mirrors.after, ← ofByte_functionSet_iff, ← ofByte_displayControl_iff,
    ← ofByte_entryModeSet_iff]
  cases CommandKind.ofByte v with
  | none => rfl
  | some kind => cases kind <;> rfl

theorem fnOfByte_dl : ∀ v : Byte, (fnOfByte v).getLsbD 2 = v.dlBit := by decide

/-- A command byte that is no function set of the other bus width leaves the mirror's DL the configured one
(41_register_access.md R195). -/
theorem dlMatches_after {c : Config} {m : Mirrors} {v : Byte} (hv : (v.isFunctionSet && (v.dlBit != c.dl)) = false)
    (h : dlMatches c m.fn = true) : dlMatches c (m.after (.write false v)).fn = true := by
  simp only [after_command]
  split
  · next hf =>
    rw [dlMatches, fnOfByte_dl]
    simpa [hf] using hv
  · exact h

end Sys2Proof.Machine
end

section
/-! SUPPORT. What a request does at its accepting edge, once for all requests: what `exec` answers is a rejection, an
answer at once, or the start of one of four phase sequences (`Accepts.of_exec`). -/

namespace Sys2Proof.Machine

/-- The request latch with the fields of `i` in it (30_encoding.md R113). -/
def State.latched (s : State) (i : Instr) : State := s.latch i.opcode i.operandA i.operandB

/-- The ways of a request at its accepting edge. -/
inductive Accepts (i : Instr) (s : State) : State → Prop where
  /-- A check turns it away with a code other than ERR_CONFIG (60_exceptions.md R301). INIT is turned away only in READY
  or with `fault` set. -/
  | reject (st : Status) (code : st ≠ .errConfig) (checks : i.opcode = 0x01#5 → s.ctl = .ready ∨ s.fault = true) :
      Accepts i s ((s.latched i).raiseError st)
  /-- It asks for a read where RW is not wired (60_exceptions.md R303). -/
  | configError (ready : s.ctl = .ready) : Accepts i s (s.latched i).raiseConfigError
  /-- It is answered at once, with no bus access (43_command_api.md R267, 41_register_access.md R199). -/
  | answer (v : Byte) (other : i.opcode ≠ 0x01#5) : Accepts i s ((s.latched i).start [.respond (.const v)])
  /-- INIT runs (42_controller_init.md R220). -/
  | init (op : i.opcode = 0x01#5) (fresh : s.ctl ≠ .ready) : Accepts i s ((s.latched i).start (initItems s.cfg))
  /-- One register write and its completion wait, with the mirrors already as the byte sets them (43_command_api.md
  R250, 41_register_access.md R195, R196). -/
  | write (rs : Bool) (v : Byte) (long : Bool) (ready : s.ctl = .ready)
      (width : dlMatches s.cfg s.fn = true → dlMatches s.cfg (s.mirrors.after (.write rs v)).fn = true) :
      Accepts i s (((s.latched i).withMirrors (s.mirrors.after (.write rs v))).start
        ((memWrite s.cfg rs v ++ completionWait s.cfg long) ++ [.respond (.const 0x00#8)]))
  /-- READ_DATA runs (41_register_access.md R197). -/
  | readData (ready : s.ctl = .ready) (wired : s.cfg.rwWired = true) :
      Accepts i s ((s.latched i).start
        (memRead s.cfg true ++ .act .keep :: completionWait s.cfg false ++ [.respond .rdKeep]))
  /-- One busy/address read and no wait (41_register_access.md R198, R199). -/
  | readBusy (src : Answer) (ready : s.ctl = .ready) (wired : s.cfg.rwWired = true) :
      Accepts i s ((s.latched i).start (memRead s.cfg false ++ [.respond src]))

/-- The checks every request but GET_STATUS, INIT and the reserved ones shares: what is left to say is what the request
does in READY. -/
theorem Accepts.whenReady {i : Instr} {s : State} {f : State → State} (other : i.opcode ≠ 0x01#5)
    (run : s.ctl = .ready → Accepts i s (f (s.latched i))) : Accepts i s ((s.latched i).whenReady f) := by
  unfold State.whenReady
  split
  · exact .reject .errFaulted (by decide) fun h => absurd h other
  · split
    · exact .reject .errNotInit (by decide) fun h => absurd h other
    · next hc => exact run (by simpa [State.latched] using hc)

/-- A command request: its mirrors are already those its byte sets (43_command_api.md R250). -/
theorem Accepts.command {i : Instr} {s : State} {v : Byte} {m : Mirrors}
    (mirrors : s.mirrors.after (.write false v) = m)
    (width : dlMatches s.cfg s.fn = true → dlMatches s.cfg m.fn = true) (ready : s.ctl = .ready) :
    Accepts i s (((s.latched i).withMirrors m).runCommand v) := by
  subst mirrors
  exact .write false v v.isLong ready width

/-- A command that changes no mirror (43_command_api.md R251, R252, R257, R258, R263, R264). -/
theorem Accepts.plainCommand {i : Instr} {s : State} {v : Byte} (hv : setsNoMirror v = true)
    (ready : s.ctl = .ready) : Accepts i s ((s.latched i).runCommand v) :=
  .command (after_setsNoMirror s.mirrors hv) id ready

/-- A command that writes `dctl` and sends `0x08 | dctl` (43_command_api.md R253 to R256). -/
theorem Accepts.dctlCommand {i : Instr} {s : State} (d : BitVec 3) (ready : s.ctl = .ready) :
    Accepts i s (State.runCommand { s.latched i with dctl := d } (displayControlByte d)) :=
  .command (after_displayControlByte s.mirrors d) id ready

/-- A command that writes `entry` and sends `0x04 | entry` (43_command_api.md R259 to R262). -/
theorem Accepts.entryCommand {i : Instr} {s : State} (e : BitVec 2) (ready : s.ctl = .ready) :
    Accepts i s (State.runCommand { s.latched i with entry := e } (entryModeByte e)) :=
  .command (after_entryModeByte s.mirrors e) id ready

/-- WRITE_CMD after its checks (41_register_access.md R195): its mirror is the one its byte sets. -/
theorem Accepts.rawCommand {i : Instr} {s : State} {v : Byte} (other : i.opcode ≠ 0x01#5) (ready : s.ctl = .ready) :
    Accepts i s (if v.isFunctionSet && (v.dlBit != s.cfg.dl) then (s.latched i).raiseError .errIllegal
      else ((s.latched i).mirrorCommand v).runCommand v) := by
  split
  · exact .reject .errIllegal (by decide) fun h => absurd h other
  · next hv =>
    rw [mirrorCommand_eq]
    exact .command rfl (dlMatches_after (m := s.mirrors) (by simpa using hv)) ready

/-- `exec` on every request. -/
theorem Accepts.of_exec {i : Instr} {s t : State} (h : exec i s = .next t) : Accepts i s t := by
  cases i <;> cases h
  case getStatus a b => exact .answer _ (by simp [Instr.opcode])
  case init a b =>
    split
    · next hf => exact .reject .errFaulted (by decide) fun _ => .inr hf
    · split
      · next hc => exact .reject .errReinit (by decide) fun _ => .inl hc
      · next hc => exact .init rfl hc
  case writeCmd a b => exact .whenReady (by simp [Instr.opcode]) (.rawCommand (by simp [Instr.opcode]))
  case writeData a b => exact .whenReady (by simp [Instr.opcode]) fun hc => .write true a false hc id
  case readData a b =>
    refine .whenReady (by simp [Instr.opcode]) fun hc => ?_
    split
    · next hw => exact .readData hc hw
    · exact .configError hc
  case readAb a b =>
    refine .whenReady (by simp [Instr.opcode]) fun hc => ?_
    split
    · next hw => exact .readBusy .rdAcc hc hw
    · exact .configError hc
  case isBusy a b =>
    refine .whenReady (by simp [Instr.opcode]) fun hc => ?_
    split
    · next hw => exact .readBusy .busyBit hc hw
    · exact .answer _ (by simp [Instr.opcode])
  case clear | home | scrollLeft | scrollRight =>
    exact .whenReady (by simp [Instr.opcode]) (.plainCommand rfl)
  case setCursor => exact .whenReady (by simp [Instr.opcode]) (.plainCommand (ddramAddress_setsNoMirror _))
  case cgramSlot => exact .whenReady (by simp [Instr.opcode]) (.plainCommand (cgramSlotByte_setsNoMirror _))
  case cursorOn | cursorOff | blinkOn | blinkOff => exact .whenReady (by simp [Instr.opcode]) (.dctlCommand _)
  case entryLtr | entryRtl | autoscrollOn | autoscrollOff =>
    exact .whenReady (by simp [Instr.opcode]) (.entryCommand _)
  all_goals exact .reject .errIllegal (by decide) (by simp [Instr.opcode])

/-- No request stops the machine: its meaning is a next state. -/
theorem exec_next (i : Instr) (s : State) : ∃ t, exec i s = .next t := by
  cases i <;> exact ⟨_, rfl⟩

end Sys2Proof.Machine
end

section
/-! SUPPORT. The invariant over one edge and over a run: every request's accepting edge keeps it (`exec_inv`), and so
does every kind of edge (`step_inv`). -/

namespace Sys2Proof.Machine

/-! ## What the invariant does not look at -/

theorem Inv.hostPins {s : State} (h : Inv s) (port : HostPins) (host : List HostPins) :
    Inv { s with port := port, host := host } :=
  ⟨h.legal, h.rwUnwired, h.noContention, h.unusedLanes, h.idle, h.answered, h.restLow, h.restCtl, h.inOrder, h.started,
    h.pulse, h.faultReady, h.framing, h.pollBound, h.tmoWired, h.statusNamed⟩

theorem Inv.answerData {s : State} (h : Inv s) (v : Byte) : Inv { s with rspData := v } :=
  ⟨h.legal, h.rwUnwired, h.noContention, h.unusedLanes, h.idle, h.answered, h.restLow, h.restCtl, h.inOrder, h.started,
    h.pulse, h.faultReady, h.framing, h.pollBound, h.tmoWired, h.statusNamed⟩

theorem running_iff (s : State) : s.running = true ↔ s.busy = true ∧ s.rspValid = false := by simp [State.running]

/-! ## The accepting edge -/

/-- The sequence of a register write and its completion wait is in order in READY. -/
theorem posOk_write (c : Config) (rs : Bool) (v : Byte) (long : Bool) (hm : 1 ≤ c.pollMax) (k : Look) (he : k.e = false)
    (hc : k.ctl = .ready) (hd : k.dl = true) :
    posOk c k ((memWrite c rs v ++ completionWait c long) ++ [.respond (.const 0x00#8)]) = true := by
  rw [List.append_assoc]
  exact posOk_memWrite c rs v k _ he (posOk_wait c long _ _ he rfl hm (posOk_respond c _ _ he hc hd))

/-- The sequence of READ_DATA is in order in READY where RW is wired. -/
theorem posOk_readData (c : Config) (hw : c.rwWired = true) (hm : 1 ≤ c.pollMax) (k : Look) (he : k.e = false)
    (hc : k.ctl = .ready) (hd : k.dl = true) :
    posOk c k (memRead c true ++ .act .keep :: completionWait c false ++ [.respond .rdKeep]) = true := by
  rw [List.append_assoc]
  refine posOk_memRead c true k _ he hw ?_
  have hwait := posOk_wait c false { k with agrees := true } [.respond .rdKeep] he rfl hm (posOk_respond c _ _ he hc hd)
  simpa [posOk, he] using hwait

/-- The sequence of a lone busy/address read is in order in READY where RW is wired. -/
theorem posOk_readBusy (c : Config) (src : Answer) (hw : c.rwWired = true) (k : Look) (he : k.e = false)
    (hc : k.ctl = .ready) (hd : k.dl = true) : posOk c k (memRead c false ++ [.respond src]) = true :=
  posOk_memRead c false k _ he hw (posOk_respond c _ src he hc hd)

/-- INIT leaves UNINIT at its accepting edge (42_controller_init.md R220), so `Mid` speaks of what comes after that. -/
theorem Mid.init {s : State} (h : Inv s) (hb : s.busy = false) (hc : s.ctl ≠ .ready) (i : Instr) :
    Mid ((s.latched i).act (.ctl .powerOn)) (initItems s.cfg).tail := by
  have he : s.e = false := h.restLow (by simp [State.running, hb])
  have hp := posOk_init s.cfg s.look (legal_pollMax h.legal) he hc
  have hcons : initItems s.cfg = .act (.ctl .powerOn) :: (initItems s.cfg).tail := rfl
  rw [hcons] at hp
  simp only [posOk, Bool.and_eq_true] at hp
  obtain ⟨-, -, hrest⟩ := hp
  obtain ⟨-, -, hv⟩ := h.idle hb
  exact ⟨h.legal, h.rwUnwired, h.noContention, h.unusedLanes, rfl, hv, nofun, h.pulse,
    fun hf => absurd (h.faultReady hf) hc, h.pollBound, nofun, h.statusNamed, hrest⟩

/-- A request accepted between two requests keeps the invariant. -/
theorem exec_inv {i : Instr} {s t : State} (h : Inv s) (hb : s.busy = false) (hx : exec i s = .next t) : Inv t := by
  have hm := legal_pollMax h.legal
  cases Accepts.of_exec hx with
  | reject st => exact raiseError_inv h hb ..
  | configError ready => exact raiseConfigError_inv h hb ready ..
  | answer v => exact (raiseError_inv h hb i.opcode i.operandA i.operandB .ok).answerData v
  | init _ fresh =>
    have hi := advance_inv _ _ (Mid.init h hb fresh i)
    exact hi
  | write rs v long ready width =>
    exact advance_inv _ _
      (Mid.accepted h hb ready _ _ _ _ _ _ (width (h.framing ready)) _ (posOk_write s.cfg rs v long hm))
  | readData ready wired => exact items_inv h hb ready _ _ _ _ (posOk_readData s.cfg wired hm)
  | readBusy src ready wired => exact items_inv h hb ready _ _ _ _ (posOk_readBusy s.cfg src wired)

/-! ## Every edge -/

/-- The registers of 10_state.md R49 meet the invariant on every legal board. -/
theorem atReset_inv {cfg : Config} (h : cfg.legal = true) (port : HostPins) (host : List HostPins) (device : List Byte)
    (draws : Nat) : Inv (State.atReset cfg port host device draws) :=
  ⟨h, fun _ => rfl, nofun, BitVec.zero_and, fun _ => ⟨rfl, rfl, rfl⟩, nofun, fun _ => rfl, fun _ => .inl rfl, nofun,
    nofun, nofun, nofun, nofun, Nat.zero_le _, nofun, show 0#3 ≠ 6#3 by decide⟩

/-- A running request, seen between two of its phases. -/
theorem Inv.mid {s : State} (h : Inv s) (hr : s.running = true) : Mid s s.pos := by
  obtain ⟨-, -, hpos⟩ := h.inOrder hr
  obtain ⟨hb, hv⟩ := (running_iff s).mp hr
  exact ⟨h.legal, h.rwUnwired, h.noContention, h.unusedLanes, hb, hv, h.started hr, h.pulse,
    h.faultReady, h.pollBound, h.tmoWired, h.statusNamed, hpos⟩

/-- A cycle inside a phase changes `cnt` alone, and `cnt` stays within the phase. -/
theorem Inv.countDown {s : State} (h : Inv s) (hr : s.running = true) (hc : 1 < s.cnt) :
    Inv { s with cnt := s.cnt - 1 } := by
  obtain ⟨-, hmax, hpos⟩ := h.inOrder hr
  obtain ⟨hb, hv⟩ := (running_iff s).mp hr
  exact ⟨h.legal, h.rwUnwired, h.noContention, h.unusedLanes, by simp [hb], by simp [hv], h.restLow, h.restCtl,
    fun _ => ⟨by show 1 ≤ s.cnt - 1; omega, by show s.cnt - 1 ≤ s.cfg.longestPhase; omega, hpos⟩, h.started, h.pulse,
    h.faultReady, h.framing, h.pollBound, h.tmoWired, h.statusNamed⟩

theorem Inv.runEdge {s : State} (h : Inv s) (hr : s.running = true) : Inv s.runEdge := by
  by_cases hc : 1 < s.cnt
  · rw [runEdge_waiting hc]
    exact (h.countDown hr hc).hostPins _ _
  · rw [runEdge_phaseEnd hc]
    exact advance_inv _ _ (Inv.mid (h.hostPins _ _) hr)

/-- An idle edge leaves what an accepting edge finds, but for the host's pins. -/
theorem Inv.idleEdge {s : State} (h : Inv s) (hr : s.running = false) : Inv s.idleEdge :=
  (h.acceptEdge hr).hostPins _ _

theorem step_inv {s t : State} (h : Inv s) (hs : step s = .next t) : Inv t := by
  cases Edge.of_step hs with
  | reset => exact atReset_inv h.legal ..
  | run _ hr => exact h.runEdge hr
  | accept _ hr _ hx => exact exec_inv (h.acceptEdge hr) rfl hx
  | idle _ hr => exact h.idleEdge hr

/-! ## A run of edges -/

/-- What every step keeps, a run keeps. -/
theorem run_keeps {P : State → Prop} (hP : ∀ s t, P s → step s = .next t → P t) (n : Nat) {s t : State} (h : P s)
    (hr : run n s = .next t) : P t := by
  induction n generalizing s with
  | zero => cases hr; exact h
  | succ n ih =>
    rw [run] at hr
    split at hr
    · next u hu => exact ih (hP s u h hu) hr
    · cases hr
    · cases hr

/-- A request served from a state at rest ends in a state of the invariant, with no reset in sight. -/
theorem AtRest.serves_keeps {i : Instr} {s t : State} {T : Nat} {bus : List Transfer} (h : AtRest s)
    (hs : Serves i s T t bus) : Inv t ∧ NoReset t := by
  obtain ⟨u, hx, hrun, -⟩ := hs
  obtain ⟨-, hport, hhost⟩ := exec_host i s u hx
  have hu : NoReset u := by rw [NoReset, hport, hhost]; exact h.noReset
  exact ⟨run_keeps (fun _ _ => step_inv) T (exec_inv h.inv h.free hx) hrun,
    run_keeps (fun _ _ => NoReset.step) T hu hrun⟩

end Sys2Proof.Machine
end

section
/-! SUPPORT. The request registers over an edge: the latch, `fault`, `busy` and the response (10_state.md R35, R42,
R43). -/

namespace Sys2Proof.Machine

theorem step_resetEdge {s : State} (hl : s.cfg.legal = true) (hrst : s.port.rst = true) :
    step s = .next s.resetEdge := by
  rw [step, if_pos hl, if_pos hrst]

theorem step_idleEdge {s : State} (hl : s.cfg.legal = true) (hrst : s.port.rst = false) (hr : s.running = false)
    (hv : s.port.reqValid = false) : step s = .next s.idleEdge := by
  simp [step, hl, hrst, hr, hv]

/-- With `rst` high the edge is a reset edge. -/
theorem step_rst {s t : State} (hrst : s.port.rst = true) (h : step s = .next t) : t = s.resetEdge := by
  cases Edge.of_step h with
  | reset => rfl
  | run hr => simp [hrst] at hr
  | accept hr => simp [hrst] at hr
  | idle hr => simp [hrst] at hr

/-- An edge of a running request keeps the latch, `fault` and `busy`. -/
theorem runEdge_same (s : State) : SameRequest (s.hostMoves false) s.runEdge := by
  by_cases hc : 1 < s.cnt
  · rw [runEdge_waiting hc]; constructor <;> rfl
  · rw [runEdge_phaseEnd hc]; exact advance_same ..

theorem withMirrors_same (s : State) (m : Mirrors) : SameRequest s (s.withMirrors m) := by constructor <;> rfl

/-- The ways of a request in brief: it is turned away, with `fault` set for ERR_CONFIG alone, or the sequencer takes it
over. -/
theorem Accepts.cases_brief {i : Instr} {s t : State} (h : Accepts i s t) :
    (∃ st, st ≠ .errConfig ∧ t = (s.latched i).raiseError st) ∨ t = (s.latched i).raiseConfigError
      ∨ ∃ items u, SameRequest (s.latched i) u ∧ u.rspValid = s.rspValid ∧ t = State.advance items u := by
  have hself : SameRequest (s.latched i) (s.latched i) := by constructor <;> rfl
  cases h with
  | reject st code => exact .inl ⟨st, code, rfl⟩
  | configError => exact .inr (.inl rfl)
  | answer | init | readData | readBusy => exact .inr (.inr ⟨_, _, hself, rfl, rfl⟩)
  | write => exact .inr (.inr ⟨_, _, withMirrors_same .., rfl, rfl⟩)

/-- What a request leaves in the latch, whether it is rejected or runs (log 6). -/
theorem Accepts.latch {i : Instr} {s t : State} (h : Accepts i s t) :
    t.op = i.opcode ∧ t.a = i.operandA ∧ t.b = i.operandB ∧ t.busy = true := by
  obtain ⟨st, -, rfl⟩ | rfl | ⟨items, u, hu, -, rfl⟩ := h.cases_brief
  · exact ⟨rfl, rfl, rfl, rfl⟩
  · exact ⟨rfl, rfl, rfl, rfl⟩
  · have hw := hu.trans (advance_same items u)
    exact ⟨hw.op, hw.a, hw.b, hw.busy⟩

/-- The sequencer answers with OK or OK_TIMEOUT alone, and where it does not answer the response registers hold
(60_exceptions.md R307). -/
theorem advance_response (items : List Item) (s : State) :
    let t := State.advance items s
    (t.rspValid = s.rspValid ∧ t.rspStatus = s.rspStatus ∧ t.rspData = s.rspData)
      ∨ (t.rspValid = true ∧ ∃ st : Status, (st = .ok ∨ st = .okTimeout) ∧ t.rspStatus = st.code) := by
  induction items generalizing s with
  | nil => exact .inl ⟨rfl, rfl, rfl⟩
  | cons i rest ih =>
    cases i with
    | phase d n => exact .inl ⟨by simp [State.advance], by simp [State.advance], by simp [State.advance]⟩
    | sample p => exact ih (s.sample p)
    | act x => have h := ih (s.act x); simpa [State.advance] using h
    | pollTest =>
      simp only [State.advance]
      split
      · exact ih s.countPoll
      · split
        · exact ih s.countPoll.timeOut
        · left
          unfold State.pollAgain memRead readXfer
          cases s.countPoll.cfg.busWidth <;> exact ⟨rfl, rfl, rfl⟩
    | respond src =>
      refine .inr ⟨rfl, s.endStatus, ?_, rfl⟩
      unfold State.endStatus
      cases s.tmo <;> simp

/-- A request that runs raises no ERR_CONFIG. -/
theorem advance_status {items : List Item} {s : State} (hv : s.rspValid = false) :
    ¬ ((State.advance items s).rspValid = true ∧ (State.advance items s).rspStatus = 2#3) := by
  rintro ⟨h1, h2⟩
  obtain ⟨h3, -, -⟩ | ⟨-, st, hst, h4⟩ := advance_response items s
  · rw [h3, hv] at h1; cases h1
  · rw [h4] at h2
    rcases hst with rfl | rfl <;> exact absurd h2 (by decide)

/-- A request sets `fault` where it raises ERR_CONFIG and nowhere else (10_state.md R35). -/
theorem Accepts.fault {i : Instr} {s t : State} (h : Accepts i s t) (hv : s.rspValid = false) :
    t.fault = true ↔ s.fault = true ∨ (t.rspValid = true ∧ t.rspStatus = 2#3) := by
  obtain ⟨st, code, rfl⟩ | rfl | ⟨items, u, hu, hvu, rfl⟩ := h.cases_brief
  · have hc : st.code ≠ 2#3 := by revert code; cases st <;> decide
    exact ⟨.inl, fun h => h.elim id fun h => absurd h.2 hc⟩
  · exact ⟨fun _ => .inr ⟨rfl, rfl⟩, fun _ => rfl⟩
  · have hf : (State.advance items u).fault = s.fault := (hu.trans (advance_same items u)).fault
    rw [hf, or_iff_left (advance_status (hvu.trans hv))]

/-- Without reset, an edge that accepts no request leaves `fault` as it is. -/
theorem step_fault {s t : State} (hrst : s.port.rst = false) (h : s.running = true ∨ s.port.reqValid = false)
    (hs : step s = .next t) : t.fault = s.fault := by
  cases Edge.of_step hs with
  | reset hr => simp [hrst] at hr
  | run => exact (runEdge_same s).fault
  | accept _ hr hv => simp [hr, hv] at h
  | idle => rfl

/-! ## `req_ready` -/

theorem reqReady_iff {s : State} (h : Inv s) :
    s.reqReady = true ↔ s.running = false ∧ s.rspValid = false ∧ s.port.rst = false := by
  simp only [State.reqReady, State.running, Bool.and_eq_true, Bool.not_eq_true', Bool.and_eq_false_imp]
  refine ⟨fun ⟨hb, hr⟩ => ⟨by simp [hb], ?_, hr⟩, fun ⟨hb, hv, hr⟩ => ⟨?_, hr⟩⟩
  · obtain ⟨-, -, hv⟩ := h.idle hb
    exact hv
  · simpa [hv] using hb

theorem idleEdge_reqReady (s : State) : s.idleEdge.reqReady = !(s.nextPort false).rst := rfl

theorem reqReady_busy {s : State} (hb : s.busy = true) : s.reqReady = false := by simp [State.reqReady, hb]

/-- A standing response is a request's own: the request is still busy (30_encoding.md R113). -/
theorem Inv.busy_of_rspValid {s : State} (h : Inv s) (hv : s.rspValid = true) : s.busy = true := by
  by_contra hb
  obtain ⟨-, -, hv'⟩ := h.idle (by simpa using hb)
  simp [hv] at hv'

end Sys2Proof.Machine
end

section
/-! SUPPORT. The requests as whole register accesses (70_reset_and_hazards.md R337): what a request that runs puts on
the bus, access by access, and what those accesses make of the mirrors (10_state.md R39). -/

namespace Sys2Proof.Machine

/-! ## Accesses in a row -/

/-- A register write and the `n` busy/address reads of its completion wait. -/
def writeAccesses (rs : Bool) (v : Byte) (n : Nat) : List Access := .write rs v :: List.replicate n (.read false)

/-- INIT's four command writes, each with the reads of its poll (42_controller_init.md R226 to R230). -/
def initAccesses (c : Config) (n₁ n₂ n₃ n₄ : Nat) : List Access :=
  writeAccesses false c.functionSetByte n₁ ++ writeAccesses false 0x0C#8 n₂ ++ writeAccesses false 0x01#8 n₃
    ++ writeAccesses false 0x06#8 n₄

theorem flatMap_reads (c : Config) (rs : Bool) (n : Nat) :
    (List.replicate n (Access.read rs)).flatMap (Access.bus c) = readBus c rs n := by
  induction n with
  | zero => rfl
  | succ n ih =>
    rw [List.replicate_succ, List.flatMap_cons, ih, Access.bus, readBus_add, Nat.add_comm]

theorem foldl_reads (m : Mirrors) (rs : Bool) (n : Nat) :
    (List.replicate n (Access.read rs)).foldl Mirrors.after m = m := by
  induction n with
  | zero => rfl
  | succ n ih => exact ih

theorem flatMap_writeAccesses (c : Config) (rs : Bool) (v : Byte) (n : Nat) :
    (writeAccesses rs v n).flatMap (Access.bus c) = writeBus c rs v ++ readBus c false n := by
  rw [writeAccesses, List.flatMap_cons, flatMap_reads, Access.bus]

theorem foldl_writeAccesses (m : Mirrors) (rs : Bool) (v : Byte) (n : Nat) :
    (writeAccesses rs v n).foldl Mirrors.after m = m.after (.write rs v) := by
  rw [writeAccesses, List.foldl_cons, foldl_reads]

theorem functionSetByte_kind (c : Config) :
    c.functionSetByte.isFunctionSet = true ∧ c.functionSetByte.isDisplayControl = false
      ∧ c.functionSetByte.isEntryMode = false := by
  unfold Config.functionSetByte
  cases c.dl <;> cases c.nl <;> cases c.ff <;> decide

/-- INIT's command bytes write every mirror, whatever stood in it. -/
theorem foldl_initAccesses (c : Config) (m : Mirrors) (n₁ n₂ n₃ n₄ : Nat) :
    (initAccesses c n₁ n₂ n₃ n₄).foldl Mirrors.after m = ⟨fnOfByte c.functionSetByte, 0b100#3, 0b10#2⟩ := by
  obtain ⟨hf, hd, he⟩ := functionSetByte_kind c
  have h1 : m.after (.write false c.functionSetByte) = { m with fn := fnOfByte c.functionSetByte } := by
    simp [after_command, hf, hd, he]
  have h2 (m : Mirrors) : m.after (.write false 0x0C#8) = { m with dctl := 0b100#3 } :=
    after_displayControlByte m 0b100#3
  have h3 (m : Mirrors) : m.after (.write false 0x01#8) = m := after_setsNoMirror m (by decide)
  have h4 (m : Mirrors) : m.after (.write false 0x06#8) = { m with entry := 0b10#2 } := after_entryModeByte m 0b10#2
  simp only [initAccesses, List.foldl_append, foldl_writeAccesses, h1, h2, h3, h4]

/-! ## A request served by accesses -/

/-- `i` is served from `s`: the device sees the transfers `lone` and then the accesses `l`, and at the response the
mirrors are what `l` makes of those before. -/
def ServedBy (i : Instr) (s : State) (lone : List Transfer) (l : List Access) : Prop :=
  ∃ T t, Serves i s T t (lone ++ l.flatMap (Access.bus s.cfg)) ∧ t.mirrors = l.foldl Mirrors.after s.mirrors

theorem waited_mirrors (n : Nat) (s : State) : (s.waited n).mirrors = s.mirrors := by rw [waited_eq]; rfl

theorem finished_mirrors (s : State) (v : Byte) (T : Nat) : (s.finished v T).mirrors = s.mirrors := waited_mirrors ..

/-- A request answered at its accepting edge makes no access. -/
theorem served_now {i : Instr} {s t : State} (hx : exec i s = .next t) (hv : t.rspValid = true)
    (hm : t.mirrors = s.mirrors) : ServedBy i s [] [] :=
  ⟨0, t, ⟨t, hx, rfl, hv, by simp, rfl⟩, hm⟩

/-- A request that runs is served by the accesses its course makes. -/
theorem served_of_course {i : Instr} {s u : State} {items : List Item} {lone : List Transfer} {l : List Access}
    (hx : exec i s = .next (State.advance items u)) (ha : Accepted s u)
    (hc : canRun u.cfg (decide (u.pollI < u.cfg.pollMax)) items = true) (he : (State.advance items u).e = false)
    (hbus : (course items u).bus = lone ++ l.flatMap (Access.bus s.cfg))
    (hv : (course items u).last.rspValid = true)
    (hm : (course items u).last.mirrors = l.foldl Mirrors.after s.mirrors) : ServedBy i s lone l :=
  ⟨_, _, hbus ▸ serves_of_course hx ha.going hc (pulse_low he) hv, by rw [waited_mirrors, hm]⟩

/-- The completion wait makes some number of busy/address reads, none without RW, and leaves the mirrors. -/
theorem course_wait {c : Config} (s : State) (hc : s.cfg = c) (long : Bool) (he : s.e = false) (hm : 1 ≤ c.pollMax) :
    ∃ n d w, w.mirrors = s.mirrors ∧ ∀ K, course (completionWait c long ++ K) s
      = Course.andThen { cycles := d, bus := readBus c false n, last := w } (course K) := by
  subst hc
  cases hw : s.cfg.rwWired with
  | false => exact ⟨0, _, s, rfl, fun K => course_wait_unwired K s long hw⟩
  | true =>
    obtain ⟨n, -, hk⟩ := course_wait_wired s long hw he hm
    exact ⟨n + 1, _, s.afterPoll n, rfl, hk⟩

/-- A register write with its completion wait. -/
theorem served_write {i : Instr} {s u : State} {rs : Bool} {v : Byte} {long : Bool} (ha : Accepted s u)
    (hu : u.mirrors = s.mirrors.after (.write rs v))
    (hx : exec i s = .next (State.advance
      ((memWrite u.cfg rs v ++ completionWait u.cfg long) ++ [.respond (.const 0x00#8)]) u)) :
    ∃ n, ServedBy i s [] (writeAccesses rs v n) := by
  have hm : 1 ≤ u.cfg.pollMax := by rw [ha.cfg]; exact ha.pollMax
  obtain ⟨n, d, w, hw, hk⟩ := course_wait (c := u.cfg) (u.afterWrite rs v) rfl long rfl hm
  have hcourse := course_memWrite (completionWait u.cfg long ++ [.respond (.const 0x00#8)]) u rs v ha.pins
  simp only [Course.andThen, hk] at hcourse
  rw [List.append_assoc] at hx
  refine ⟨n, served_of_course hx ha ?_ (advance_memWrite_e ..) ?_ ?_ ?_⟩
  · rw [canRun_append _ _ _ _ (memWrite_isTransfer ..)]
    exact canRun_wait _ _ _ _ hm rfl
  · rw [hcourse, flatMap_writeAccesses, ← ha.cfg]
    simp [course]
  · rw [hcourse]; rfl
  · rw [hcourse, foldl_writeAccesses, ← hu]
    exact hw

/-- A read of the data register with its completion wait (41_register_access.md R197). -/
theorem served_readData {i : Instr} {s u : State} (ha : Accepted s u) (hu : u.mirrors = s.mirrors)
    (hx : exec i s = .next (State.advance
      (memRead u.cfg true ++ .act .keep :: completionWait u.cfg false ++ [.respond .rdKeep]) u)) :
    ∃ n, ServedBy i s [] (.read true :: List.replicate n (.read false)) := by
  have hm : 1 ≤ u.cfg.pollMax := by rw [ha.cfg]; exact ha.pollMax
  obtain ⟨n, d, w, hw, hk⟩ := course_wait (c := u.cfg) ((u.afterReads true 0).act .keep) rfl false rfl hm
  have hcourse := course_memRead (.act .keep :: (completionWait u.cfg false ++ [.respond .rdKeep])) u true ha.pins.low
  have hkeep : course (.act .keep :: (completionWait u.cfg false ++ [.respond .rdKeep])) (u.afterReads true 0) = _ :=
    hk [.respond .rdKeep]
  rw [Course.andThen, hkeep] at hcourse
  rw [List.append_assoc] at hx
  refine ⟨n, served_of_course hx ha ?_ (advance_memRead_e ..) ?_ ?_ ?_⟩
  · rw [canRun_append _ _ _ _ (memRead_isTransfer ..)]
    exact canRun_wait _ _ _ _ hm rfl
  · rw [List.cons_append, hcourse, List.flatMap_cons, flatMap_reads, Access.bus, ← ha.cfg]
    simp [Course.andThen, course]
  · rw [List.cons_append, hcourse]; rfl
  · rw [List.cons_append, hcourse, List.foldl_cons, foldl_reads]
    exact hw.trans hu

/-- A lone busy/address read (41_register_access.md R198, R199). -/
theorem served_readBusy {i : Instr} {s u : State} {src : Answer} (ha : Accepted s u) (hu : u.mirrors = s.mirrors)
    (hx : exec i s = .next (State.advance (memRead u.cfg false ++ [.respond src]) u)) :
    ServedBy i s [] [.read false] := by
  have hcourse := course_memRead [.respond src] u false ha.pins.low
  refine served_of_course hx ha ?_ (advance_memRead_e ..) ?_ ?_ ?_
  · rw [canRun_append _ _ _ _ (memRead_isTransfer ..)]; rfl
  · rw [hcourse, ← ha.cfg]
    simp [Course.andThen, course, Access.bus]
  · rw [hcourse]; rfl
  · rw [hcourse]
    exact hu

/-- INIT: the negotiation's lone transfers, then its four commands. -/
theorem served_init {i : Instr} {s u : State} (ha : Accepted s u)
    (hx : exec i s = .next (State.advance (initItems u.cfg) u)) :
    ∃ n₁ n₂ n₃ n₄, ServedBy i s (Config.negotiationBus s.cfg) (initAccesses s.cfg n₁ n₂ n₃ n₄) := by
  have hm : 1 ≤ u.cfg.pollMax := by rw [ha.cfg]; exact ha.pollMax
  have hc := canRun_init u.cfg (decide (u.pollI < u.cfg.pollMax)) hm
  cases hw : u.cfg.rwWired with
  | false =>
    have hcourse := course_init_unwired u ha.pins hw
    refine ⟨0, 0, 0, 0, served_of_course hx ha hc (advance_init_e ..) ?_ ?_ ?_⟩
    · rw [hcourse, ← ha.cfg]
      simp [initAccesses, flatMap_writeAccesses, readBus]
    · rw [hcourse]; rfl
    · rw [hcourse, foldl_initAccesses, finished_mirrors, ← ha.cfg]; rfl
  | true =>
    obtain ⟨n₁, n₂, n₃, n₄, -, -, -, -, hcourse⟩ := course_init_wired u ha.pins hw hm
    refine ⟨n₁ + 1, n₂ + 1, n₃ + 1, n₄ + 1, served_of_course hx ha hc (advance_init_e ..) ?_ ?_ ?_⟩
    · rw [hcourse, ← ha.cfg]
      simp [initAccesses, flatMap_writeAccesses]
    · rw [hcourse]; rfl
    · rw [hcourse, foldl_initAccesses, finished_mirrors, ← ha.cfg]; rfl

end Sys2Proof.Machine
end

section
/-! PROOFS. The obligations of 10_state.md: reset, the invariant, the pins, `fault`, the request latch, `req_ready` and
the mirrors on the bus. -/

namespace Sys2Proof.Proofs

open Sys2Proof.Machine

/-- Settles O8: `State.reset` is `State.atReset` on one board. -/
theorem resetRegisters : Obligations.ResetRegisters := by
  unfold Obligations.ResetRegisters
  decide

/-- Settles O9: the edge is `State.resetEdge`, whose registers are those of `State.atReset`. -/
theorem resetEdgeLoadsReset : Obligations.ResetEdgeLoadsReset := by
  intro s hl hrst
  rw [step_resetEdge hl hrst]
  rfl

/-- Settles O16. -/
theorem resetIsInvariant : Obligations.ResetIsInvariant :=
  ⟨fun _ port host device draws hl => atReset_inv hl port host device draws, atReset_inv (by decide) ..⟩

/-- Settles O17, edge by edge: reset, a running request, an accepting edge, an idle edge. -/
theorem stepKeepsInvariant : Obligations.StepKeepsInvariant := fun _ _ => step_inv

/-- Settles O20: the pin rules are clauses of the invariant, which holds after the step. -/
theorem pinsAlwaysLegal : Obligations.PinsAlwaysLegal := by
  intro s t hs hstep
  have ht := step_inv hs hstep
  refine ⟨fun hd => ?_, fun hd => ?_, fun hb => ?_, ht.rwUnwired, fun hoe => ?_⟩
  · cases hb : t.cfg.busWidth <;> simp [State.dOe, hd, Config.active, hb]
  · simp [State.dOe, hd]
  · have hu := ht.unusedLanes
    simpa [Config.active, hb] using hu
  · cases hd : t.dir with
    | write => exact ht.noContention hd
    | read => exact absurd (by simp [State.dOe, hd]) hoe

/-- Settles O22. -/
theorem faultIsSticky : Obligations.FaultIsSticky := by
  refine ⟨fun i s t hv hx => (Accepts.of_exec hx).fault hv, fun s t hrst h hs => step_fault hrst h hs,
    fun s t hrst hs => ?_⟩
  rw [step_rst hrst hs]
  rfl

/-- Settles O23. -/
theorem requestLatch : Obligations.RequestLatch := by
  refine ⟨fun i s t hx => (Accepts.of_exec hx).latch, fun s t hr hrst hs => ?_, rfl, rfl, rfl⟩
  have hsame := runEdge_same s
  rw [← step_running hrst hr hs] at hsame
  obtain ⟨hb, -⟩ := (running_iff s).mp hr
  exact ⟨hsame.op, hsame.a, hsame.b, hsame.busy.trans hb⟩

/-- Settles O54. The request is busy in every cycle before its response by `Serves`, and in the response's cycle by the
invariant, which the run has kept. -/
theorem requestReady : Obligations.RequestReady := by
  refine ⟨fun s h => reqReady_iff h, fun i s u T t bus hrest hx hserves => ?_,
    fun s hrst => by simp [State.reqReady, hrst], fun s t hrst hs => ?_⟩
  · obtain ⟨ht, hnoReset⟩ := hrest.serves_keeps hserves
    obtain ⟨u', hx', hrun, hv, hgoes, -⟩ := hserves
    obtain rfl : u = u' := by rw [hx] at hx'; cases hx'; rfl
    refine ⟨by simp [State.reqReady, hrest.free, hrest.noReset.1], fun m hm => ?_, fun hq => ?_⟩
    · obtain hlt | rfl := Nat.lt_or_eq_of_le hm
      · obtain ⟨v, hv, hr⟩ := hgoes m hlt
        exact ⟨v, hv, reqReady_busy ((running_iff v).mp hr).1⟩
      · exact ⟨t, hrun, reqReady_busy (ht.busy_of_rspValid hv)⟩
    · have hfree : t.running = false := by simp [State.running, hv]
      refine ⟨_, step_idleEdge ht.legal hnoReset.1 hfree hq, ?_⟩
      have hrst : (t.nextPort false).rst = false := (hnoReset.moves false).1
      rw [idleEdge_reqReady, hrst]
      rfl
  · rw [step_rst hrst hs]
    rfl

/-- Settles O50. INIT runs exactly where `ctl` is UNINIT at rest, since `fault` is set only in READY. -/
theorem mirrorsFollowTheBus : Obligations.MirrorsFollowTheBus := by
  intro i s hrest
  suffices h : ∃ l, ServedBy i s (if s.ctl = .uninit ∧ i.opcode = 0x01#5 then Config.negotiationBus s.cfg else []) l by
    obtain ⟨l, T, t, hserves, hm⟩ := h
    exact ⟨T, t, _, l, hserves, rfl, hm⟩
  obtain ⟨t, hx⟩ := exec_next i s
  have hlatched : Accepted s (s.latched i) := hrest.accepts rfl rfl rfl rfl rfl rfl rfl rfl rfl rfl
  have hready : s.ctl = .ready → ¬ (s.ctl = .uninit ∧ i.opcode = 0x01#5) := by
    rintro hc ⟨hu, -⟩
    simp [hc] at hu
  cases Accepts.of_exec hx with
  | reject st _ checks =>
    have hno : ¬ (s.ctl = .uninit ∧ i.opcode = 0x01#5) := fun ⟨hu, hop⟩ =>
      hready ((checks hop).elim id hrest.inv.faultReady) ⟨hu, hop⟩
    rw [if_neg hno]
    exact ⟨_, served_now hx rfl rfl⟩
  | configError ready =>
    rw [if_neg (hready ready)]
    exact ⟨_, served_now hx rfl rfl⟩
  | answer v other =>
    rw [if_neg fun h => other h.2]
    exact ⟨_, served_now hx rfl rfl⟩
  | init op fresh =>
    have hu : s.ctl = .uninit := (hrest.inv.restCtl (by simp [State.running, hrest.free])).resolve_right fresh
    rw [if_pos ⟨hu, op⟩]
    obtain ⟨n₁, n₂, n₃, n₄, h⟩ := served_init hlatched hx
    exact ⟨_, h⟩
  | write rs v long ready =>
    rw [if_neg (hready ready)]
    have hwritten : Accepted s ((s.latched i).withMirrors (s.mirrors.after (.write rs v))) :=
      hrest.accepts rfl rfl rfl rfl rfl rfl rfl rfl rfl rfl
    obtain ⟨n, h⟩ := served_write hwritten rfl hx
    exact ⟨_, h⟩
  | readData ready =>
    rw [if_neg (hready ready)]
    obtain ⟨n, h⟩ := served_readData hlatched rfl hx
    exact ⟨_, h⟩
  | readBusy src ready =>
    rw [if_neg (hready ready)]
    exact ⟨_, served_readBusy hlatched rfl hx⟩

end Sys2Proof.Proofs
end

section
/-! SUPPORT. The request word and the request: each is the other's (30_encoding.md R111, R112), and what the assembler
makes of a line is the word of its opcode and operands (R126). -/

namespace Sys2Proof

/-! ## Decoder and encoder -/

theorem decode_toNat (w : Req) : decode w.toNat = .ok (decodeReq w) := by
  rw [decode, if_pos w.isLt, BitVec.ofNat_toNat, BitVec.setWidth_eq]

theorem decode_of_long {n : Nat} (h : 2 ^ 21 ≤ n) : decode n = .error (.notARequestWord n) :=
  if_neg (Nat.not_lt.mpr h)

/-- The decoder on a word written as its three fields. -/
theorem decodeReq_append (op : BitVec 5) (a b : Byte) :
    decodeReq (op ++ a ++ b : BitVec (5 + 8 + 8)) = instrOfOp op a b := by
  obtain ⟨hop, ha, hb⟩ := word_fields op a b
  rw [decodeReq, hop, ha, hb]

/-- The opcode map gives every request back from its own fields. -/
theorem instrOfOp_of_fields (i : Instr) : Laws.Fields.Statement i := by
  cases i <;> rfl

/-- The opcode map gives every opcode a request of its own, with both operands kept. -/
theorem instrOfOp_fields (op : BitVec 5) (a b : Byte) :
    (instrOfOp op a b).opcode = op ∧ (instrOfOp op a b).operandA = a ∧ (instrOfOp op a b).operandB = b := by
  obtain ⟨n, hn⟩ := op
  interval_cases n <;> exact ⟨rfl, rfl, rfl⟩

theorem decodeReq_encode (i : Instr) : decodeReq (encode i) = i := by
  rw [encode, decodeReq_append]
  exact instrOfOp_of_fields i

theorem encode_decodeReq (w : Req) : encode (decodeReq w) = w := by
  obtain ⟨hop, ha, hb⟩ := instrOfOp_fields w.op w.a w.b
  rw [encode, decodeReq, hop, ha, hb, fields_word]

/-! ## The assembler's words -/

/-- Three fields put one below the other do not overlap: their bits are the digits of a sum. -/
theorem fields_sum (op : Nat) {a b : Nat} (ha : a < 256) (hb : b < 256) :
    op <<< 16 ||| a <<< 8 ||| b = op * 65536 + a * 256 + b := by
  have hop : op <<< 16 = op <<< 8 <<< 8 := Nat.shiftLeft_add op 8 8
  rw [hop, ← Nat.shiftLeft_or_distrib, ← Nat.shiftLeft_add_eq_or_of_lt (i := 8) ha,
    ← Nat.shiftLeft_add_eq_or_of_lt (i := 8) hb]
  simp only [Nat.shiftLeft_eq]
  omega

/-- The value of a line's word (30_encoding.md R126). -/
theorem requestWord_toNat {op a b : Nat} (hop : op < 32) (ha : a < 256) (hb : b < 256) :
    (requestWord op a b).toNat = op * 65536 + a * 256 + b := by
  rw [requestWord, fields_sum op ha hb, BitVec.toNat_ofNat, Nat.mod_eq_of_lt (by omega)]

/-- A line's word is the word of its three fields (30_encoding.md R111). -/
theorem requestWord_eq_append {op a b : Nat} (hop : op < 32) (ha : a < 256) (hb : b < 256) :
    requestWord op a b = (BitVec.ofNat 5 op ++ BitVec.ofNat 8 a ++ BitVec.ofNat 8 b : BitVec (5 + 8 + 8)) := by
  apply BitVec.eq_of_toNat_eq
  rw [requestWord_toNat hop ha hb, ← fields_sum op ha hb, BitVec.toNat_append, BitVec.toNat_append,
    Nat.shiftLeft_or_distrib, ← Nat.shiftLeft_add]
  simp [Nat.mod_eq_of_lt, hop, ha, hb]

/-- What the decoder reads from a line's word. -/
theorem decodeReq_requestWord {op a b : Nat} (hop : op < 32) (ha : a < 256) (hb : b < 256) :
    decodeReq (requestWord op a b) = instrOfOp (BitVec.ofNat 5 op) (BitVec.ofNat 8 a) (BitVec.ofNat 8 b) := by
  rw [requestWord_eq_append hop ha hb, decodeReq_append]

/-- WRITE_DATA's word, the step of both pseudo-instructions (30_encoding.md R127). -/
theorem writeDataWord_eq {v : Nat} (hv : v < 256) :
    writeDataWord v = encode (.writeData (BitVec.ofNat 8 v) 0x00#8) :=
  requestWord_eq_append (by decide) hv (by decide)

theorem map_writeDataWord {bytes : List Nat} (h : ∀ n ∈ bytes, n < 256) :
    bytes.map writeDataWord = bytes.map fun n => encode (.writeData (BitVec.ofNat 8 n) 0x00#8) :=
  List.map_congr_left fun n hn => writeDataWord_eq (h n hn)

/-- CGRAM_SLOT's word, with which CREATE_CHAR begins (30_encoding.md R127). -/
theorem cgramSlotWord_eq {slot : Nat} (h : slot < 256) :
    requestWord 0x14 slot 0 = encode (.cgramSlot (BitVec.ofNat 8 slot) 0x00#8) :=
  requestWord_eq_append (by decide) h (by decide)

/-! ## The lines the assembler takes -/

theorem assemble_request {op : Nat} {operands : List Nat} (hop : op ≤ 0x14) (hlen : operands.length ≤ 2)
    (h : ∀ n ∈ operands, n < 256) :
    (SourceLine.request op operands).assemble = some [requestWord op (operands.getD 0 0) (operands.getD 1 0)] :=
  if_pos (by simpa [SourceLine.wellFormed, hop, hlen] using h)

theorem assemble_print {text : List Nat} (h : ∀ n ∈ text, n < 256) :
    (SourceLine.print text).assemble = some (text.map writeDataWord) :=
  if_pos (by simpa [SourceLine.wellFormed] using h)

theorem assemble_createChar {slot : Nat} {rows : List Nat} (hslot : slot < 256) (hlen : rows.length = 8)
    (h : ∀ n ∈ rows, n < 256) :
    (SourceLine.createChar slot rows).assemble = some (requestWord 0x14 slot 0 :: rows.map writeDataWord) :=
  if_pos (by simpa [SourceLine.wellFormed, hslot, hlen] using h)

/-- An operand of a line is a byte, written or omitted. -/
theorem getD_lt {operands : List Nat} (h : ∀ n ∈ operands, n < 256) (k : Nat) : operands.getD k 0 < 256 := by
  rw [List.getD_eq_getElem?_getD]
  cases hk : operands[k]? with
  | none => decide
  | some n => exact h n (List.mem_of_getElem? hk)

end Sys2Proof
end

section
/-! SUPPORT. The accepting edge and the response registers (30_encoding.md R113, 10_state.md R42): the step is `exec` on
a state at rest, and what raises no response leaves the last one as it was. -/

namespace Sys2Proof.Machine

theorem step_accept {s : State} (hl : s.cfg.legal = true) (hrst : s.port.rst = false) (hr : s.running = false)
    (hv : s.port.reqValid = true) : step s = exec (decodeReq s.port.req) s.acceptEdge := by
  simp [step, hl, hrst, hr, hv]

theorem acceptEdge_atRest {s : State} (h : Inv s) (hn : NoReset s) (hr : s.running = false) : AtRest s.acceptEdge :=
  ⟨h.acceptEdge hr, rfl, hn.moves true⟩

/-! ## The response registers -/

/-- `rsp_status` and `rsp_data` of `t` are those of `s`. -/
def SameResponse (s t : State) : Prop := t.rspStatus = s.rspStatus ∧ t.rspData = s.rspData

theorem advance_sameResponse {items : List Item} {s : State} (hv : (State.advance items s).rspValid = false) :
    SameResponse s (State.advance items s) := by
  obtain ⟨-, hsame⟩ | ⟨hraised, -⟩ := advance_response items s
  · exact hsame
  · rw [hv] at hraised; cases hraised

theorem runEdge_sameResponse {s : State} (hv : s.runEdge.rspValid = false) : SameResponse s s.runEdge := by
  by_cases hc : 1 < s.cnt
  · rw [runEdge_waiting hc]; exact ⟨rfl, rfl⟩
  · rw [runEdge_phaseEnd hc] at hv ⊢
    exact advance_sameResponse hv

/-- A request that is not answered at its accepting edge keeps the last response. -/
theorem Accepts.sameResponse {i : Instr} {s t : State} (h : Accepts i s t) (hv : t.rspValid = false) :
    SameResponse s t := by
  cases h with
  | reject | configError => cases hv
  | answer | init | write | readData | readBusy => exact advance_sameResponse hv

theorem step_sameResponse {s t : State} (hrst : s.port.rst = false) (h : step s = .next t)
    (hv : t.rspValid = false) : SameResponse s t := by
  cases Edge.of_step h with
  | reset hr => simp [hrst] at hr
  | run => exact runEdge_sameResponse hv
  | accept _ _ _ hx => exact (Accepts.of_exec hx).sameResponse hv
  | idle => exact ⟨rfl, rfl⟩

/-- A request turned away with a code (60_exceptions.md R300, R310). -/
theorem raiseError_latch (s : State) (op : BitVec 5) (a b : Byte) (st : Status) :
    (s.latch op a b).raiseError st = s.rejected op a b st.code := rfl

end Sys2Proof.Machine
end

section
/-! SUPPORT. The operand latch is written and never read (30_encoding.md R116): what a request does after it is latched
is `Blind` to the operands, so what it ignores reaches the latch alone. -/

namespace Sys2Proof.Machine

/-- The operand bytes of the request latch, written. -/
def State.withOperands (s : State) (a b : Byte) : State := { s with a := a, b := b }

/-- `F` neither reads nor writes the operand latch. -/
def Blind (F : State → State) : Prop := ∀ s a b, F (s.withOperands a b) = (F s).withOperands a b

/-- The sequencer is blind. -/
theorem advance_withOperands (items : List Item) (s : State) (a b : Byte) :
    State.advance items (s.withOperands a b) = (State.advance items s).withOperands a b := by
  have hput := advance_put_request items s s.op a b s.port s.host
  have hsame := advance_same items s
  exact hput.trans (by rw [← hsame.op, ← hsame.port, ← hsame.host]; rfl)

theorem Blind.advance {g : State → State} {items : State → List Item} (hg : Blind g)
    (hitems : ∀ s a b, items (s.withOperands a b) = items s) : Blind fun s => State.advance (items s) (g s) := by
  intro s a b
  simp only [hg s a b, hitems, advance_withOperands]

/-- A phase sequence that follows from the configuration. -/
theorem Blind.start (items : Config → List Item) : Blind fun l => l.start (items l.cfg) :=
  Blind.advance (fun _ _ _ => rfl) fun _ _ _ => rfl

theorem Blind.raiseError (st : Status) : Blind fun s => s.raiseError st := fun _ _ _ => rfl

theorem Blind.raiseConfigError : Blind State.raiseConfigError := fun _ _ _ => rfl

/-- A choice by what the operand latch is no part of. -/
theorem Blind.ite {p : State → Prop} [DecidablePred p] {f g : State → State}
    (hp : ∀ s a b, p (s.withOperands a b) ↔ p s) (hf : Blind f) (hg : Blind g) :
    Blind fun s => if p s then f s else g s := by
  intro s a b
  simp only [hp, hf s a b, hg s a b]
  split <;> rfl

theorem Blind.whenReady {f : State → State} (hf : Blind f) : Blind fun s => s.whenReady f :=
  .ite (fun _ _ _ => Iff.rfl) (.raiseError _) (.ite (fun _ _ _ => Iff.rfl) (.raiseError _) hf)

/-- A command after its mirror writes (43_command_api.md R250). -/
theorem Blind.runCommand {g : State → State} {v : State → Byte} (hg : Blind g)
    (hv : ∀ s a b, v (s.withOperands a b) = v s) : Blind fun s => (g s).runCommand (v s) := by
  refine Blind.advance hg (items := fun s => commandItems (g s).cfg (v s) ++ [.respond (.const 0x00#8)]) fun s a b => ?_
  simp only [hg s a b, hv]
  rfl

theorem Blind.mirrorCommand (v : Byte) : Blind fun s => s.mirrorCommand v := by
  have heq : (fun s : State => s.mirrorCommand v) = fun s => s.withMirrors (s.mirrors.after (.write false v)) :=
    funext fun s => mirrorCommand_eq s v
  rw [heq]
  exact fun _ _ _ => rfl

/-- Two requests that do the same blind thing after the latch differ in the latch alone. -/
theorem Blind.ignores {F : State → State} (hF : Blind F) {i i' : Instr} {op : BitVec 5} {a b a' b' : Byte} {s t : State}
    (hi : exec i s = .next (F (s.latch op a b))) (hi' : exec i' s = .next (F (s.latch op a' b')))
    (hx : exec i s = .next t) : exec i' s = .next { t with a := a', b := b' } := by
  obtain rfl : F (s.latch op a b) = t := by rw [hi] at hx; cases hx; rfl
  rw [hi']
  exact congrArg Host.Outcome.next (hF (s.latch op a b) a' b')

/-! ## The requests without operands -/

/-- Both operands of the request `f` reach nothing but the latch. -/
def IgnoresOperands (f : Byte → Byte → Instr) : Prop :=
  ∀ (a b a' b' : Byte) (s t : State), exec (f a b) s = .next t → exec (f a' b') s = .next { t with a := a', b := b' }

variable {f : Byte → Byte → Instr}

theorem Blind.ignoresOperands {op : BitVec 5} {F : State → State} (hF : Blind F)
    (hf : ∀ a b s, exec (f a b) s = .next (F (s.latch op a b))) : IgnoresOperands f :=
  fun _ _ _ _ _ _ hx => hF.ignores (hf ..) (hf ..) hx

/-- A command of one byte (43_command_api.md R251, R252, R257, R258). -/
theorem ignoresOperands_command (op : BitVec 5) (v : Byte)
    (hf : ∀ a b s, exec (f a b) s = .next ((s.latch op a b).whenReady fun l => l.runCommand v)) : IgnoresOperands f :=
  (Blind.whenReady (.runCommand (fun _ _ _ => rfl) fun _ _ _ => rfl)).ignoresOperands hf

/-- A command that writes `dctl` and sends it (43_command_api.md R253 to R256). -/
theorem ignoresOperands_dctl (op : BitVec 5) (d : BitVec 3 → BitVec 3)
    (hf : ∀ a b s, exec (f a b) s = .next ((s.latch op a b).whenReady fun l =>
      { l with dctl := d l.dctl }.runCommand (displayControlByte (d l.dctl)))) : IgnoresOperands f :=
  (Blind.whenReady (.runCommand (g := fun l => { l with dctl := d l.dctl }) (fun _ _ _ => rfl)
    fun _ _ _ => rfl)).ignoresOperands hf

/-- A command that writes `entry` and sends it (43_command_api.md R259 to R262). -/
theorem ignoresOperands_entry (op : BitVec 5) (e : BitVec 2 → BitVec 2)
    (hf : ∀ a b s, exec (f a b) s = .next ((s.latch op a b).whenReady fun l =>
      { l with entry := e l.entry }.runCommand (entryModeByte (e l.entry)))) : IgnoresOperands f :=
  (Blind.whenReady (.runCommand (g := fun l => { l with entry := e l.entry }) (fun _ _ _ => rfl)
    fun _ _ _ => rfl)).ignoresOperands hf

/-- A reserved request (30_encoding.md R115). -/
theorem ignoresOperands_reserved (op : BitVec 5)
    (hf : ∀ a b s, exec (f a b) s = .next ((s.latch op a b).raiseError .errIllegal)) : IgnoresOperands f :=
  (Blind.raiseError .errIllegal).ignoresOperands hf

theorem ignoresOperands_init : IgnoresOperands .init :=
  (Blind.ite (p := fun l => l.fault = true) (fun _ _ _ => Iff.rfl) (.raiseError .errFaulted)
    (.ite (p := fun l => l.ctl = .ready) (fun _ _ _ => Iff.rfl) (.raiseError .errReinit)
      (.start initItems))).ignoresOperands fun _ _ _ => rfl

theorem ignoresOperands_readData : IgnoresOperands .readData :=
  (Blind.whenReady (.ite (fun _ _ _ => Iff.rfl)
    (.start fun c => memRead c true ++ .act .keep :: completionWait c false ++ [.respond .rdKeep])
    .raiseConfigError)).ignoresOperands fun _ _ _ => rfl

theorem ignoresOperands_readAb : IgnoresOperands .readAb :=
  (Blind.whenReady (.ite (fun _ _ _ => Iff.rfl) (.start fun c => memRead c false ++ [.respond .rdAcc])
    .raiseConfigError)).ignoresOperands fun _ _ _ => rfl

theorem ignoresOperands_isBusy : IgnoresOperands .isBusy :=
  (Blind.whenReady (.ite (fun _ _ _ => Iff.rfl) (.start fun c => memRead c false ++ [.respond .busyBit])
    (.start fun _ => [.respond (.const 0x01#8)]))).ignoresOperands fun _ _ _ => rfl

/-! ## The requests that ignore a part of their operands -/

/-- Where the first operand stays the latch keeps it. -/
theorem Blind.ignoresSecond {F : State → State} (hF : Blind F) {i i' : Instr} {op : BitVec 5} {a b b' : Byte}
    {s t : State} (hi : exec i s = .next (F (s.latch op a b))) (hi' : exec i' s = .next (F (s.latch op a b')))
    (ha : i.operandA = a) (hx : exec i s = .next t) : exec i' s = .next { t with b := b' } := by
  obtain ⟨-, hta, -, -⟩ := (Accepts.of_exec hx).latch
  have h := hF.ignores hi hi' hx
  rwa [← ha, ← hta] at h

theorem writeCmd_ignoresSecond (a b b' : Byte) (s t : State) (hx : exec (.writeCmd a b) s = .next t) :
    exec (.writeCmd a b') s = .next { t with b := b' } :=
  have hsend : Blind fun l => (l.mirrorCommand a).runCommand a := .runCommand (.mirrorCommand a) fun _ _ _ => rfl
  (Blind.whenReady (.ite (p := fun l => (a.isFunctionSet && (a.dlBit != l.cfg.dl)) = true) (fun _ _ _ => Iff.rfl)
    (.raiseError .errIllegal) hsend)).ignoresSecond rfl rfl rfl hx

theorem writeData_ignoresSecond (a b b' : Byte) (s t : State) (hx : exec (.writeData a b) s = .next t) :
    exec (.writeData a b') s = .next { t with b := b' } :=
  (Blind.whenReady (.start fun c => dataItems c a ++ [.respond (.const 0x00#8)])).ignoresSecond rfl rfl rfl hx

theorem getStatus_ignores {a a' : Byte} (h : a.sel = a'.sel) (b b' : Byte) (s t : State)
    (hx : exec (.getStatus a b) s = .next t) : exec (.getStatus a' b') s = .next { t with a := a', b := b' } := by
  refine (Blind.start fun _ => [.respond (.const (s.statusAnswer a.sel))]).ignores rfl ?_ hx
  rw [h]
  rfl

theorem slot_eq_setWidth : ∀ a : Byte, a.slot = (a.extractLsb' 0 3).setWidth 8 := by decide

theorem cgramSlot_ignores {a a' : Byte} (h : a.slot = a'.slot) (b b' : Byte) (s t : State)
    (hx : exec (.cgramSlot a b) s = .next t) : exec (.cgramSlot a' b') s = .next { t with a := a', b := b' } := by
  have hbyte : cgramSlotByte a = cgramSlotByte a' := by rw [cgramSlotByte, cgramSlotByte, h]
  refine (Blind.whenReady (.runCommand (v := fun _ => cgramSlotByte a) (fun _ _ _ => rfl) fun _ _ _ => rfl)).ignores
    rfl ?_ hx
  rw [hbyte]
  rfl

end Sys2Proof.Machine
end

section
/-! PROOFS. The obligations of 30_encoding.md: the request word, the assembler, the accepting edge, the response, and the
requests that are reserved or ignore their operands. -/

namespace Sys2Proof.Proofs

open Sys2Proof.Machine

/-- Settles O1: the word keeps the three fields, and the opcode map gives the request back from them. -/
theorem decodeOfEncode : Obligations.DecodeOfEncode := by
  intro i
  rw [decode_toNat, decodeReq_encode]

/-- Settles O2: the number is a word, and the word is that of the request it decodes to. -/
theorem encodeOfDecode : Obligations.EncodeOfDecode := by
  intro n hn
  refine ⟨decodeReq (BitVec.ofNat 21 n), if_pos hn, ?_⟩
  rw [encode_decodeReq, BitVec.toNat_ofNat, Nat.mod_eq_of_lt hn]

/-- Settles O3. -/
theorem noWordNoRequest : Obligations.NoWordNoRequest := fun _ => decode_of_long

/-- Settles O4: eleven words, read by the decoder. -/
theorem writtenWordsDecode : Obligations.WrittenWordsDecode := by
  unfold Obligations.WrittenWordsDecode
  decide

/-- Settles O5: the line's word is that of its fields, and the opcode map keeps them. -/
theorem assembledLineDecodes : Obligations.AssembledLineDecodes := by
  intro op hop operands hlen hbytes
  have hop' : op < 32 := by omega
  have ha := getD_lt hbytes 0
  have hb := getD_lt hbytes 1
  obtain ⟨hiop, hia, hib⟩ := instrOfOp_fields (BitVec.ofNat 5 op) (BitVec.ofNat 8 (operands.getD 0 0))
    (BitVec.ofNat 8 (operands.getD 1 0))
  refine ⟨_, _, assemble_request hop hlen hbytes, requestWord_toNat hop' ha hb, decode_toNat _, ?_⟩
  rw [decodeReq_requestWord hop' ha hb, hiop, hia, hib]
  simp only [BitVec.toNat_ofNat]
  exact ⟨Nat.mod_eq_of_lt hop', Nat.mod_eq_of_lt ha, Nat.mod_eq_of_lt hb⟩

/-- Settles O6: both expansions are made of WRITE_DATA words, in the order of the bytes. -/
theorem pseudoInstructionsExpand : Obligations.PseudoInstructionsExpand := by
  refine ⟨fun text htext => ?_, fun slot rows hslot hlen hrows => ?_⟩
  · rw [assemble_print htext, map_writeDataWord htext]
  · rw [assemble_createChar hslot hlen hrows, cgramSlotWord_eq hslot, map_writeDataWord hrows]

/-- Settles O10: `decode` reads the word `step` reads. -/
theorem stepRunsTheDecodedRequest : Obligations.StepRunsTheDecodedRequest := by
  intro s i hl hrst hr hv hi
  obtain rfl : decodeReq s.port.req = i := by rw [decode_toNat] at hi; cases hi; rfl
  exact ⟨step_accept hl hrst hr hv, rfl⟩

/-- Settles O11. -/
theorem acceptingEdgeIsAtRest : Obligations.AcceptingEdgeIsAtRest := fun _ => acceptEdge_atRest

/-- Settles O24, edge by edge: a running request, an accepting edge, an idle edge. -/
theorem responseHeld : Obligations.ResponseHeld := fun _ _ => step_sameResponse

/-- Settles O30: each reserved request is turned away as it is latched. -/
theorem reservedAreIllegal : Obligations.ReservedAreIllegal := by
  intro a b s
  have hraise (op : BitVec 5) := congrArg (Host.Outcome.next (φ := Fault) (ρ := Refusal))
    (raiseError_latch s op a b .errIllegal)
  exact ⟨hraise _, hraise _, hraise _, hraise _, hraise _, hraise _, hraise _, hraise _, hraise _, hraise _, hraise _⟩

/-- Settles O31: what each request does after the latch is blind to the operands it ignores. -/
theorem ignoredOperands : Obligations.IgnoredOperands := by
  refine ⟨?_, ?_, fun a b a' b' s t h => getStatus_ignores h b b' s t, fun a b a' b' s t h => ?_⟩
  · change ∀ f ∈ _, IgnoresOperands f
    simp only [List.forall_mem_cons, List.not_mem_nil, false_imp_iff, implies_true, and_true]
    refine ⟨ignoresOperands_init, ignoresOperands_readData, ignoresOperands_readAb, ignoresOperands_isBusy,
      ignoresOperands_command 0x07#5 0x01#8 ?_, ignoresOperands_command 0x08#5 0x02#8 ?_,
      ignoresOperands_dctl 0x09#5 (withCursor · true) ?_, ignoresOperands_dctl 0x0A#5 (withCursor · false) ?_,
      ignoresOperands_dctl 0x0B#5 (withBlink · true) ?_, ignoresOperands_dctl 0x0C#5 (withBlink · false) ?_,
      ignoresOperands_command 0x0D#5 0x18#8 ?_, ignoresOperands_command 0x0E#5 0x1C#8 ?_,
      ignoresOperands_entry 0x0F#5 (withIncrement · true) ?_, ignoresOperands_entry 0x10#5 (withIncrement · false) ?_,
      ignoresOperands_entry 0x11#5 (withShift · true) ?_, ignoresOperands_entry 0x12#5 (withShift · false) ?_,
      ignoresOperands_reserved 0x15#5 ?_, ignoresOperands_reserved 0x16#5 ?_, ignoresOperands_reserved 0x17#5 ?_,
      ignoresOperands_reserved 0x18#5 ?_, ignoresOperands_reserved 0x19#5 ?_, ignoresOperands_reserved 0x1A#5 ?_,
      ignoresOperands_reserved 0x1B#5 ?_, ignoresOperands_reserved 0x1C#5 ?_, ignoresOperands_reserved 0x1D#5 ?_,
      ignoresOperands_reserved 0x1E#5 ?_, ignoresOperands_reserved 0x1F#5 ?_⟩ <;> exact fun _ _ _ => rfl
  · simp only [List.forall_mem_cons, List.not_mem_nil, false_imp_iff, implies_true, and_true]
    exact ⟨writeCmd_ignoresSecond, writeData_ignoresSecond⟩
  · have hslot : a.slot = a'.slot := by rw [slot_eq_setWidth, slot_eq_setWidth, h]
    exact cgramSlot_ignores hslot b b' s t

end Sys2Proof.Proofs
end

section
/-! SUPPORT. Durations in cycles (40_transport.md R150): the rounding up, by the library's division that rounds up. -/

namespace Sys2Proof

/-- `N(t)` is the least number of cycles, one or more, that is not shorter than `t`. -/
theorem cycles_le_iff {c : Config} (h : 1 ≤ c.tClkNs) (t n : Nat) :
    c.cycles t ≤ n ↔ 1 ≤ n ∧ t ≤ n * c.tClkNs := by
  rw [Config.cycles, ← Nat.ceilDiv_eq_add_pred_div, max_le_iff, ceilDiv_le_iff_le_mul h, Nat.mul_comm]

theorem le_cycles_mul {c : Config} (h : 1 ≤ c.tClkNs) (t : Nat) : t ≤ c.cycles t * c.tClkNs :=
  ((cycles_le_iff h t _).mp le_rfl).2

/-- The excess is less than a period: one cycle fewer would be shorter than `t`. -/
theorem cycles_mul_lt {c : Config} (h : 1 ≤ c.tClkNs) {t : Nat} (ht : 1 ≤ t) :
    c.cycles t * c.tClkNs < t + c.tClkNs := by
  obtain ⟨n, hn⟩ : ∃ n, c.cycles t = n + 1 := Nat.exists_eq_add_one.mpr (Machine.cycles_pos c t)
  rw [hn, Nat.succ_mul]
  rcases Nat.eq_zero_or_pos n with rfl | hpos
  · omega
  · have hshort : ¬ t ≤ n * c.tClkNs := fun hle => by
      have := (cycles_le_iff h t n).mpr ⟨hpos, hle⟩
      omega
    omega

theorem cycles_of_multiple {c : Config} (h : 1 ≤ c.tClkNs) {k : Nat} (hk : 1 ≤ k) :
    c.cycles (k * c.tClkNs) = k :=
  le_antisymm ((cycles_le_iff h _ k).mpr ⟨hk, le_rfl⟩) (Nat.le_of_mul_le_mul_right (le_cycles_mul h _) h)

theorem cycles_of_short {c : Config} (h : 1 ≤ c.tClkNs) {t : Nat} (ht : t < c.tClkNs) : c.cycles t = 1 :=
  le_antisymm ((cycles_le_iff h t 1).mpr ⟨le_rfl, by omega⟩) (Machine.cycles_pos c t)

end Sys2Proof
end

section
/-! SUPPORT. A transfer cycle by cycle (40_transport.md R151 to R156): in every cycle the machine holds what the phase
assigned at its start edge. -/

namespace Sys2Proof.Machine

/-! ## Inside a phase -/

/-- `w` is a cycle of a phase that has set the registers as in `t`: only the count, what is left to do and the host's
pins are its own. -/
def Holding (t w : State) : Prop :=
  ∃ cnt pos port host, w = { t with cnt := cnt, pos := pos, port := port, host := host }

theorem Holding.of_waited {t w : State} {n : Nat} (h : Holding (t.waited n) w) : Holding t w := by
  obtain ⟨cnt, pos, port, host, rfl⟩ := h
  rw [waited_eq]
  exact ⟨cnt, pos, port, host, rfl⟩

theorem Inv.pos_ne_nil {s : State} (h : Inv s) (hr : s.running = true) : s.pos ≠ [] := by
  obtain ⟨-, -, hpos⟩ := h.inOrder hr
  intro hp
  simp [hp, posOk] at hpos

theorem Going.drive {s : State} (h : Going s) (d : Drive) : Going (s.drive d) :=
  h.congr (by simp) (by simp) (by simp) (by simp) (by simp)

/-- A phase from its start edge on. -/
theorem phase_holds {s : State} {d : Drive} {n : Nat} {K : List Item} (hg : Going s) (hK : K ≠ []) {m : Nat}
    (hm : m < n) : ∃ w, run m (State.advance (.phase d n :: K) s) = .next w ∧ Holding (s.drive d) w := by
  obtain ⟨k, rfl⟩ : ∃ k, n = k + 1 := ⟨n - 1, by omega⟩
  have hgu : Going (s.startPhase d (k + 1) K) := (hg.drive d).congr rfl rfl rfl rfl rfl
  refine ⟨_, run_phase_at k _ hgu hK rfl m hm, ?_⟩
  rw [waited_eq]
  exact ⟨_, _, _, _, rfl⟩

/-! ## From phase to phase -/

/-- The registers in cycle `m` of a sequence of phases and samples. -/
def heldAt : List Item → State → Nat → State
  | .phase d n :: rest, s, m => if m < n then s.drive d else heldAt rest (s.drive d) (m - n)
  | .sample p :: rest, s, m => heldAt rest (s.sample p) m
  | _, s, _ => s

theorem heldAt_waited (l : List Item) (s : State) (n m : Nat) :
    heldAt l (s.waited n) m = (heldAt l s m).waited n := by
  induction l generalizing s m with
  | nil => rfl
  | cons i rest ih =>
    cases i with
    | phase d k =>
      simp only [heldAt, ← drive_waited, ih]
      split <;> rfl
    | sample p => simp only [heldAt, ← sample_waited, ih]
    | act x => rfl
    | pollTest => rfl
    | respond src => rfl

/-- The machine goes through a transfer as `heldAt` says. -/
theorem transfer_holds {l K : List Item} {s : State} (hl : isTransfer l = true) (hg : Going s) (hK : K ≠ []) {m : Nat}
    (hm : m < (straight l s).cycles) :
    ∃ w, run m (State.advance (l ++ K) s) = .next w ∧ Holding (heldAt l s m) w := by
  induction l generalizing s m with
  | nil => exact absurd hm (Nat.not_lt_zero m)
  | cons i rest ih =>
    cases i with
    | phase d n =>
      simp only [isTransfer, Bool.and_eq_true, decide_eq_true_eq] at hl
      obtain ⟨hn, hl⟩ := hl
      have hrest : rest ++ K ≠ [] := by simp [hK]
      by_cases hmn : m < n
      · rw [heldAt, if_pos hmn]
        exact phase_holds hg hrest hmn
      · obtain ⟨j, rfl⟩ : ∃ j, m = n + j := ⟨m - n, by omega⟩
        have hj : j < (straight rest ((s.drive d).waited n)).cycles := by
          rw [straight_waited]
          exact Nat.lt_of_add_lt_add_left hm
        obtain ⟨w, hw, hh⟩ := ih hl ((hg.drive d).waited n) hj
        refine ⟨w, (run_add _ _ _ _ (stays_phase d n (rest ++ K) s hg hn hrest).ends).trans hw, ?_⟩
        rw [heldAt, if_neg hmn, Nat.add_sub_cancel_left]
        rw [heldAt_waited] at hh
        exact hh.of_waited
    | sample p => exact ih (s := s.sample p) hl (hg.congr rfl rfl rfl rfl rfl) hm
    | act x => cases hl
    | pollTest => cases hl
    | respond src => cases hl

/-! ## The two transfers -/

theorem drive_write_e (s : State) (rs : Option Bool) (v : Byte) : (s.drive (.write rs v)).e = false := by
  cases rs <;> rfl

theorem drive_read_e (s : State) (rs : Option Bool) : (s.drive (.read rs)).e = false := by cases rs <;> rfl

/-- ENABLE written low where it is low. -/
theorem lower_e {s : State} (h : s.e = false) : { s with e := false } = s := by rw [← h]

/-- A pulse of ENABLE: low for `a` cycles, high for `b`, low after them, where the registers are those of `t`. -/
theorem heldAt_pulse {s t : State} {d : Drive} {f : List Item} (a b m : Nat) (hd : (s.drive d).e = false)
    (hf : ∀ k, heldAt f ((s.drive d).drive .high) k = { t with e := false }) :
    heldAt (.phase d a :: .phase .high b :: f) s m
      = { (if m < a + b then s.drive d else t) with e := decide (a ≤ m ∧ m < a + b) } := by
  rw [heldAt, heldAt, hf]
  by_cases hsetup : m < a
  · have hab : m < a + b := by omega
    have hlow : ¬ (a ≤ m ∧ m < a + b) := by omega
    rw [if_pos hsetup, if_pos hab, decide_eq_false hlow, lower_e hd]
  · by_cases hpulse : m < a + b
    · have hb : m - a < b := by omega
      have hhigh : a ≤ m ∧ m < a + b := by omega
      rw [if_neg hsetup, if_pos hb, if_pos hpulse, decide_eq_true hhigh]
      rfl
    · have hb : ¬ m - a < b := by omega
      have hlow : ¬ (a ≤ m ∧ m < a + b) := by omega
      rw [if_neg hsetup, if_neg hb, if_neg hpulse, decide_eq_false hlow]

theorem heldAt_writeXfer (c : Config) (rs : Option Bool) (v : Byte) (s : State) (m : Nat) :
    heldAt (writeXfer c rs v) s m
      = { s.drive (.write rs v) with
          e := decide (c.cycles c.tAsNs ≤ m ∧ m < c.cycles c.tAsNs + c.cycles c.tPwNs) } := by
  have hlow (k : Nat) : heldAt [.phase .low (c.cycles c.tSettleNs)] ((s.drive (.write rs v)).drive .high) k
      = { s.drive (.write rs v) with e := false } := ite_self _
  rw [writeXfer, heldAt_pulse _ _ _ (drive_write_e s rs v) hlow, ite_self]

/-- The sample is taken at the edge where ENABLE falls. -/
theorem heldAt_readXfer (c : Config) (rs : Option Bool) (p : Part) (s : State) (m : Nat) :
    heldAt (readXfer c rs p) s m
      = { (if m < c.cycles c.tAsNs + c.cycles c.tRdEhNs then s.drive (.read rs) else (s.drive (.read rs)).sample p) with
          e := decide (c.cycles c.tAsNs ≤ m ∧ m < c.cycles c.tAsNs + c.cycles c.tRdEhNs) } := by
  have hlow (k : Nat) :
      heldAt [.sample p, .phase .low (c.cycles c.tRdRecNs)] ((s.drive (.read rs)).drive .high) k
        = { (s.drive (.read rs)).sample p with e := false } := ite_self _
  rw [readXfer, heldAt_pulse _ _ _ (drive_read_e s rs) hlow]

theorem writeXfer_isTransfer (c : Config) (rs : Option Bool) (v : Byte) : isTransfer (writeXfer c rs v) = true := by
  simp [writeXfer, isTransfer, cycles_pos]

theorem readXfer_isTransfer (c : Config) (rs : Option Bool) (p : Part) : isTransfer (readXfer c rs p) = true := by
  simp [readXfer, isTransfer, cycles_pos]

theorem straight_writeXfer_cycles (c : Config) (rs : Option Bool) (v : Byte) (s : State) :
    (straight (writeXfer c rs v) s).cycles = c.cycles c.tAsNs + c.cycles c.tPwNs + c.cycles c.tSettleNs :=
  (Nat.add_assoc ..).symm

theorem straight_readXfer_cycles (c : Config) (rs : Option Bool) (p : Part) (s : State) :
    (straight (readXfer c rs p) s).cycles = c.cycles c.tAsNs + c.cycles c.tRdEhNs + c.cycles c.tRdRecNs :=
  (Nat.add_assoc ..).symm

theorem straight_writeXfer_last (c : Config) (rs : Option Bool) (v : Byte) (s : State) :
    (straight (writeXfer c rs v) s).last = s.drive (.write rs v) :=
  lower_e (drive_write_e s rs v)

theorem straight_readXfer_last (c : Config) (rs : Option Bool) (p : Part) (s : State) :
    (straight (readXfer c rs p) s).last = (s.drive (.read rs)).sample p :=
  lower_e (s := (s.drive (.read rs)).sample p) (drive_read_e s rs)

/-- Where a transfer ends, what follows it goes on from the registers it leaves. -/
theorem transfer_ends {l K : List Item} {s t : State} {n : Nat} (hl : isTransfer l = true) (hg : Going s) (hK : K ≠ [])
    (hn : (straight l s).cycles = n) (ht : (straight l s).last = t) :
    run n (State.advance (l ++ K) s) = .next (State.advance K (t.waited n)) := by
  subst hn ht
  exact (stays_transfer l K s hl hg hK).ends

theorem sample_drive_read_rdAcc (s : State) (rs : Option Bool) (p : Part) :
    ((s.drive (.read rs)).sample p).rdAcc = sampleInto s.rdAcc s.lcdDI p := by
  cases rs <;> rfl

end Sys2Proof.Machine
end

section
/-! SUPPORT. The device's answers reach the LCDC at a sample edge and nowhere else (40_transport.md R156): an edge of
each kind under another script. -/

namespace Sys2Proof.Machine

/-- The device's script and the count of its draws, written. -/
def State.withDevice (s : State) (device : List Byte) (draws : Nat) : State :=
  { s with device := device, draws := draws }

/-! ## The sequencer up to its next phase -/

/-- A phase or the response comes before any sample or exit test. -/
def beginsUnsampled : List Item → Bool
  | [] => true
  | .phase _ _ :: _ => true
  | .sample _ :: _ => false
  | .act _ :: rest => beginsUnsampled rest
  | .pollTest :: _ => false
  | .respond _ :: _ => true

variable {device : List Byte} {draws : Nat}

theorem drive_withDevice (s : State) (d : Drive) :
    (s.withDevice device draws).drive d = (s.drive d).withDevice device draws := by
  rcases d with _ | ⟨_ | _, _⟩ | ⟨_ | _⟩ | _ | _ | _ <;> rfl

theorem act_withDevice (s : State) (x : Act) :
    (s.withDevice device draws).act x = (s.act x).withDevice device draws := by
  cases x <;> rfl

theorem advance_withDevice {items : List Item} (h : beginsUnsampled items = true) (s : State) :
    State.advance items (s.withDevice device draws) = (State.advance items s).withDevice device draws := by
  induction items generalizing s with
  | nil => rfl
  | cons i rest ih =>
    cases i with
    | phase d n => simp only [State.advance, State.startPhase, drive_withDevice]; rfl
    | sample p => cases h
    | act x => simp only [State.advance, act_withDevice, ih h]
    | pollTest => cases h
    | respond src => cases src <;> rfl

theorem memWrite_beginsUnsampled (c : Config) (rs : Bool) (v : Byte) (K : List Item) :
    beginsUnsampled (memWrite c rs v ++ K) = true := by
  unfold memWrite
  cases c.busWidth <;> rfl

theorem memRead_beginsUnsampled (c : Config) (rs : Bool) (K : List Item) :
    beginsUnsampled (memRead c rs ++ K) = true := by
  unfold memRead
  cases c.busWidth <;> rfl

theorem init_beginsUnsampled (c : Config) : beginsUnsampled (initItems c) = true := rfl

/-! ## The accepting edge -/

/-- A command (43_command_api.md R250). -/
theorem runCommand_withDevice (s : State) (v : Byte) :
    (s.withDevice device draws).runCommand v = (s.runCommand v).withDevice device draws :=
  advance_withDevice (by rw [commandItems, List.append_assoc]; exact memWrite_beginsUnsampled ..) s

theorem mirrorCommand_withDevice (s : State) (v : Byte) :
    (s.withDevice device draws).mirrorCommand v = (s.mirrorCommand v).withDevice device draws := by
  rw [mirrorCommand_eq, mirrorCommand_eq]
  rfl

/-- A choice the device has no part in. -/
theorem ite_withDevice {p : Prop} [Decidable p] {t u t' u' : State} (ht : t' = t.withDevice device draws)
    (hu : u' = u.withDevice device draws) :
    (if p then t' else u') = (if p then t else u).withDevice device draws := by
  subst ht hu
  split <;> rfl

/-- The shared checks, before something the device has no part in. -/
theorem next_whenReady_withDevice {s : State} {f : State → State}
    (hf : f (s.withDevice device draws) = (f s).withDevice device draws) :
    (Host.Outcome.next ((s.withDevice device draws).whenReady f) : Host.Outcome State Fault Refusal)
      = .next ((s.whenReady f).withDevice device draws) :=
  congrArg _ (ite_withDevice rfl (ite_withDevice rfl hf))

/-- No request samples at its accepting edge. -/
theorem exec_withDevice {i : Instr} {s t : State} (hx : exec i s = .next t) :
    exec i (s.withDevice device draws) = .next (t.withDevice device draws) := by
  cases i <;> cases hx
  case getStatus a b => rfl
  case init a b =>
    refine congrArg Host.Outcome.next (ite_withDevice rfl (ite_withDevice rfl ?_))
    exact advance_withDevice (init_beginsUnsampled s.cfg) (s.latch _ a b)
  case writeCmd a b =>
    refine next_whenReady_withDevice (s := s.latch _ a b) (ite_withDevice rfl ?_)
    rw [mirrorCommand_withDevice, runCommand_withDevice]
  case writeData a b =>
    refine next_whenReady_withDevice (s := s.latch _ a b) ?_
    refine advance_withDevice ?_ _
    rw [dataItems, List.append_assoc]
    exact memWrite_beginsUnsampled ..
  case readData a b =>
    refine next_whenReady_withDevice (s := s.latch _ a b) ?_
    refine ite_withDevice (advance_withDevice ?_ _) rfl
    rw [List.append_assoc]
    exact memRead_beginsUnsampled ..
  case readAb a b | isBusy a b =>
    refine next_whenReady_withDevice (s := s.latch _ a b) ?_
    exact ite_withDevice (advance_withDevice (memRead_beginsUnsampled ..) _) rfl
  case clear a b | home a b | scrollLeft a b | scrollRight a b | setCursor a b | cgramSlot a b =>
    refine next_whenReady_withDevice (s := s.latch _ a b) ?_
    exact runCommand_withDevice ..
  case cursorOn a b | cursorOff a b | blinkOn a b | blinkOff a b =>
    refine next_whenReady_withDevice (s := s.latch _ a b) ?_
    exact runCommand_withDevice { s.latch _ a b with dctl := _ } _
  case entryLtr a b | entryRtl a b | autoscrollOn a b | autoscrollOff a b =>
    refine next_whenReady_withDevice (s := s.latch _ a b) ?_
    exact runCommand_withDevice { s.latch _ a b with entry := _ } _
  -- The reserved requests are answered at this edge.
  all_goals rfl

/-- A request takes nothing from the device at its accepting edge. -/
theorem exec_draws {i : Instr} {s t : State} (hx : exec i s = .next t) : t.draws = s.draws := by
  have hself : exec i s = .next (t.withDevice s.device s.draws) := exec_withDevice hx
  have hdraws := congrArg State.draws (Host.Outcome.next.inj (hx.symm.trans hself))
  exact hdraws

/-! ## An edge of each kind -/

theorem step_runEdge {s : State} (hl : s.cfg.legal = true) (hrst : s.port.rst = false) (hr : s.running = true)
    (hp : s.pos ≠ []) : step s = .next s.runEdge := by
  obtain ⟨i, rest, hpos⟩ := List.exists_cons_of_ne_nil hp
  simp [step, hl, hrst, hr, hpos]

/-- `t` as it is when the device answers `w` next and then `rest`: `w` still stands where `t` has taken no sample. -/
def State.answering (s t : State) (w : Byte) (rest : List Byte) : State :=
  { t with device := if t.draws = s.draws then w :: rest else t.device }

theorem answering_of_draws {s t : State} {w : Byte} {rest : List Byte} (h : t.draws = s.draws) :
    s.answering t w rest = t.withDevice (w :: rest) s.draws := by
  rw [State.answering, if_pos h, ← h]
  rfl

/-- An edge of a running request reads the active lanes alone. -/
theorem runEdge_lanes {s : State} {v w : Byte} {rest : List Byte} (h : Inv s) (hr : s.running = true)
    (hd : s.device = v :: rest) (hv : v &&& s.cfg.active = w &&& s.cfg.active) :
    (s.withDevice (w :: rest) s.draws).runEdge = s.answering s.runEdge w rest := by
  by_cases hc : 1 < s.cnt
  · have hdraws : s.runEdge.draws = s.draws := by rw [runEdge_waiting hc]; rfl
    rw [answering_of_draws hdraws, runEdge_waiting hc]
    exact runEdge_waiting (s := s.withDevice (w :: rest) s.draws) hc
  · obtain ⟨-, -, hpos⟩ := h.inOrder hr
    rw [runEdge_phaseEnd hc]
    exact (runEdge_phaseEnd (s := s.withDevice (w :: rest) s.draws) hc).trans
      (advance_lanes s.pos (s.hostMoves false) v w rest hd hv hpos)

/-- Two answers that agree on the active lanes give the same step. -/
theorem step_lanes {s t : State} {v w : Byte} {rest : List Byte} (h : Inv s) (hd : s.device = v :: rest)
    (hv : v &&& s.cfg.active = w &&& s.cfg.active) (hs : step s = .next t) :
    step (s.withDevice (w :: rest) s.draws) = .next (s.answering t w rest) := by
  have hl := h.legal
  cases Edge.of_step hs with
  | reset hrst =>
    rw [answering_of_draws (show s.resetEdge.draws = s.draws from rfl)]
    exact step_resetEdge hl hrst
  | run hrst hr hp =>
    rw [← runEdge_lanes h hr hd hv]
    exact step_runEdge hl hrst hr hp
  | accept hrst hr hreq hx =>
    have hdraws := exec_draws hx
    rw [answering_of_draws (s := s) hdraws]
    exact (step_accept (s := s.withDevice (w :: rest) s.draws) hl hrst hr hreq).trans (exec_withDevice hx)
  | idle hrst hr hreq =>
    rw [answering_of_draws (show s.idleEdge.draws = s.draws from rfl)]
    exact step_idleEdge hl hrst hr hreq

end Sys2Proof.Machine
end

section
/-! PROOFS. The obligations of 40_transport.md: durations, phases and transfers, and the lanes a sample reads. -/

namespace Sys2Proof.Proofs

open Sys2Proof.Machine

/-- Settles O51: `N(t)` is the least number of cycles that is not shorter (`cycles_le_iff`). -/
theorem durationsRoundUp : Obligations.DurationsRoundUp := by
  intro c t h
  refine ⟨cycles_pos c t, le_cycles_mul h t, fun n hn hle => (cycles_le_iff h t n).mpr ⟨hn, hle⟩, cycles_mul_lt h,
    fun k hk ht => ?_, cycles_of_short h⟩
  rw [ht]
  exact cycles_of_multiple h hk

/-- Settles O52: each minimum is one of the parameter, and a duration is not shorter than its parameter. -/
theorem electricalMargins : Obligations.ElectricalMargins := by
  intro c hl
  obtain ⟨-, -, -, -, hclk, hAs, hPw, hSettle, hOn, hNeg1, hNeg2, hNeg3, -, hRdEh, -, -⟩ := (legal_iff c).mp hl
  have hlasts {least t : Nat} (h : least ≤ t) : least ≤ c.cycles t * c.tClkNs := h.trans (le_cycles_mul hclk t)
  exact ⟨hlasts hPw, hlasts hRdEh, hlasts hAs, hlasts hSettle, hlasts hOn, hlasts hNeg1, hlasts hNeg2, hlasts hNeg3⟩

/-- Settles O12. -/
theorem idleEdgeHolds : Obligations.IdleEdgeHolds := fun _ => step_idleEdge

/-- Settles O13: a running state counts down and the host's pins move on. -/
theorem phaseHoldsItsPins : Obligations.PhaseHoldsItsPins := by
  intro s m hinv hn hr hm
  obtain ⟨n, hc⟩ : ∃ n, s.cnt = n + 1 := ⟨s.cnt - 1, by omega⟩
  have hrun := run_phase_at n s ⟨hinv.legal, hn, hr⟩ (hinv.pos_ne_nil hr) hc m (hc ▸ hm)
  rw [waited_eq, ← hc] at hrun
  exact ⟨_, _, hrun⟩

/-- Settles O14: in every cycle the registers are those the write sets, with ENABLE as the pulse has it. -/
theorem writeTransferShape : Obligations.WriteTransferShape := by
  intro s rs v rest hl hn hr hrest
  have hg : Going s := ⟨hl, hn, hr⟩
  have ht := writeXfer_isTransfer s.cfg rs v
  have hcycles := straight_writeXfer_cycles s.cfg rs v s
  refine ⟨fun m hm => ?_, transfer_ends ht hg hrest hcycles (straight_writeXfer_last ..)⟩
  obtain ⟨w, hw, hholds⟩ := transfer_holds ht hg hrest (hcycles ▸ hm)
  rw [heldAt_writeXfer] at hholds
  obtain ⟨cnt, pos, port, host, rfl⟩ := hholds
  exact ⟨_, hw, rfl, rfl, rfl, rfl, rfl⟩

/-- Settles O15: as O14, with the registers those of the sample from the fall of ENABLE on. -/
theorem readTransferShape : Obligations.ReadTransferShape := by
  intro s rs p rest hl hn hr hrest
  have hg : Going s := ⟨hl, hn, hr⟩
  have ht := readXfer_isTransfer s.cfg rs p
  have hcycles := straight_readXfer_cycles s.cfg rs p s
  refine ⟨fun m hm => ?_, transfer_ends ht hg hrest hcycles (straight_readXfer_last ..)⟩
  obtain ⟨w, hw, hholds⟩ := transfer_holds ht hg hrest (hcycles ▸ hm)
  rw [heldAt_readXfer] at hholds
  obtain ⟨cnt, pos, port, host, rfl⟩ := hholds
  refine ⟨_, hw, ?_⟩
  split
  · exact ⟨rfl, rfl, rfl, rfl, rfl, State.drive_rdAcc ..⟩
  · exact ⟨rfl, rfl, rfl, rfl, rfl, sample_drive_read_rdAcc ..⟩

/-- Settles O28, edge by edge: only an edge of a running request reads the device, and it reads the active lanes. -/
theorem inactiveLanesNeverRead : Obligations.InactiveLanesNeverRead := fun _ _ _ _ _ => step_lanes

end Sys2Proof.Proofs
end

section
/-! SUPPORT. The register requests in closed form (41_register_access.md R195 to R199): past the common checks in READY,
the answer at the accepting edge, the reads with and without a completion wait, and WRITE_CMD's byte field by field. -/

namespace Sys2Proof.Machine

/-- In READY and not faulted a request that makes the common checks runs on its latched registers (60_exceptions.md
R301). -/
theorem AtRestReady.exec_run {i : Instr} {s : State} {op : BitVec 5} {a b : Byte} {f : State → State}
    (h : AtRestReady s) (hx : exec i s = .next ((s.latch op a b).whenReady f)) :
    exec i s = .next (f (s.accepted op a b)) := by
  rw [hx, ready_run h]
  rfl

theorem AtRestReady.accepted {s : State} (h : AtRestReady s) (op : BitVec 5) (a b : Byte) :
    Accepted s (s.accepted op a b) :=
  h.rest.accepts rfl rfl rfl rfl rfl rfl rfl rfl rfl rfl

@[simp] theorem accepted_cfg (s : State) (op : BitVec 5) (a b : Byte) : (s.accepted op a b).cfg = s.cfg := rfl

/-- A request answered at its accepting edge is served in no cycle and with no transfer. -/
theorem serves_now {i : Instr} {s t : State} (hx : exec i s = .next t) (hv : t.rspValid = true) :
    Serves i s 0 t [] :=
  ⟨t, hx, rfl, hv, by simp, rfl⟩

/-! ## The reads -/

/-- One register read with no completion wait (41_register_access.md R198, R199). -/
theorem read_serves {i : Instr} {s u : State} {rs : Bool} {src : Answer} (ha : Accepted s u)
    (hx : exec i s = .next (State.advance (memRead u.cfg rs ++ [.respond src]) u)) :
    Serves i s s.cfg.readLen
      ((u.afterReads rs 0).finished ((u.afterReads rs 0).answerByte src) s.cfg.readLen) (readBus s.cfg rs 1) := by
  have hrun := serves_of_course hx ha.going
    (by rw [canRun_append _ _ _ _ (memRead_isTransfer ..)]; rfl) (pulse_low (advance_memRead_e ..))
  rw [course_memRead _ _ _ ha.pins.low] at hrun
  simp only [Course.andThen, course, ha.cfg, Nat.add_zero, List.append_nil, respond_finished] at hrun
  exact hrun rfl

/-- A read of the data register whose byte is kept over the poll after it (41_register_access.md R197). -/
theorem readData_serves {i : Instr} {s u : State} (ha : Accepted s u) (hw : s.cfg.rwWired = true)
    (hx : exec i s = .next (State.advance
      (memRead u.cfg true ++ .act .keep :: completionWait u.cfg false ++ [.respond .rdKeep]) u)) :
    ∃ n, PollEnds s 1 n ∧
      let T := s.cfg.readLen + (n + 1) * s.cfg.readLen
      Serves i s T (((State.act (u.afterReads true 0) .keep).afterPoll n).finished (u.byteRead 0) T)
        (readBus s.cfg true 1 ++ readBus s.cfg false (n + 1)) := by
  set kept := State.act (u.afterReads true 0) .keep with hkept
  have hcfg : kept.cfg = s.cfg := ha.cfg
  have hreads : ReadsOn s kept 1 := by
    obtain ⟨-, -, hc, hdevice, hdraws, -⟩ := ha
    exact ⟨hc, by rw [← hc, ← hdevice]; rfl, by rw [← hc, ← hdraws]; rfl⟩
  have hm : 1 ≤ u.cfg.pollMax := ha.cfg ▸ ha.pollMax
  obtain ⟨n, hn, hwait⟩ := course_wait_wired kept false (hcfg ▸ hw) rfl hm
  rw [List.append_assoc] at hx
  have hrun := serves_of_course hx ha.going (by
      rw [canRun_append _ _ _ _ (memRead_isTransfer ..)]
      exact canRun_wait _ _ _ _ hm rfl) (pulse_low (advance_memRead_e ..))
  rw [List.cons_append, course_memRead _ _ _ ha.pins.low] at hrun
  rw [hcfg] at hwait
  simp only [Course.andThen, course, ← hkept, hwait, ha.cfg, Nat.add_zero, List.append_nil, respond_finished] at hrun
  exact ⟨n, hreads.ends hn, hrun rfl⟩

theorem ofBit_append (x : Bool) : Byte.ofBit x = 0b0000000#7 ++ BitVec.ofBool x := by
  cases x <;> rfl

/-! ## WRITE_CMD's byte -/

theorem dl_eq_eight (c : Config) : c.dl = decide (c.busWidth = .eight) := by
  unfold Config.dl
  cases c.busWidth <;> rfl

/-- The check of 41_register_access.md R195, bit by bit: a function set whose DL bit is not the configured one. -/
theorem changesWidth_eq (c : Config) (v : Byte) :
    (v.isFunctionSet && (v.dlBit != c.dl))
      = decide (v.extractLsb' 5 3 = 0b001#3 ∧ v.getLsbD 4 ≠ decide (c.busWidth = .eight)) := by
  rw [Bool.eq_iff_iff, dl_eq_eight]
  simp [Byte.isFunctionSet, Byte.dlBit]

theorem isLong_eq (v : Byte) : v.isLong = decide (v = 0x01#8 ∨ v = 0x02#8 ∨ v = 0x03#8) := by
  rw [Bool.eq_iff_iff]
  simp [Byte.isLong, or_assoc]

/-- Each mirror after WRITE_CMD's own write, by the leading bits of the byte (41_register_access.md R195). -/
theorem mirrorCommand_fields (s : State) (v : Byte) :
    s.mirrorCommand v = { s with
      fn := if v.extractLsb' 5 3 = 0b001#3 then v.extractLsb' 2 3 else s.fn
      dctl := if v.extractLsb' 3 5 = 0b00001#5 then v.extractLsb' 0 3 else s.dctl
      entry := if v.extractLsb' 2 6 = 0b000001#6 then v.extractLsb' 0 2 else s.entry } := by
  rw [mirrorCommand_eq, after_command]
  simp only [Byte.isFunctionSet, Byte.isDisplayControl, Byte.isEntryMode, beq_iff_eq]
  rfl

end Sys2Proof.Machine
end

section
/-! PROOFS. The obligations of 41_register_access.md: the five requests that reach the device's registers directly. -/

namespace Sys2Proof.Proofs

open Sys2Proof.Machine

/-- Settles O44: a register write with RS high and a completion wait that is never long. -/
theorem writeDataSends : Obligations.WriteDataSends := fun a b _ h =>
  write_runs (h.accepted 0x03#5 a b) (h.exec_run rfl)

/-- Settles O45: the check decides by `changesWidth_eq`, and what is sent is a write from the registers with the byte's
mirror in them. -/
theorem writeCmdSends : Obligations.WriteCmdSends := by
  intro a b s h refused
  have hx : exec (.writeCmd a b) s = .next (
      if refused then (s.accepted 0x02#5 a b).raiseError .errIllegal
      else ((s.accepted 0x02#5 a b).mirrorCommand a).runCommand a) := by
    rw [h.exec_run (i := .writeCmd a b) rfl, changesWidth_eq]
    rfl
  refine ⟨fun hr => ?_, fun hr => ?_⟩
  · rw [if_pos hr] at hx
    exact hx
  · rw [if_neg (by simp [hr]), mirrorCommand_fields] at hx
    rw [← isLong_eq]
    exact write_runs (h.rest.accepts rfl rfl rfl rfl rfl rfl rfl rfl rfl rfl) hx

/-- Settles O46: with RW the byte read is kept over the poll (`readData_serves`), without RW the check rejects. -/
theorem readDataAnswers : Obligations.ReadDataAnswers := by
  intro a b s h
  have hx := h.exec_run (i := .readData a b) rfl
  refine ⟨fun hw => ?_, fun hw => ?_⟩ <;> simp only [accepted_cfg, hw] at hx
  · exact readData_serves (h.accepted 0x04#5 a b) hw hx
  · exact hx

/-- Settles O47: with RW a lone read (`read_serves`), without RW the check rejects. -/
theorem readAbAnswers : Obligations.ReadAbAnswers := by
  intro a b s h
  have hx := h.exec_run (i := .readAb a b) rfl
  refine ⟨fun hw => ?_, fun hw => ?_⟩ <;> simp only [accepted_cfg, hw] at hx
  · exact read_serves (h.accepted 0x05#5 a b) hx
  · exact hx

/-- Settles O48: the answer is the read's busy bit, or without RW a constant at the accepting edge. -/
theorem isBusyAnswers : Obligations.IsBusyAnswers := by
  intro a b s h
  have hx := h.exec_run (i := .isBusy a b) rfl
  refine ⟨fun hw => ?_, fun hw => ?_⟩ <;> simp only [accepted_cfg, hw] at hx
  · rw [← ofBit_append]
    exact read_serves (h.accepted 0x06#5 a b) hx
  · exact serves_now hx rfl

end Sys2Proof.Proofs
end

section
/-! SUPPORT. What an edge does to `ctl`, and what it does not look at: the host's pins while a request runs, the device
where RW is not wired (42_controller_init.md R231 to R233, R236). -/

namespace Sys2Proof.Machine

/-! ## `ctl` over an edge -/

theorem advance_memWrite_ctl (c : Config) (rs : Bool) (v : Byte) (K : List Item) (s : State) :
    (State.advance (memWrite c rs v ++ K) s).ctl = s.ctl := by
  unfold memWrite writeXfer
  cases c.busWidth <;> rfl

theorem advance_memRead_ctl (c : Config) (rs : Bool) (K : List Item) (s : State) :
    (State.advance (memRead c rs ++ K) s).ctl = s.ctl := by
  unfold memRead readXfer
  cases c.busWidth <;> rfl

theorem advance_init_ctl (c : Config) (s : State) : (State.advance (initItems c) s).ctl = .powerOn := rfl

/-- At its accepting edge a request leaves `ctl` as it is, but for an INIT that runs. -/
theorem Accepts.ctl {i : Instr} {s t : State} (h : Accepts i s t) :
    t.ctl = s.ctl ∨ (i.opcode = 0x01#5 ∧ s.ctl ≠ .ready ∧ t.ctl = .powerOn) := by
  cases h with
  | reject | configError | answer => exact .inl rfl
  | init op fresh => exact .inr ⟨op, fresh, advance_init_ctl ..⟩
  | write =>
    rw [List.append_assoc]
    exact .inl (advance_memWrite_ctl ..)
  | readData =>
    rw [List.append_assoc]
    exact .inl (advance_memRead_ctl ..)
  | readBusy => exact .inl (advance_memRead_ctl ..)

/-- The opcode of INIT is INIT's alone (30_encoding.md R112). -/
theorem eq_init_of_opcode {i : Instr} (h : i.opcode = 0x01#5) : i = .init i.operandA i.operandB := by
  have hi : instrOfOp i.opcode i.operandA i.operandB = i := instrOfOp_of_fields i
  rw [h] at hi
  exact hi.symm

/-- An edge of a running request keeps READY, and comes to READY with the response alone. -/
theorem runEdge_ctl {s : State} (h : Inv s) (hr : s.running = true) :
    (s.ctl = .ready → s.runEdge.ctl = .ready)
      ∧ (s.ctl ≠ .ready → s.runEdge.ctl = .ready → s.runEdge.rspValid = true) := by
  by_cases hc : 1 < s.cnt
  · rw [runEdge_waiting hc]
    exact ⟨id, fun hne hready => absurd hready hne⟩
  · obtain ⟨-, -, hpos⟩ := h.inOrder hr
    obtain ⟨hkeeps, hcomes, -⟩ := advance_ctl s.pos (s.hostMoves false) hpos
    rw [runEdge_phaseEnd hc]
    exact ⟨fun hready => (hkeeps hready).1, hcomes⟩

/-- The ways of `ctl` over an edge without reset (42_controller_init.md R231, R232). -/
theorem step_ctl {s t : State} (h : Inv s) (hrst : s.port.rst = false) (hs : step s = .next t) :
    (s.ctl = .ready → t.ctl = .ready) ∧ (s.ctl ≠ .ready → t.ctl = .ready → t.rspValid = true)
      ∧ (s.ctl = .uninit → t.ctl ≠ .uninit →
          s.running = false ∧ s.port.reqValid = true ∧ ∃ a b, decodeReq s.port.req = .init a b) := by
  cases Edge.of_step hs with
  | reset hr => simp [hrst] at hr
  | run _ hrun =>
    obtain ⟨hkeeps, hcomes⟩ := runEdge_ctl h hrun
    exact ⟨hkeeps, hcomes, fun hu => absurd hu (h.started hrun)⟩
  | accept _ hfree hv hx =>
    obtain hsame | ⟨hop, hfresh, hon⟩ := (Accepts.of_exec hx).ctl
    · replace hsame : t.ctl = s.ctl := hsame
      rw [hsame]
      exact ⟨id, fun hne hready => absurd hready hne, absurd⟩
    · replace hfresh : s.ctl ≠ .ready := hfresh
      exact ⟨fun hready => absurd hready hfresh, fun _ hready => by simp [hon] at hready,
        fun _ _ => ⟨hfree, hv, _, _, eq_init_of_opcode hop⟩⟩
  | idle => exact ⟨id, fun hne hready => absurd hready hne, absurd⟩

/-! ## The host beside a running request -/

/-- An edge of a running request under another host: the host's pins alone differ. -/
theorem runEdge_hostPins (s : State) (port : HostPins) (host : List HostPins) :
    ∃ port' host', State.runEdge { s with port := port, host := host }
      = { s.runEdge with port := port', host := host' } := by
  set other : State := { s with port := port, host := host } with hother
  by_cases hc : 1 < s.cnt
  · rw [runEdge_waiting hc, runEdge_waiting (s := other) hc]
    exact ⟨_, _, rfl⟩
  · rw [runEdge_phaseEnd hc, runEdge_phaseEnd (s := other) hc]
    have hput := advance_put_request s.pos (s.hostMoves false) s.op s.a s.b (other.nextPort false) other.host.tail
    have hsame := advance_same s.pos (s.hostMoves false)
    refine ⟨other.nextPort false, other.host.tail, hput.trans ?_⟩
    rw [← State.hostMoves_op s false, ← State.hostMoves_a s false, ← State.hostMoves_b s false,
      ← hsame.op, ← hsame.a, ← hsame.b]

/-- While a request runs and `rst` is low, the host's other pins do not reach the step. -/
theorem step_hostPins {s t : State} {port : HostPins} (host : List HostPins) (hr : s.running = true)
    (hrst : s.port.rst = false) (hport : port.rst = false) (hs : step s = .next t) :
    ∃ port' host', step { s with port := port, host := host } = .next { t with port := port', host := host' } := by
  have hl : s.cfg.legal = true := by
    by_contra hl
    simp [step_of_not_legal hl] at hs
  cases Edge.of_step hs with
  | reset h => simp [hrst] at h
  | run _ _ hp =>
    obtain ⟨port', host', hedge⟩ := runEdge_hostPins s port host
    exact ⟨port', host', hedge ▸ step_runEdge (s := { s with port := port, host := host }) hl hport hr hp⟩
  | accept _ hf => simp [hr] at hf
  | idle _ hf => simp [hr] at hf

/-! ## The device where RW is not wired -/

/-- An edge of a running request takes nothing from the device where RW is not wired (42_controller_init.md R233). -/
theorem runEdge_withDevice {s : State} (h : Inv s) (hw : s.cfg.rwWired = false) (hr : s.running = true)
    (device : List Byte) (draws : Nat) :
    (s.withDevice device draws).runEdge = s.runEdge.withDevice device draws := by
  by_cases hc : 1 < s.cnt
  · rw [runEdge_waiting hc]
    exact runEdge_waiting (s := s.withDevice device draws) hc
  · obtain ⟨-, -, hpos⟩ := h.inOrder hr
    rw [runEdge_phaseEnd hc]
    exact (runEdge_phaseEnd (s := s.withDevice device draws) hc).trans
      (advance_device s.pos (s.hostMoves false) device draws hw hpos)

theorem step_withDevice {s t : State} (h : Inv s) (hw : s.cfg.rwWired = false) (device : List Byte) (draws : Nat)
    (hs : step s = .next t) : step (s.withDevice device draws) = .next (t.withDevice device draws) := by
  have hl := h.legal
  cases Edge.of_step hs with
  | reset hrst => exact step_resetEdge hl hrst
  | run hrst hr hp =>
    rw [← runEdge_withDevice h hw hr]
    exact step_runEdge hl hrst hr hp
  | accept hrst hr hreq hx =>
    exact (step_accept (s := s.withDevice device draws) hl hrst hr hreq).trans (exec_withDevice hx)
  | idle hrst hr hreq => exact step_idleEdge hl hrst hr hreq

end Sys2Proof.Machine
end

section
/-! SUPPORT. INIT from a state at rest in UNINIT: that it runs, as what it is served, and the schedule of `ctl`
(42_controller_init.md R220 to R231, R234). -/

namespace Sys2Proof.Machine

/-! ## The function-set byte -/

/-- The fields of the function-set byte are those of 00_scope.md R10. -/
theorem fnOfByte_functionSetByte (c : Config) :
    fnOfByte c.functionSetByte = BitVec.ofBool c.dl ++ BitVec.ofBool c.nl ++ BitVec.ofBool c.ff := by
  unfold Config.functionSetByte
  cases c.dl <;> cases c.nl <;> cases c.ff <;> rfl

/-- With one line the font is the configured one (00_scope.md R10). -/
theorem oneLine_flags {c : Config} (h : c.lines = 1) : c.nl = false ∧ c.ff = c.font5x10 := by
  simp [Config.nl, Config.ff, h]

/-- With more lines there is no 5x10 font (00_scope.md R10). -/
theorem moreLines_flags {c : Config} (hl : c.legal = true) (h : c.lines ≠ 1) : c.nl = true ∧ c.ff = false := by
  obtain ⟨hlines, -⟩ := (legal_iff c).mp hl
  simp only [Config.nl, Config.ff, h, decide_false, Bool.and_false, and_true, decide_eq_true_eq]
  omega

/-! ## INIT runs -/

theorem AtRest.accepted {s : State} (h : AtRest s) (op : BitVec 5) (a b : Byte) : Accepted s (s.accepted op a b) :=
  h.accepts rfl rfl rfl rfl rfl rfl rfl rfl rfl rfl

section
variable {s : State} (h : AtRest s) (hu : s.ctl = .uninit) (a b : Byte)
include h hu

/-- In UNINIT every check lets INIT run (60_exceptions.md R301): `fault` is set only in READY. -/
theorem AtRest.exec_init :
    exec (.init a b) s = .next (State.advance (initItems s.cfg) (s.accepted 0x01#5 a b)) := by
  have hready : ¬ s.ctl = .ready := by simp [hu]
  have hfault : ¬ s.fault = true := mt h.inv.faultReady hready
  exact congrArg Host.Outcome.next ((if_neg hfault).trans (if_neg hready))

/-- INIT is served as its course says. -/
theorem AtRest.init_serves {c : Course} (hcourse : course (initItems s.cfg) (s.accepted 0x01#5 a b) = c)
    (hv : c.last.rspValid = true) : Serves (.init a b) s c.cycles (c.last.waited c.cycles) c.bus := by
  subst hcourse
  have ha := h.accepted 0x01#5 a b
  exact serves_of_course (h.exec_init hu a b) ha.going (canRun_init _ _ ha.pollMax) (pulse_low (advance_init_e ..)) hv

theorem AtRest.init_runs_unwired (hw : s.cfg.rwWired = false) :
    InitRunsUnwired (.init a b) s (s.accepted 0x01#5 a b) :=
  h.init_serves hu a b (course_init_unwired _ (h.accepted 0x01#5 a b).pins hw) rfl

theorem AtRest.init_runs_wired (hw : s.cfg.rwWired = true) :
    InitRunsWired (.init a b) s (s.accepted 0x01#5 a b) := by
  have ha := h.accepted 0x01#5 a b
  obtain ⟨n₁, n₂, n₃, n₄, e₁, e₂, e₃, e₄, hcourse⟩ := course_init_wired _ ha.pins hw ha.pollMax
  exact ⟨n₁, n₂, n₃, n₄, ⟨e₁, e₂, e₃, e₄⟩, h.init_serves hu a b hcourse rfl⟩

end

/-! ## READY and not before -/

/-- What every step keeps, an accepting edge at rest keeps. -/
theorem AtRest.exec_keeps {i : Instr} {s u : State} (h : AtRest s) (hx : exec i s = .next u) : Inv u ∧ NoReset u := by
  obtain ⟨-, hport, hhost⟩ := exec_host i s u hx
  exact ⟨exec_inv h.inv h.free hx, by rw [NoReset, hport, hhost]; exact h.noReset⟩

/-- The last edge of a run. -/
theorem step_of_run_succ {m : Nat} {u w v : State} (hw : run m u = .next w) (hv : run (m + 1) u = .next v) :
    step w = .next v := by
  rw [run_add m 1 u w hw, run] at hv
  split at hv
  · next hs => rw [hs]; exact hv
  · cases hv
  · cases hv

/-- A request whose accepting edge leaves `ctl` outside READY comes to READY with its response and not before: `ctl`
becomes READY only where a response is raised (`step_ctl`), and before its response the request still runs. -/
theorem AtRest.not_ready_before {i : Instr} {s u t : State} {T : Nat} {bus : List Transfer} (h : AtRest s)
    (hs : Serves i s T t bus) (hx : exec i s = .next u) (hu : u.ctl ≠ .ready) (m : Nat) (v : State) (hm : m < T)
    (hv : run m u = .next v) : v.ctl ≠ .ready := by
  obtain ⟨u', hx', -, -, hgoes, -⟩ := hs
  obtain rfl : u = u' := Host.Outcome.next.inj (hx.symm.trans hx')
  induction m generalizing v with
  | zero => cases hv; exact hu
  | succ m ih =>
    obtain ⟨w, hw, -⟩ := hgoes m (by omega)
    obtain ⟨v', hv', hrun⟩ := hgoes (m + 1) hm
    obtain rfl : v = v' := Host.Outcome.next.inj (hv.symm.trans hv')
    obtain ⟨hinv, hn⟩ := h.exec_keeps hx
    have hrst : w.port.rst = false := (run_keeps (fun _ _ => NoReset.step) m hn hw).1
    obtain ⟨-, hcomes, -⟩ := step_ctl (run_keeps (fun _ _ => step_inv) m hinv hw) hrst (step_of_run_succ hw hv)
    intro hready
    have hraised := hcomes (ih w (by omega) hw) hready
    simp [State.running, hraised] at hrun

/-- The registers INIT leaves, with RW and without (42_controller_init.md R231). -/
structure InitLeaves (c : Config) (t : State) : Prop where
  ctl : t.ctl = .ready
  fn : t.fn = fnOfByte c.functionSetByte
  dctl : t.dctl = 0b100#3
  entry : t.entry = 0b10#2
  dir : t.dir = if c.rwWired then .read else .write
  e : t.e = false
  rs : t.rs = false

theorem InitLeaves.finished {c : Config} {s : State} (h : InitLeaves c s) (v : Byte) (T : Nat) :
    InitLeaves c (s.finished v T) := by
  rw [State.finished, waited_eq]
  exact ⟨h.ctl, h.fn, h.dctl, h.entry, h.dir, h.e, h.rs⟩

theorem AtRest.init_leaves {s : State} (h : AtRest s) (hu : s.ctl = .uninit) (a b : Byte) :
    ∃ T t bus, Serves (.init a b) s T t bus ∧ InitLeaves s.cfg t := by
  cases hw : s.cfg.rwWired with
  | false =>
    exact ⟨_, _, _, h.init_runs_unwired hu a b hw,
      .finished ⟨rfl, rfl, rfl, rfl, by rw [hw]; rfl, rfl, rfl⟩ _ _⟩
  | true =>
    obtain ⟨n₁, n₂, n₃, n₄, -, hserves⟩ := h.init_runs_wired hu a b hw
    exact ⟨_, _, _, hserves, .finished ⟨rfl, rfl, rfl, rfl, by rw [hw]; rfl, rfl, rfl⟩ _ _⟩

/-! ## The schedule -/

/-- The completion wait after the command byte `v` lasts `d` cycles and takes the reads from `k` up to `k'`: no cycle or
the long delay without RW, a poll with RW (41_register_access.md R188). -/
def WaitLasts (s : State) (v : Byte) (k k' d : Nat) : Prop :=
  (s.cfg.rwWired = false → k' = k ∧ d = if v.isLong then s.cfg.cycles s.cfg.tLongNs else 0)
    ∧ (s.cfg.rwWired = true → ∃ n, PollEnds s k n ∧ k' = k + n + 1 ∧ d = (n + 1) * s.cfg.readLen)

/-- A command: `ctl` stands for its write and its completion wait. -/
theorem stays_command {s t : State} {k : Nat} (h : Between s t k) (hm : 1 ≤ s.cfg.pollMax) (v : Byte) :
    ∃ k' d w, WaitLasts s v k k' d ∧ Between s w k' ∧ ∀ K, K ≠ [] →
      Stays t.ctl (s.cfg.writeLen + d) (State.advance (commandItems s.cfg v ++ K) t) (State.advance K w) := by
  cases hw : s.cfg.rwWired with
  | false =>
    obtain ⟨w, hb, hstays⟩ := stays_command_unwired h hw v
    exact ⟨k, _, w, ⟨fun _ => ⟨rfl, rfl⟩, by simp [hw]⟩, hb, hstays⟩
  | true =>
    obtain ⟨n, w, hn, hb, hstays⟩ := stays_command_wired h hw hm v
    exact ⟨k + n + 1, _, w, ⟨by simp [hw], fun _ => ⟨n, hn, rfl, rfl⟩⟩, hb, hstays⟩

/-- INIT goes through its states in order, each for its transfers and its own wait (42_controller_init.md R220). -/
theorem schedule_init {s u : State} (h : Between s u 0) (hm : 1 ≤ s.cfg.pollMax) :
    ∃ k₁ k₂ k₃ k₄ d₁ d₂ d₃ d₄, WaitLasts s s.cfg.functionSetByte 0 k₁ d₁ ∧ WaitLasts s 0x0C#8 k₁ k₂ d₂
      ∧ WaitLasts s 0x01#8 k₂ k₃ d₃ ∧ WaitLasts s 0x06#8 k₃ k₄ d₄
      ∧ Schedule (State.advance (initItems s.cfg) u) (Config.initStates s.cfg d₁ d₂ d₃ d₄) := by
  obtain ⟨w₀, b₀, hnegotiation⟩ := schedule_negotiation h
  obtain ⟨k₁, d₁, w₁, l₁, b₁, s₁⟩ :=
    stays_command ((b₀.act (.ctl .functionSet)).act (.fn (fnOfByte s.cfg.functionSetByte))) hm s.cfg.functionSetByte
  obtain ⟨k₂, d₂, w₂, l₂, b₂, s₂⟩ := stays_command ((b₁.act (.ctl .displayOn)).act (.dctl 0b100#3)) hm 0x0C#8
  obtain ⟨k₃, d₃, w₃, l₃, b₃, s₃⟩ := stays_command (b₂.act (.ctl .clearDisplay)) hm 0x01#8
  obtain ⟨k₄, d₄, w₄, l₄, -, s₄⟩ := stays_command ((b₃.act (.ctl .entryModeSet)).act (.entry 0b10#2)) hm 0x06#8
  refine ⟨k₁, k₂, k₃, k₄, d₁, d₂, d₃, d₄, l₁, l₂, l₃, l₄, ?_⟩
  rw [initItems_steps]
  exact hnegotiation _ _ (by simp) (.cons (s₁ _ (by simp)) (.cons (s₂ _ (by simp)) (.cons (s₃ _ (by simp))
    (.cons (s₄ _ (by simp)) (.nil _)))))

/-- In every cycle of INIT the schedule gives the state of the controller. -/
theorem Schedule.ctlAt_init {c : Config} {u : State} {w₁ w₂ w₃ w₄ m : Nat}
    (h : Schedule u (Config.initStates c w₁ w₂ w₃ w₄))
    (hm : m < c.negotiationLen + 4 * c.writeLen + (w₁ + w₂ + w₃ + w₄)) :
    ∃ v, run m u = .next v ∧ ctlAt (Config.initStates c w₁ w₂ w₃ w₄) m = some v.ctl := by
  obtain ⟨x, hx⟩ := ctlAt_some (Config.initStates c w₁ w₂ w₃ w₄) m (by rwa [initStates_length])
  obtain ⟨v, hv, hctl⟩ := h m x hx
  exact ⟨v, hv, hctl ▸ hx⟩

end Sys2Proof.Machine
end

section
/-! PROOFS. The obligations of 42_controller_init.md: the controller's path, what cannot disturb it, and INIT. -/

namespace Sys2Proof.Proofs

open Sys2Proof.Machine

/-- Settles O21, edge by edge: a running request, an accepting edge, an idle edge, and reset. -/
theorem controllerPath : Obligations.ControllerPath := by
  refine ⟨fun s t => step_ctl, fun s t hrst hs => ?_⟩
  rw [step_rst hrst hs]
  rfl

/-- Settles O26. -/
theorem hostCannotDisturb : Obligations.HostCannotDisturb :=
  fun _ _ _ host hr hrst hport => step_hostPins host hr hrst hport

/-- Settles O27, edge by edge: only an edge of a running request reads the device, and without RW it holds no sample. -/
theorem deviceCannotReachWithoutRW : Obligations.DeviceCannotReachWithoutRW :=
  fun _ _ device draws h hw => step_withDevice h hw device draws

/-- Settles O33: INIT's course without RW (`course_init_unwired`) is what the machine does. -/
theorem initWithoutRW : Obligations.InitWithoutRW := fun a b _ h hu => h.init_runs_unwired hu a b

/-- Settles O34: INIT's course with RW (`course_init_wired`) is what the machine does. -/
theorem initWithRW : Obligations.InitWithRW := fun a b _ h hu => h.init_runs_wired hu a b

/-- Settles O35: `schedule_init`, with the waits of a board without RW and of one with it. -/
theorem initStatesInOrder : Obligations.InitStatesInOrder := by
  intro a b s h hu
  have ha := h.accepted 0x01#5 a b
  have hbetween : Between s (s.accepted 0x01#5 a b) 0 := ⟨ha.going, ha.pins, ⟨rfl, rfl, rfl⟩⟩
  obtain ⟨k₁, k₂, k₃, k₄, d₁, d₂, d₃, d₄, l₁, l₂, l₃, l₄, hschedule⟩ := schedule_init hbetween ha.pollMax
  refine ⟨_, h.exec_init hu a b, fun hw => ?_, fun hw => ?_⟩
  · obtain ⟨-, rfl⟩ := l₁.1 hw
    obtain ⟨-, rfl⟩ := l₂.1 hw
    obtain ⟨-, rfl⟩ := l₃.1 hw
    obtain ⟨-, rfl⟩ := l₄.1 hw
    rw [fs_not_long] at hschedule
    intro long m hm
    exact hschedule.ctlAt_init (w₁ := 0) (w₂ := 0) (w₃ := long) (w₄ := 0) (by omega)
  · obtain ⟨n₁, e₁, rfl, rfl⟩ := l₁.2 hw
    obtain ⟨n₂, e₂, rfl, rfl⟩ := l₂.2 hw
    obtain ⟨n₃, e₃, rfl, rfl⟩ := l₃.2 hw
    obtain ⟨n₄, e₄, -, rfl⟩ := l₄.2 hw
    rw [Nat.zero_add] at e₂ e₃ e₄
    exact ⟨n₁, n₂, n₃, n₄, ⟨e₁, e₂, e₃, e₄⟩, fun m hm => hschedule.ctlAt_init hm⟩

/-- Settles O36: INIT leaves POWER_ON at its accepting edge, so READY comes with the response alone. -/
theorem initLeavesReady : Obligations.InitLeavesReady := by
  intro a b s h hu
  obtain ⟨T, t, bus, hserves, hleaves⟩ := h.init_leaves hu a b
  refine ⟨T, t, bus, hserves, hleaves.ctl, by simp [State.initialized, hleaves.ctl], ?_, hleaves.dctl, hleaves.entry,
    hleaves.dir, hleaves.e, hleaves.rs, fun m u v hm hx => ?_⟩
  · rw [hleaves.fn, fnOfByte_functionSetByte, dl_eq_eight]
    rfl
  · obtain rfl : _ = u := Host.Outcome.next.inj ((h.exec_init hu a b).symm.trans hx)
    exact h.not_ready_before hserves hx (by simp [advance_init_ctl]) m v hm

/-- Settles O37: the three bits by the bus width, the lines and the font. -/
theorem functionSetByteTable : Obligations.FunctionSetByteTable := by
  intro c hl
  have hone := oneLine_flags (c := c)
  have hmore := moreLines_flags hl
  refine ⟨fun hb h1 hf => ?_, fun hb h1 hf => ?_, fun hb h1 => ?_, fun hb h1 hf => ?_, fun hb h1 hf => ?_,
    fun hb h1 => ?_⟩
  case refine_3 | refine_6 =>
    simp only [Config.functionSetByte, dl_eq_eight, hb, hmore h1]
    rfl
  all_goals
    simp only [Config.functionSetByte, dl_eq_eight, hb, hone h1, hf]
    rfl

end Sys2Proof.Proofs
end

section
/-! SUPPORT. The command requests in closed form (43_command_api.md R250 to R264): what every `CmdOp` runs once past the
checks, the bytes and the mirrors of the requests bit by bit, and the byte GET_STATUS answers (R267). -/

namespace Sys2Proof.Machine

/-! ## The mirror fields, bit by bit -/

theorem withCursor_append : ∀ (on : Bool) (d : BitVec 3),
    withCursor d on = BitVec.ofBool (d.getLsbD 2) ++ BitVec.ofBool on ++ BitVec.ofBool (d.getLsbD 0) := by decide

theorem withBlink_append : ∀ (on : Bool) (d : BitVec 3),
    withBlink d on = BitVec.ofBool (d.getLsbD 2) ++ BitVec.ofBool (d.getLsbD 1) ++ BitVec.ofBool on := by decide

theorem withIncrement_append : ∀ (on : Bool) (e : BitVec 2),
    withIncrement e on = BitVec.ofBool on ++ BitVec.ofBool (e.getLsbD 0) := by decide

theorem withShift_append : ∀ (on : Bool) (e : BitVec 2),
    withShift e on = BitVec.ofBool (e.getLsbD 1) ++ BitVec.ofBool on := by decide

/-! ## The bytes sent (30_encoding.md R121) -/

theorem displayControlByte_append : ∀ d : BitVec 3, displayControlByte d = 0b00001#5 ++ d := by decide

theorem displayControlByte_not_long : ∀ d : BitVec 3, (displayControlByte d).isLong = false := by decide

theorem entryModeByte_append : ∀ e : BitVec 2, entryModeByte e = 0b000001#6 ++ e := by decide

theorem entryModeByte_not_long : ∀ e : BitVec 2, (entryModeByte e).isLong = false := by decide

theorem cgramSlotByte_eq : ∀ a : Byte, cgramSlotByte a = BitVec.ofNat 8 (64 + a.toNat % 8 * 8) := by decide

theorem cgramSlotByte_not_long : ∀ a : Byte, (cgramSlotByte a).isLong = false := by decide

theorem ddramAddress_eq : ∀ v : Byte, 0x80#8 ||| v = BitVec.ofNat 8 (128 + v.toNat % 128) := by decide

theorem ddramAddress_not_long : ∀ v : Byte, Byte.isLong (0x80#8 ||| v) = false := by decide

/-- `ROWOFF` as a byte and as a number (10_state.md R40). -/
theorem rowOff_toNat (c : Config) (row : Nat) : (c.rowOff row).toNat = rowBase c row := by
  unfold Config.rowOff rowBase
  split <;> simp

/-- SET_CURSOR's 8-bit sum under the command bit, in numbers (43_command_api.md R263). -/
theorem setCursorByte_eq (c : Config) (col row : Byte) :
    c.setCursorByte col row = BitVec.ofNat 8 (128 + (col.toNat + rowBase c (c.clampRow row)) % 256 % 128) := by
  rw [Config.setCursorByte, ddramAddress_eq, BitVec.toNat_add, rowOff_toNat]

theorem setCursorByte_not_long (c : Config) (col row : Byte) : (c.setCursorByte col row).isLong = false :=
  ddramAddress_not_long _

/-! ## `CmdOp` in READY -/

section

variable {i : Instr} {s : State} {op : BitVec 5} {a b : Byte} {long : Bool}

/-- `CmdOp(mutation, v)` (43_command_api.md R250): in READY and not faulted the mutation `g`, which leaves the environment
and the pins alone, is followed by one command write of the byte `v` and its completion wait. -/
theorem AtRestReady.command_runs (h : AtRestReady s) {g : State → State} {v : State → Byte}
    (hx : exec i s = .next ((s.latch op a b).whenReady fun l => (g l).runCommand (v l)))
    (ha : Accepted s (g (s.accepted op a b))) (hlong : (v (s.accepted op a b)).isLong = long) :
    WriteRuns i s (g (s.accepted op a b)) false (v (s.accepted op a b)) long :=
  hlong ▸ write_runs ha (h.exec_run hx)

/-- A command that changes no mirror (43_command_api.md R251, R252, R257, R258, R263, R264). -/
theorem AtRestReady.plain_runs (h : AtRestReady s) {v : Byte}
    (hx : exec i s = .next ((s.latch op a b).whenReady fun l => l.runCommand v)) (hlong : v.isLong = long) :
    WriteRuns i s (s.accepted op a b) false v long :=
  h.command_runs (g := id) (v := fun _ => v) hx (h.accepted op a b) hlong

/-- A command that writes `dctl` and sends `0x08 | dctl'` (43_command_api.md R253 to R256). -/
theorem AtRestReady.dctl_runs (h : AtRestReady s) (d : BitVec 3 → BitVec 3)
    (hx : exec i s = .next ((s.latch op a b).whenReady fun l =>
      { l with dctl := d l.dctl }.runCommand (displayControlByte (d l.dctl)))) :
    WriteRuns i s { s.accepted op a b with dctl := d s.dctl } false (0b00001#5 ++ d s.dctl) false := by
  rw [← displayControlByte_append]
  exact h.command_runs (g := fun l => { l with dctl := d l.dctl }) hx
    (h.rest.accepts rfl rfl rfl rfl rfl rfl rfl rfl rfl rfl) (displayControlByte_not_long _)

/-- A command that writes `entry` and sends `0x04 | entry'` (43_command_api.md R259 to R262). -/
theorem AtRestReady.entry_runs (h : AtRestReady s) (e : BitVec 2 → BitVec 2)
    (hx : exec i s = .next ((s.latch op a b).whenReady fun l =>
      { l with entry := e l.entry }.runCommand (entryModeByte (e l.entry)))) :
    WriteRuns i s { s.accepted op a b with entry := e s.entry } false (0b000001#6 ++ e s.entry) false := by
  rw [← entryModeByte_append]
  exact h.command_runs (g := fun l => { l with entry := e l.entry }) hx
    (h.rest.accepts rfl rfl rfl rfl rfl rfl rfl rfl rfl rfl) (entryModeByte_not_long _)

end

/-! ## GET_STATUS's byte -/

/-- Five flags in their places are their concatenation. -/
theorem flags_append : ∀ x₄ x₃ x₂ x₁ x₀ : Bool,
    bitAt x₄ 4 ||| bitAt x₃ 3 ||| bitAt x₂ 2 ||| bitAt x₁ 1 ||| bitAt x₀ 0
      = 0b000#3 ++ BitVec.ofBool x₄ ++ BitVec.ofBool x₃ ++ BitVec.ofBool x₂ ++ BitVec.ofBool x₁ ++ BitVec.ofBool x₀ := by
  decide

theorem statusByte_append (s : State) :
    s.statusByte = 0b000#3 ++ BitVec.ofBool (decide (s.dir = .read)) ++ BitVec.ofBool s.cfg.rwWired
      ++ BitVec.ofBool (decide (s.cfg.busWidth = .eight)) ++ BitVec.ofBool s.fault
      ++ BitVec.ofBool (decide (s.ctl = .ready)) := by
  rw [← dl_eq_eight]
  exact flags_append ..

theorem setWidth_three_append : ∀ x : BitVec 3, x.setWidth 8 = 0b00000#5 ++ x := by decide

theorem setWidth_two_append : ∀ x : BitVec 2, x.setWidth 8 = 0b000000#6 ++ x := by decide

theorem twoBits_cases : ∀ x : BitVec 2, x = 0#2 ∨ x = 1#2 ∨ x = 2#2 ∨ x = 3#2 := by decide

/-- The answer of each selector (43_command_api.md R267). -/
theorem statusAnswer_eq (s : State) (sel : BitVec 2) :
    s.statusAnswer sel =
      if sel = 0#2 then s.statusByte
      else if sel = 1#2 then 0b00000#5 ++ s.fn
      else if sel = 2#2 then 0b00000#5 ++ s.dctl
      else 0b000000#6 ++ s.entry := by
  rw [← setWidth_three_append, ← setWidth_three_append, ← setWidth_two_append]
  obtain rfl | rfl | rfl | rfl := twoBits_cases sel <;> rfl

end Sys2Proof.Machine
end

section
/-! PROOFS. The obligations of 43_command_api.md: the fourteen commands and GET_STATUS. -/

namespace Sys2Proof.Proofs

open Sys2Proof.Machine

/-- Settles O38: `withCursor` and `withBlink` write the one bit, and the byte is the written mirror under the command's
bits. -/
theorem cursorAndBlink : Obligations.CursorAndBlink := by
  intro a b s h D C B runs
  refine ⟨?_, ?_, ?_, ?_⟩
  · exact withCursor_append true s.dctl ▸ h.dctl_runs (withCursor · true) rfl
  · exact withCursor_append false s.dctl ▸ h.dctl_runs (withCursor · false) rfl
  · exact withBlink_append true s.dctl ▸ h.dctl_runs (withBlink · true) rfl
  · exact withBlink_append false s.dctl ▸ h.dctl_runs (withBlink · false) rfl

/-- Settles O39: `withIncrement` and `withShift` write the one bit, and the byte is the written mirror under the command's
bits. -/
theorem entryAndAutoscroll : Obligations.EntryAndAutoscroll := by
  intro a b s h ID S runs
  refine ⟨?_, ?_, ?_, ?_⟩
  · exact withIncrement_append true s.entry ▸ h.entry_runs (withIncrement · true) rfl
  · exact withIncrement_append false s.entry ▸ h.entry_runs (withIncrement · false) rfl
  · exact withShift_append true s.entry ▸ h.entry_runs (withShift · true) rfl
  · exact withShift_append false s.entry ▸ h.entry_runs (withShift · false) rfl

/-- Settles O40: the two bytes with the long wait. -/
theorem homeAndClear : Obligations.HomeAndClear := fun _ _ _ h => ⟨h.plain_runs rfl rfl, h.plain_runs rfl rfl⟩

/-- Settles O41. -/
theorem scrolls : Obligations.Scrolls := fun _ _ _ h => ⟨h.plain_runs rfl rfl, h.plain_runs rfl rfl⟩

/-- Settles O42: the byte sent is `setCursorByte`, in numbers by `setCursorByte_eq`. -/
theorem setCursorSends : Obligations.SetCursorSends := by
  intro a b s h row
  have hw := h.plain_runs (i := .setCursor a b) (v := s.cfg.setCursorByte a b) rfl (setCursorByte_not_long ..)
  rwa [setCursorByte_eq] at hw

/-- Settles O43: the mask and the shift in numbers (`cgramSlotByte_eq`). -/
theorem cgramSlotSends : Obligations.CgramSlotSends := by
  intro a b s h
  rw [← cgramSlotByte_eq]
  exact h.plain_runs rfl (cgramSlotByte_not_long a)

/-- Settles O32: GET_STATUS makes no check, so the one thing to read off is its byte (`statusAnswer_eq`). -/
theorem getStatusAnswers : Obligations.GetStatusAnswers := by
  intro a b s sel d
  have hd : s.statusAnswer a.sel = d := by
    rw [statusAnswer_eq, statusByte_append]
    rfl
  rw [← hd]
  rfl

end Sys2Proof.Proofs
end

section
/-! SUPPORT. No state of the invariant is stuck (60_exceptions.md R300), and the checks at the accepting edge beside
`exec` (R301): `State.verdict` and every request's own checks come to the same decision (`exec_judged`). -/

namespace Sys2Proof.Machine

/-! ## Every state of the invariant has an edge -/

/-- A running request has something left to do, and every other edge needs nothing of the state. -/
theorem Inv.step_next {s : State} (h : Inv s) : ∃ t, step s = .next t := by
  have hl := h.legal
  cases hrst : s.port.rst with
  | true => exact ⟨_, step_resetEdge hl hrst⟩
  | false =>
    cases hr : s.running with
    | true => exact ⟨_, step_runEdge hl hrst hr (h.pos_ne_nil hr)⟩
    | false =>
      cases hv : s.port.reqValid with
      | true => rw [step_accept hl hrst hr hv]; exact exec_next ..
      | false => exact ⟨_, step_idleEdge hl hrst hr hv⟩

/-! ## A request and its verdict -/

/-- What the accepting edge of `i` makes of `s`, given the verdict of its checks: a rejection with their code, or else a
request under way or answered with OK, with `fault` as it was. -/
inductive Judged (i : Instr) (s : State) : Option (BitVec 3) → State → Prop where
  | rejected (code : BitVec 3) :
      Judged i s (some code) (State.rejected { s with fault := s.fault || decide (code = 2#3) } i.opcode i.operandA
        i.operandB code)
  | passed {t : State} (fault : t.fault = s.fault)
      (goes : s.rspValid = false → t.running = true ∨ (t.rspValid = true ∧ t.rspStatus = 0#3)) : Judged i s none t

section
variable {i : Instr} {s : State}

/-- Every code but ERR_CONFIG leaves `fault` alone (60_exceptions.md R300). -/
theorem Judged.raiseError (st : Status) (h : st.code ≠ 2#3) :
    Judged i s (some st.code) ((s.latched i).raiseError st) := by
  have hj := Judged.rejected (i := i) (s := s) st.code
  rwa [decide_eq_false h, Bool.or_false] at hj

/-- ERR_CONFIG sets `fault` (60_exceptions.md R303). -/
theorem Judged.raiseConfigError : Judged i s (some 2#3) (s.latched i).raiseConfigError := by
  have hj := Judged.rejected (i := i) (s := s) 2#3
  rwa [decide_eq_true rfl, Bool.or_true] at hj

/-- A check of the model beside the same check of R301. -/
theorem Judged.ite {p : Prop} [Decidable p] {v w : Option (BitVec 3)} {t u : State} (hv : Judged i s v t)
    (hw : Judged i s w u) : Judged i s (if p then v else w) (if p then t else u) := by
  split
  · exact hv
  · exact hw

/-- The checks every request but GET_STATUS, INIT and the reserved ones shares: faulted, then not initialized. -/
theorem Judged.whenReady {v : Option (BitVec 3)} {f : State → State} (hf : Judged i s v (f (s.latched i))) :
    Judged i s (if s.fault = true then some 3#3 else if s.ctl ≠ .ready then some 1#3 else v)
      ((s.latched i).whenReady f) :=
  .ite (.raiseError .errFaulted (by decide)) (.ite (.raiseError .errNotInit (by decide)) hf)

/-- A request answered at once (43_command_api.md R267, 41_register_access.md R199). -/
theorem Judged.answer (v : Byte) : Judged i s none ((s.latched i).start [.respond (.const v)]) :=
  .passed rfl fun _ => .inr ⟨rfl, rfl⟩

/-- A request that starts a phase sequence and is not answered at its accepting edge. -/
theorem Judged.start {items : List Item} {u : State} (same : SameRequest (s.latched i) u)
    (unanswered : (u.start items).rspValid = s.rspValid) : Judged i s none (u.start items) := by
  have hsame := same.trans (advance_same items u)
  refine .passed hsame.fault fun hv => .inl ?_
  rw [running_iff]
  exact ⟨hsame.busy, unanswered.trans hv⟩

theorem advance_memWrite_rspValid (c : Config) (rs : Bool) (v : Byte) (K : List Item) (s : State) :
    (State.advance (memWrite c rs v ++ K) s).rspValid = s.rspValid := by
  unfold memWrite writeXfer
  cases c.busWidth <;> rfl

theorem advance_memRead_rspValid (c : Config) (rs : Bool) (K : List Item) (s : State) :
    (State.advance (memRead c rs ++ K) s).rspValid = s.rspValid := by
  unfold memRead readXfer
  cases c.busWidth <;> rfl

theorem latched_same (i : Instr) (s : State) : SameRequest (s.latched i) (s.latched i) := by constructor <;> rfl

/-- A request that begins with a register write, whatever mirrors it writes before. -/
theorem Judged.write {u : State} (same : SameRequest (s.latched i) u) (hu : u.rspValid = s.rspValid) (c : Config)
    (rs : Bool) (v : Byte) (wait K : List Item) :
    Judged i s none (u.start ((memWrite c rs v ++ wait) ++ K)) := by
  rw [List.append_assoc]
  exact .start same ((advance_memWrite_rspValid ..).trans hu)

/-- A request that begins with a register read. -/
theorem Judged.read (c : Config) (rs : Bool) (K : List Item) :
    Judged i s none ((s.latched i).start (memRead c rs ++ K)) :=
  .start (latched_same i s) (advance_memRead_rspValid ..)

/-! ## The verdict by opcode -/

theorem verdict_reserved (h : 0x15 ≤ i.opcode.toNat) : s.verdict i = some 4#3 := if_pos h

theorem verdict_init (h : i.opcode.toNat = 0x01) :
    s.verdict i = if s.fault = true then some 3#3 else if s.ctl = .ready then some 5#3 else none := by
  simp [State.verdict, h]

/-- What R301 checks in READY: the requests that read, and WRITE_CMD. -/
def State.readyVerdict (s : State) (i : Instr) : Option (BitVec 3) :=
  if (i.opcode.toNat = 0x04 ∨ i.opcode.toNat = 0x05) ∧ s.cfg.rwWired = false then some 2#3
  else if i.opcode.toNat = 0x02 ∧ i.operandA.extractLsb' 5 3 = 0b001#3 ∧ i.operandA.getLsbD 4 ≠ s.cfg.dl then some 4#3
  else none

/-- The requests with the common checks are those of the opcodes 0x02 to 0x14. -/
theorem verdict_common (hop : 0x02 ≤ i.opcode.toNat ∧ i.opcode.toNat ≤ 0x14) :
    s.verdict i = if s.fault = true then some 3#3 else if s.ctl ≠ .ready then some 1#3 else s.readyVerdict i := by
  have h1 : ¬ 0x15 ≤ i.opcode.toNat := by omega
  have h2 : ¬ i.opcode.toNat = 0x00 := by omega
  have h3 : ¬ i.opcode.toNat = 0x01 := by omega
  simp only [State.verdict, State.readyVerdict, h1, h2, h3, if_false, false_and]

/-- Only the two reads and WRITE_CMD have a check of their own in READY. -/
theorem readyVerdict_none (hread : i.opcode.toNat ≠ 0x04 ∧ i.opcode.toNat ≠ 0x05) (hcmd : i.opcode.toNat ≠ 0x02) :
    s.readyVerdict i = none := by
  simp [State.readyVerdict, hread, hcmd]

/-- A read is rejected exactly where RW is not wired (60_exceptions.md R303). -/
theorem Judged.whenWired {t : State} (hop : i.opcode.toNat = 0x04 ∨ i.opcode.toNat = 0x05) (ht : Judged i s none t) :
    Judged i s (s.readyVerdict i) (if s.cfg.rwWired = true then t else (s.latched i).raiseConfigError) := by
  cases hw : s.cfg.rwWired with
  | true =>
    have hcmd : i.opcode.toNat ≠ 0x02 := by omega
    simpa [State.readyVerdict, hw, hcmd] using ht
  | false => simpa [State.readyVerdict, hw, hop] using Judged.raiseConfigError

/-- WRITE_CMD's own check: a function set of the other bus width (41_register_access.md R195). -/
theorem Judged.rawCommand {v : Byte} (hop : i.opcode.toNat = 0x02) (hv : i.operandA = v) :
    Judged i s (s.readyVerdict i)
      (if (v.isFunctionSet && (v.dlBit != s.cfg.dl)) = true then (s.latched i).raiseError .errIllegal
        else ((s.latched i).mirrorCommand v).runCommand v) := by
  have hverdict : s.readyVerdict i
      = if v.extractLsb' 5 3 = 0b001#3 ∧ v.getLsbD 4 ≠ s.cfg.dl then some 4#3 else none := by
    simp [State.readyVerdict, hop, hv]
  rw [hverdict, changesWidth_eq, ← dl_eq_eight, mirrorCommand_eq]
  simp only [decide_eq_true_eq]
  exact .ite (.raiseError .errIllegal (by decide)) (.write (withMirrors_same ..) rfl ..)

theorem Judged.common {t : State → State} (hop : 0x02 ≤ i.opcode.toNat ∧ i.opcode.toNat ≤ 0x14)
    (h : Judged i s (s.readyVerdict i) (t (s.latched i))) : Judged i s (s.verdict i) ((s.latched i).whenReady t) := by
  rw [verdict_common hop]
  exact .whenReady h

/-- A command: in READY nothing is left to check, and its byte is written with its mirrors set before. -/
theorem Judged.command {m : State → Mirrors} {v : State → Byte}
    (hop : 0x07 ≤ i.opcode.toNat ∧ i.opcode.toNat ≤ 0x14) :
    Judged i s (s.verdict i) ((s.latched i).whenReady fun l => (l.withMirrors (m l)).runCommand (v l)) := by
  refine .common ⟨by omega, hop.2⟩ ?_
  rw [readyVerdict_none (by omega) (by omega)]
  exact .write (withMirrors_same ..) rfl ..

theorem Judged.plainCommand {v : State → Byte} (hop : 0x07 ≤ i.opcode.toNat ∧ i.opcode.toNat ≤ 0x14) :
    Judged i s (s.verdict i) ((s.latched i).whenReady fun l => l.runCommand (v l)) :=
  .command (m := State.mirrors) hop

theorem Judged.dctlCommand {d : State → BitVec 3} {v : State → Byte}
    (hop : 0x07 ≤ i.opcode.toNat ∧ i.opcode.toNat ≤ 0x14) :
    Judged i s (s.verdict i) ((s.latched i).whenReady fun l => State.runCommand { l with dctl := d l } (v l)) :=
  .command (m := fun l => { l.mirrors with dctl := d l }) hop

theorem Judged.entryCommand {e : State → BitVec 2} {v : State → Byte}
    (hop : 0x07 ≤ i.opcode.toNat ∧ i.opcode.toNat ≤ 0x14) :
    Judged i s (s.verdict i) ((s.latched i).whenReady fun l => State.runCommand { l with entry := e l } (v l)) :=
  .command (m := fun l => { l.mirrors with entry := e l }) hop

theorem Judged.reserved (h : 0x15 ≤ i.opcode.toNat) :
    Judged i s (s.verdict i) ((s.latched i).raiseError .errIllegal) := by
  rw [verdict_reserved h]
  exact .raiseError .errIllegal (by decide)

end

/-- Every request at every accepting edge is judged as R301 says. -/
theorem exec_judged (i : Instr) (s : State) : ∃ t, exec i s = .next t ∧ Judged i s (s.verdict i) t := by
  cases i <;> refine ⟨_, rfl, ?_⟩
  case getStatus a b => exact .answer _
  case init a b =>
    rw [verdict_init rfl]
    exact .ite (.raiseError .errFaulted (by decide)) (.ite (.raiseError .errReinit (by decide))
      (.start (latched_same ..) rfl))
  case writeCmd a b => exact .common (by simp [Instr.opcode]) (.rawCommand rfl rfl)
  case writeData a b => exact .common (by simp [Instr.opcode]) (.write (latched_same ..) rfl ..)
  case readData a b =>
    refine .common (by simp [Instr.opcode]) (.whenWired (.inl rfl) ?_)
    rw [List.append_assoc]
    exact .read ..
  case readAb a b => exact .common (by simp [Instr.opcode]) (.whenWired (.inr rfl) (.read ..))
  case isBusy a b =>
    refine .common (by simp [Instr.opcode]) ?_
    split
    · exact .read ..
    · exact .answer _
  case clear | home | scrollLeft | scrollRight | setCursor | cgramSlot => exact .plainCommand (by simp [Instr.opcode])
  case cursorOn | cursorOff | blinkOn | blinkOff => exact .dctlCommand (by simp [Instr.opcode])
  case entryLtr | entryRtl | autoscrollOn | autoscrollOff => exact .entryCommand (by simp [Instr.opcode])
  all_goals exact .reserved (by simp [Instr.opcode])

end Sys2Proof.Machine
end

section
/-! SUPPORT. The length and the status of a request that runs: it ends with `State.finished`, within the longest request
of the configuration (42_controller_init.md R234, 70_reset_and_hazards.md R341). -/

namespace Sys2Proof.Machine

/-! ## The bound -/

/-- A poll makes at most `POLL_MAX` reads (60_exceptions.md R317). -/
theorem PollEnds.reads_le {s : State} {k n : Nat} (h : PollEnds s k n) :
    (n + 1) * s.cfg.readLen ≤ s.cfg.pollMax * s.cfg.readLen := by
  obtain ⟨hn, -⟩ := h
  exact Nat.mul_le_mul_right _ hn

theorem readLen_le {c : Config} (h : 1 ≤ c.pollMax) : c.readLen ≤ c.pollMax * c.readLen :=
  Nat.le_mul_of_pos_left _ h

/-- INIT's four polls together (42_controller_init.md R234). -/
theorem InitPolls.reads_le {s : State} {n₁ n₂ n₃ n₄ : Nat} (h : InitPolls s n₁ n₂ n₃ n₄) :
    (n₁ + 1 + n₂ + 1 + n₃ + 1 + n₄ + 1) * s.cfg.readLen ≤ 4 * (s.cfg.pollMax * s.cfg.readLen) := by
  obtain ⟨⟨h₁, -⟩, ⟨h₂, -⟩, ⟨h₃, -⟩, ⟨h₄, -⟩⟩ := h
  rw [← Nat.mul_assoc]
  exact Nat.mul_le_mul_right _ (by omega)

/-- `i` is served from `s` within the longest request and ends as a request that ran: with OK, or OK_TIMEOUT by `tmo`. -/
def Finishes (i : Instr) (s : State) : Prop :=
  ∃ T u data bus, Serves i s T (State.finished u data T) bus ∧ T ≤ s.cfg.longestRequest

/-- A register write with its completion wait. -/
theorem WriteRuns.finishes {i : Instr} {s u : State} {rs long : Bool} {v : Byte} (h : WriteRuns i s u rs v long) :
    Finishes i s := by
  obtain ⟨hunwired, hwired⟩ := h
  cases hw : s.cfg.rwWired with
  | false =>
    refine ⟨_, _, _, _, hunwired hw, ?_⟩
    unfold Config.longestRequest
    split <;> omega
  | true =>
    obtain ⟨n, hn, hserves⟩ := hwired hw
    have hreads := hn.reads_le
    refine ⟨_, _, _, _, hserves, ?_⟩
    unfold Config.longestRequest
    omega

theorem AtRest.init_finishes {s : State} (h : AtRest s) (hc : s.ctl ≠ .ready) (a b : Byte) :
    Finishes (.init a b) s := by
  have hu : s.ctl = .uninit := (h.inv.restCtl (by simp [State.running, h.free])).resolve_right hc
  cases hw : s.cfg.rwWired with
  | false =>
    exact ⟨_, _, _, _, h.init_runs_unwired hu a b hw, Nat.le_add_right ..⟩
  | true =>
    obtain ⟨n₁, n₂, n₃, n₄, hpolls, hserves⟩ := h.init_runs_wired hu a b hw
    have hreads := hpolls.reads_le
    refine ⟨_, _, _, _, hserves, ?_⟩
    unfold Config.longestRequest
    omega

/-- Every request that still runs after its accepting edge: the four phase sequences of `Accepts`. -/
theorem AtRest.finishes {i : Instr} {s t : State} (h : AtRest s) (hx : exec i s = .next t) (hr : t.running = true) :
    Finishes i s := by
  have hlatched : Accepted s (s.latched i) := h.accepts rfl rfl rfl rfl rfl rfl rfl rfl rfl rfl
  have hread := readLen_le hlatched.pollMax
  obtain ⟨-, hunanswered⟩ := (running_iff t).mp hr
  cases Accepts.of_exec hx with
  | reject | configError | answer => cases hunanswered
  | init op fresh =>
    rw [eq_init_of_opcode op]
    exact h.init_finishes fresh ..
  | write rs v =>
    have hwritten : Accepted s ((s.latched i).withMirrors (s.mirrors.after (.write rs v))) :=
      h.accepts rfl rfl rfl rfl rfl rfl rfl rfl rfl rfl
    exact (write_runs hwritten hx).finishes
  | readData _ wired =>
    obtain ⟨n, hn, hserves⟩ := readData_serves hlatched wired hx
    have hreads := hn.reads_le
    refine ⟨_, _, _, _, hserves, ?_⟩
    unfold Config.longestRequest
    omega
  | readBusy =>
    refine ⟨_, _, _, _, read_serves hlatched hx, ?_⟩
    unfold Config.longestRequest
    omega

/-! ## The status -/

/-- The status of a request that ran is OK, or OK_TIMEOUT with `tmo` set (60_exceptions.md R307). -/
theorem finished_status (s : State) (data : Byte) (T : Nat) :
    (s.finished data T).rspStatus = 0#3
      ∨ ((s.finished data T).rspStatus = 7#3 ∧ (s.finished data T).tmo = true) := by
  rw [State.finished, waited_eq]
  cases hm : s.tmo <;> simp

theorem Serves.cfg {i : Instr} {s t : State} {T : Nat} {bus : List Transfer} (h : Serves i s T t bus) :
    t.cfg = s.cfg := by
  obtain ⟨u, hx, hrun, -⟩ := h
  obtain ⟨hcfg, -, -⟩ := exec_host i s u hx
  exact run_keeps (P := fun v => v.cfg = s.cfg) (fun _ _ hv hs => (step_cfg hs).trans hv) T hcfg hrun

end Sys2Proof.Machine
end

section
/-! PROOFS. The obligations of 60_exceptions.md: no stuck state, the checks in their order, and a response to every
request within a bound. -/

namespace Sys2Proof.Proofs

open Sys2Proof.Machine

/-- Settles O18. -/
theorem stepNeverStops : Obligations.StepNeverStops := fun _ h => h.step_next

/-- Settles O29: `exec_judged`, read once for a verdict that rejects and once for one that does not. -/
theorem checksInOrder : Obligations.ChecksInOrder := by
  intro i s
  obtain ⟨t, hx, hjudged⟩ := exec_judged i s
  refine ⟨fun code hv => ?_, fun hv hfresh => ?_⟩ <;> rw [hv] at hjudged
  · cases hjudged with
    | rejected => exact hx
  · cases hjudged with
    | passed hfault hgoes => exact ⟨t, hx, hfault, hgoes hfresh⟩

/-- Settles O49: a rejection and an answer at once are served in no cycle; a request that runs is served by its phase
sequence (`AtRest.finishes`), and `tmo` stands at its end only where RW is wired. -/
theorem everyRequestIsAnswered : Obligations.EveryRequestIsAnswered := by
  intro i s hrest
  obtain ⟨-, -, hfresh⟩ := hrest.inv.idle hrest.free
  obtain ⟨hrejected, hpassed⟩ := checksInOrder i s
  cases hv : s.verdict i with
  | some code =>
    have hserves := serves_now (hrejected code hv) rfl
    obtain ⟨hinv, -⟩ := hrest.serves_keeps hserves
    refine ⟨_, _, _, hserves, Nat.zero_le _, hinv, fun code' hcode => ?_, nofun⟩
    cases hcode
    exact ⟨rfl, rfl, rfl, rfl⟩
  | none =>
    obtain ⟨u, hx, -, hrun | ⟨hanswered, hok⟩⟩ := hpassed hv hfresh
    · obtain ⟨T, w, data, bus, hserves, hT⟩ := hrest.finishes hx hrun
      obtain ⟨hinv, -⟩ := hrest.serves_keeps hserves
      exact ⟨_, _, _, hserves, hT, hinv, nofun, fun _ =>
        (finished_status w data T).imp_right (And.imp_right fun htmo => hserves.cfg ▸ hinv.tmoWired htmo)⟩
    · have hserves := serves_now hx hanswered
      exact ⟨_, _, _, hserves, Nat.zero_le _, (hrest.serves_keeps hserves).1, nofun, fun _ => .inl hok⟩

end Sys2Proof.Proofs
end

section
/-! SUPPORT. The pins over an edge (70_reset_and_hazards.md R336): an accepting edge leaves ENABLE low, and an edge of a
running request that meets ENABLE high moves no other pin (`advance_pins`). -/

namespace Sys2Proof.Machine

/-- Whatever the request, its accepting edge does not raise ENABLE: an access starts with its low phase
(40_transport.md R152, R156). -/
theorem Accepts.e_low {i : Instr} {s t : State} (h : Accepts i s t) (he : s.e = false) : t.e = false := by
  cases h with
  | reject | configError | answer => exact he
  | init => exact advance_init_e ..
  | write =>
    rw [List.append_assoc]
    exact advance_memWrite_e ..
  | readData =>
    rw [List.append_assoc]
    exact advance_memRead_e ..
  | readBusy => exact advance_memRead_e ..

/-- Inside a phase no pin changes; at its end what is left of the request is in order. -/
theorem runEdge_pins {s : State} (h : Inv s) (hr : s.running = true) (he : s.e = true ∨ s.runEdge.e = true) :
    s.runEdge.rs = s.rs ∧ s.runEdge.rw = s.rw ∧ s.runEdge.dO = s.dO ∧ s.runEdge.dir = s.dir := by
  by_cases hc : 1 < s.cnt
  · rw [runEdge_waiting hc]
    exact ⟨rfl, rfl, rfl, rfl⟩
  · obtain ⟨-, -, hpos⟩ := h.inOrder hr
    rw [runEdge_phaseEnd hc] at he ⊢
    exact advance_pins s.pos (s.hostMoves false) hpos he

end Sys2Proof.Machine
end

section
/-! PROOFS. The obligations of 70_reset_and_hazards.md: the pins while ENABLE is high, and the request lengths. -/

namespace Sys2Proof.Proofs

open Sys2Proof.Machine

/-- Settles O19: between two requests ENABLE is low and stays low, so only an edge of a running request is left
(`runEdge_pins`). -/
theorem pinsHeldInAPulse : Obligations.PinsHeldInAPulse := by
  intro s t hs hrst hstep he
  cases Edge.of_step hstep with
  | reset hr => simp [hrst] at hr
  | run _ hrun => exact runEdge_pins hs hrun he
  | accept _ hfree _ hx =>
    have hlow := hs.restLow hfree
    have hstays : t.e = false := (Accepts.of_exec hx).e_low hlow
    simp [hlow, hstays] at he
  | idle => exact ⟨rfl, rfl, rfl, rfl⟩

/-- Settles O53: two fixed configurations, so their figures are computed. -/
theorem lengthsAtOneMegahertz : Obligations.LengthsAtOneMegahertz := by
  unfold Obligations.LengthsAtOneMegahertz
  decide

end Sys2Proof.Proofs
end
